-- ==== Sys2Proof/Word.lean ====
section
/-! DEFINITION. The word types of the block (R10, R12, R14): 32-bit words, bytes, binary32 values held as their bit
patterns, and the 2048-sample table. -/

namespace Sys2Proof

/-- A command, argument or response word (R10). -/
abbrev Word := BitVec 32

/-- A byte of host payload memory (R110). -/
abbrev Byte := BitVec 8

/-- A MIDI note or key number: 7-bit unsigned (R50, R200). -/
abbrev Key := BitVec 7

/-- An IEEE 754 binary32 value, held as its bit pattern: bit 31 sign, [30:23] exponent, [22:0] fraction (R12, R143). -/
abbrev F32 := BitVec 32

/-- `TLEN`: every table has exactly 2048 samples (R8, fixed). -/
abbrev tableLen : Nat := 2048

/-- A 2048-sample single-cycle table (R8, R101, R102). -/
abbrev Table := Vector F32 2048

end Sys2Proof
end

