-- ==== Sys2Proof/Syntax.lean ====
section
/-! DEFINITION. The instruction set: the 15 commands of the command interface (R145), one constructor per row of
spec/opcode_table.json. Integer operands are mathematical integers (R19, R144); binary32 operands are bit patterns
(R143, R146). Ignored bits are no operands (R149). -/

namespace Sys2Proof

/-- The 15 assigned opcodes (R145). -/
inductive Opcode where
  | start
  | stop
  | close
  | setWaveform
  | setFilterCutoff
  | setEnvelope
  | loadWavetable
  | registerSample
  | unregisterSample
  | listSampleNames
  | noteOff
  | noteOn
  | controlChange
  | channelPressure
  | pitchBend
deriving DecidableEq, Repr

/-- A command with its operands (R142, R145). -/
inductive Instr where
  /-- START (R331): no operands. -/
  | start
  /-- STOP (R332): no operands. -/
  | stop
  /-- CLOSE (R333): no operands. -/
  | close
  /-- SET_WAVEFORM (R308): `id = w[7:0]`. -/
  | setWaveform (id : Nat)
  /-- SET_FILTER_CUTOFF (R305): `c = w[23:16]`, `hz = a1`. -/
  | setFilterCutoff (c : Nat) (hz : F32)
  /-- SET_ENVELOPE (R306): `c = w[23:16]`, `a1 .. a4`. -/
  | setEnvelope (c : Nat) (atk dec sus rel : F32)
  /-- LOAD_WAVETABLE (R334): payload address `a1` and byte length `a2`. -/
  | loadWavetable (addr len : Nat)
  /-- REGISTER_SAMPLE (R336): ROOT, LO, HI, and `a1 .. a4`. -/
  | registerSample (root lo hi addr len naddr nlen : Nat)
  /-- UNREGISTER_SAMPLE (R338): `index = w[15:0]`. -/
  | unregisterSample (index : Nat)
  /-- LIST_SAMPLE_NAMES (R340): no operands. -/
  | listSampleNames
  /-- NOTE_OFF (R296): `c = w[23:16]`, and the optional note `w[15:8]`, which the command ignores. -/
  | noteOff (c note : Nat)
  /-- NOTE_ON (R292): `c = w[23:16]`, `note = w[15:8]`, `vel = w[7:0]`. -/
  | noteOn (c note vel : Nat)
  /-- CONTROL_CHANGE (R304): `c = w[23:16]`, `cc = w[15:8]`, `value = w[7:0]`. -/
  | controlChange (c cc value : Nat)
  /-- CHANNEL_PRESSURE (R302): `c = w[23:16]`, `value = w[7:0]`. -/
  | channelPressure (c value : Nat)
  /-- PITCH_BEND (R300): `c = w[23:16]`, `value = w[15:0]`. -/
  | pitchBend (c value : Nat)
deriving DecidableEq, Repr

end Sys2Proof
end

