-- ==== Sys2Proof/WellFormed.lean ====
section
/-! DEFINITION. Which instructions have an encoding: every integer operand fits its field (R141, R142, R144). An operand
that fits its field but lies outside the range its command's rule gives is well formed: the command drops it (R290). -/

namespace Sys2Proof

/-- An 8-bit field (CH, A, B, ROOT, LO, HI of R141 and R142). -/
def fits8 (n : Nat) : Bool := decide (n < 256)

/-- The 16-bit field D16 (R141). -/
def fits16 (n : Nat) : Bool := decide (n < 65536)

/-- A u32 argument word (R143). -/
def fits32 (n : Nat) : Bool := decide (n < 4294967296)

/-- Every integer operand fits the field its format gives it (R142). -/
def Instr.wellFormed : Instr → Bool
  | .start => true
  | .stop => true
  | .close => true
  | .setWaveform id => fits8 id
  | .setFilterCutoff c _ => fits8 c
  | .setEnvelope c _ _ _ _ => fits8 c
  | .loadWavetable addr len => fits32 addr && fits32 len
  | .registerSample root lo hi addr len naddr nlen =>
      fits8 root && fits8 lo && fits8 hi && fits32 addr && fits32 len && fits32 naddr && fits32 nlen
  | .unregisterSample index => fits16 index
  | .listSampleNames => true
  | .noteOff c note => fits8 c && fits8 note
  | .noteOn c note vel => fits8 c && fits8 note && fits8 vel
  | .controlChange c cc value => fits8 c && fits8 cc && fits8 value
  | .channelPressure c value => fits8 c && fits8 value
  | .pitchBend c value => fits8 c && fits16 value

end Sys2Proof
end

