-- ==== Sys2Proof/Decode.lean ====
section
/-! DEFINITION. The command encoding (R140 to R149): opcode map, fields, decoder and encoder. A command is word 0 followed by
the argument words its opcode needs. The decoder is total on word lists and rejects by name. -/

namespace Sys2Proof

/-- The opcode byte of R145's map. -/
def Opcode.code : Opcode → Nat
  | .start => 0x10
  | .stop => 0x11
  | .close => 0x12
  | .setWaveform => 0x20
  | .setFilterCutoff => 0x21
  | .setEnvelope => 0x22
  | .loadWavetable => 0x30
  | .registerSample => 0x31
  | .unregisterSample => 0x32
  | .listSampleNames => 0x33
  | .noteOff => 0x80
  | .noteOn => 0x90
  | .controlChange => 0xB0
  | .channelPressure => 0xD0
  | .pitchBend => 0xE0

/-- `nargs(op)`: R145's "words" less one (R154). -/
def Opcode.nargs : Opcode → Nat
  | .start => 0
  | .stop => 0
  | .close => 0
  | .setWaveform => 0
  | .setFilterCutoff => 1
  | .setEnvelope => 4
  | .loadWavetable => 2
  | .registerSample => 4
  | .unregisterSample => 0
  | .listSampleNames => 0
  | .noteOff => 0
  | .noteOn => 0
  | .controlChange => 0
  | .channelPressure => 0
  | .pitchBend => 0

/-- The assigned opcode a byte names, or none: the 241 other values are unassigned (R145, R147). -/
def Opcode.ofCode (n : Nat) : Option Opcode :=
  if n = 0x10 then some .start
  else if n = 0x11 then some .stop
  else if n = 0x12 then some .close
  else if n = 0x20 then some .setWaveform
  else if n = 0x21 then some .setFilterCutoff
  else if n = 0x22 then some .setEnvelope
  else if n = 0x30 then some .loadWavetable
  else if n = 0x31 then some .registerSample
  else if n = 0x32 then some .unregisterSample
  else if n = 0x33 then some .listSampleNames
  else if n = 0x80 then some .noteOff
  else if n = 0x90 then some .noteOn
  else if n = 0xB0 then some .controlChange
  else if n = 0xD0 then some .channelPressure
  else if n = 0xE0 then some .pitchBend
  else none

/-- `w[31:24]`, OP (R141). -/
def fieldOP (w : Word) : Nat := w.toNat / 16777216

/-- `w[23:16]`, CH or ROOT (R141, R142). -/
def fieldCH (w : Word) : Nat := w.toNat / 65536 % 256

/-- `w[15:8]`, A or LO (R141, R142). -/
def fieldA (w : Word) : Nat := w.toNat / 256 % 256

/-- `w[7:0]`, B or HI (R141, R142). -/
def fieldB (w : Word) : Nat := w.toNat % 256

/-- `w[15:0]`, D16 (R141). -/
def fieldD16 (w : Word) : Nat := w.toNat % 65536

/-- The assigned opcode of a command word, if any (R147). -/
def opcodeOf (w : Word) : Option Opcode := Opcode.ofCode (fieldOP w)

/-- Argument word k of a collected command, k from 1 (R143). -/
def argWord (ws : List Word) (k : Nat) : Word := ws.getD k 0#32

/-- The instruction that an opcode and the collected words `ws` (word 0 included) name: every operand is its field read
as an unsigned integer, or a binary32 bit pattern taken without conversion (R143, R144, R146). Ignored bits are not
read (R149). -/
def assemble (op : Opcode) (ws : List Word) : Instr :=
  let w := argWord ws 0
  match op with
  | .start => .start
  | .stop => .stop
  | .close => .close
  | .setWaveform => .setWaveform (fieldB w)
  | .setFilterCutoff => .setFilterCutoff (fieldCH w) (argWord ws 1)
  | .setEnvelope => .setEnvelope (fieldCH w) (argWord ws 1) (argWord ws 2) (argWord ws 3) (argWord ws 4)
  | .loadWavetable => .loadWavetable (argWord ws 1).toNat (argWord ws 2).toNat
  | .registerSample =>
      .registerSample (fieldCH w) (fieldA w) (fieldB w)
        (argWord ws 1).toNat (argWord ws 2).toNat (argWord ws 3).toNat (argWord ws 4).toNat
  | .unregisterSample => .unregisterSample (fieldD16 w)
  | .listSampleNames => .listSampleNames
  | .noteOff => .noteOff (fieldCH w) (fieldA w)
  | .noteOn => .noteOn (fieldCH w) (fieldA w) (fieldB w)
  | .controlChange => .controlChange (fieldCH w) (fieldA w) (fieldB w)
  | .channelPressure => .channelPressure (fieldCH w) (fieldB w)
  | .pitchBend => .pitchBend (fieldCH w) (fieldD16 w)

/-- Why a word list is no command. -/
inductive Reject where
  /-- The list is empty. -/
  | noWord
  /-- Word 0's opcode is unassigned (R147): such a word is one word long and has no effect. -/
  | unassigned (op : Nat)
  /-- Fewer argument words than word 0's opcode needs (R140): the command is only partly collected (R154). -/
  | incomplete (op : Opcode) (got : Nat)
deriving DecidableEq, Repr

/-- The decoder: the command at the head of a word list and the words after it. The opcode alone gives the length
(R140, R155), and an argument word is never decoded as a command (R148). -/
def decode (ws : List Word) : Except Reject (Instr × List Word) :=
  match ws with
  | [] => .error .noWord
  | w :: args =>
    match opcodeOf w with
    | none => .error (.unassigned (fieldOP w))
    | some op =>
      if args.length < op.nargs then .error (.incomplete op args.length)
      else .ok (assemble op (w :: args.take op.nargs), args.drop op.nargs)

/-- The bits of word 0 that an opcode's format uses (R142); NOTE_OFF's A is kept for the assembler's note (R156). -/
def Opcode.usedBits : Opcode → Word
  | .start => 0xFF000000#32
  | .stop => 0xFF000000#32
  | .close => 0xFF000000#32
  | .setWaveform => 0xFF0000FF#32
  | .setFilterCutoff => 0xFFFF0000#32
  | .setEnvelope => 0xFFFF0000#32
  | .loadWavetable => 0xFF000000#32
  | .registerSample => 0xFFFFFFFF#32
  | .unregisterSample => 0xFF00FFFF#32
  | .listSampleNames => 0xFF000000#32
  | .noteOff => 0xFFFFFF00#32
  | .noteOn => 0xFFFFFFFF#32
  | .controlChange => 0xFFFFFFFF#32
  | .channelPressure => 0xFFFF00FF#32
  | .pitchBend => 0xFFFFFFFF#32

/-- The opcode of an instruction (R145). -/
def Instr.opcode : Instr → Opcode
  | .start => .start
  | .stop => .stop
  | .close => .close
  | .setWaveform _ => .setWaveform
  | .setFilterCutoff _ _ => .setFilterCutoff
  | .setEnvelope _ _ _ _ _ => .setEnvelope
  | .loadWavetable _ _ => .loadWavetable
  | .registerSample _ _ _ _ _ _ _ => .registerSample
  | .unregisterSample _ => .unregisterSample
  | .listSampleNames => .listSampleNames
  | .noteOff _ _ => .noteOff
  | .noteOn _ _ _ => .noteOn
  | .controlChange _ _ _ => .controlChange
  | .channelPressure _ _ => .channelPressure
  | .pitchBend _ _ => .pitchBend

/-- Word 0 from its four bytes (R141). -/
def word0 (op ch a b : Nat) : Word := BitVec.ofNat 32 (op * 16777216 + ch * 65536 + a * 256 + b)

/-- A u32 argument word (R143). -/
def u32Word (n : Nat) : Word := BitVec.ofNat 32 n

/-- The encoder: the words of an instruction, 0 in every ignored bit (R142, R149, R156). -/
def encode (i : Instr) : List Word :=
  let op := i.opcode.code
  match i with
  | .start => [word0 op 0 0 0]
  | .stop => [word0 op 0 0 0]
  | .close => [word0 op 0 0 0]
  | .setWaveform id => [word0 op 0 0 id]
  | .setFilterCutoff c hz => [word0 op c 0 0, hz]
  | .setEnvelope c atk dec sus rel => [word0 op c 0 0, atk, dec, sus, rel]
  | .loadWavetable addr len => [word0 op 0 0 0, u32Word addr, u32Word len]
  | .registerSample root lo hi addr len naddr nlen =>
      [word0 op root lo hi, u32Word addr, u32Word len, u32Word naddr, u32Word nlen]
  | .unregisterSample index => [word0 op 0 0 index]
  | .listSampleNames => [word0 op 0 0 0]
  | .noteOff c note => [word0 op c note 0]
  | .noteOn c note vel => [word0 op c note vel]
  | .controlChange c cc value => [word0 op c cc value]
  | .channelPressure c value => [word0 op c 0 value]
  | .pitchBend c value => [word0 op c 0 value]

/-- The longest command has five words (R140). -/
abbrev longestCommand : Nat := 5

/-- The five words at and after a command word whose bits are `w`, `nbits` of them given and the rest 0: word k holds
bits 32k+31 .. 32k of the number. -/
def tableWords (nbits w : Nat) : List Word :=
  (List.range longestCommand).map fun k => BitVec.ofNat 32 (w % 2 ^ nbits / 2 ^ (32 * k))

/-- The instruction the decoder reads from an opcode-table row's bits, operand words beyond them 0. -/
def decodeTableWord (nbits w : Nat) : Option Instr :=
  match decode (tableWords nbits w) with
  | .ok (i, _) => some i
  | .error _ => none

end Sys2Proof
end

