-- ==== Sys2Proof/Config.lean ====
section
/-! DEFINITION. The block's configuration (R8): the numeric parameters, the library of configuration functions, and the
free values the spec leaves open (opaque constants with no body). -/

namespace Sys2Proof

/-- The four built-in waveform kinds (`NKINDS` = 4, R8, R101). -/
inductive Kind where
  | sine
  | triangle
  | saw
  | square
deriving DecidableEq, Repr

/-- Kind index of BANK (R101). -/
def Kind.index : Kind → Nat
  | .sine => 0
  | .triangle => 1
  | .saw => 2
  | .square => 3

/-- The numeric parameters of R8, one field each, under the spec's names. The fixed ones (TLEN, NBANDS, NKINDS, NNOTES)
are no fields. A `Params` stands in `State`, and no step changes it (log entry 1). -/
structure Params where
  /-- `N`: channels, and voices. -/
  numChannels : Nat
  headroom : F32
  ampTauRiseMs : F32
  ampTauFallMs : F32
  ampEps : F32
  cutoffK : F32
  cutoffFloorHz : F32
  envMinMs : F32
  attackDone : F32
  decayWindow : F32
  releaseEps : F32
  peakFloor : F32
  bandEps : F32
  defaultSr : F32
  defaultCutoffHz : F32
  cutoffAbsMax : F32
  srMin : F32
  srMax : F32
  rMax : Nat
  nameMax : Nat
  payloadBytes : Nat
  cmdDepth : Nat
  respDepth : Nat
  genTol : F32
deriving DecidableEq, Repr

/-- The values of R8's "value" column. Where that column gives a range only (PAYLOAD_BYTES, CMD_DEPTH, RESP_DEPTH) the
value is a DESIGN CHOICE (log entry 2). -/
def Params.default : Params where
  numChannels := 8
  headroom := 0x3E4CCCCD#32        -- 0.2
  ampTauRiseMs := 0x40A00000#32    -- 5.0
  ampTauFallMs := 0x41A00000#32    -- 20.0
  ampEps := 0x38D1B717#32          -- 1.0e-4
  cutoffK := 0x3A83126F#32         -- 0.001
  cutoffFloorHz := 0x41A00000#32   -- 20.0
  envMinMs := 0x3F800000#32        -- 1.0
  attackDone := 0x3F7FBE77#32      -- 0.999
  decayWindow := 0x3A83126F#32     -- 0.001
  releaseEps := 0x3727C5AC#32      -- 1.0e-5
  peakFloor := 0x3089705F#32       -- 1.0e-9
  bandEps := 0x358637BD#32         -- 1.0e-6
  defaultSr := 0x473B8000#32       -- 48000.0
  defaultCutoffHz := 0x469C4000#32 -- 20000.0
  cutoffAbsMax := 0x5F800000#32    -- 2^64
  srMin := 0x3F800000#32           -- 1.0
  srMax := 0x49800000#32           -- 2^20
  rMax := 16
  nameMax := 64
  payloadBytes := 4294967296
  cmdDepth := 64
  respDepth := 64
  genTol := 0x35800000#32          -- 2^-20

/-- The configuration functions of R8 and R13 (I7, I8): the four transcendental functions, the stored table `BANK[k][n]`
generated for a sample rate (R187), and the placeholder name of an index (R207), for names of at most NAME_MAX bytes. Every
operation of the machine that needs one takes the library as an argument; the machine itself runs with `Machine.lib`. -/
structure Lib where
  fexp : F32 → F32
  fexp2 : F32 → F32
  fsin : F32 → F32
  flog2 : F32 → F32
  bank : Params → F32 → Kind → Key → Table
  placeholderName : Nat → Nat → List Byte

namespace Config

/-- FREE (R13): the implementation's exp before R13's bound is imposed (`Machine.lib`). -/
opaque rawExp : F32 → F32

/-- FREE (R13): the implementation's exp2 before `fexp2(0.0) = 1.0` is imposed (`Machine.lib`). -/
opaque rawExp2 : F32 → F32

/-- FREE (R13): the implementation's sin; no rule calls it (I7). -/
opaque rawSin : F32 → F32

/-- FREE (R13): the implementation's log2. -/
opaque rawLog2 : F32 → F32

/-- FREE (R187, I8): the stored bank, some element of the type of the banks that R187 admits (`Machine.StoredBank`). -/
opaque storedBank (Bank : Type) [Inhabited Bank] : Bank

/-- Lean compiles a constant of a type only where it is given some code for an element. A free constant has no value that code
could compute: this code does not end, and nothing can be proved of its value. -/
def noValue {α : Type} (h : Nonempty α) (n : Nat) : α := noValue h (n + 1)
partial_fixpoint

/-- FREE (R207, D39): the placeholder name of a list index, before the bounds of R151 and R396 are imposed
(`Machine.lib`). -/
opaque rawPlaceholderName : Nat → List Byte

/-- FREE (R375, I17): the driver's answer to the n-th `driverOpen` that `State.draws` does not script. -/
opaque driverDraw : Nat → Bool × F32

/-- FREE: sign and payload of the NaN an operation on these operands produces (R12 gives no NaN encoding). -/
opaque nanBits : F32 → F32 → BitVec 32

/-- FREE: `floor` of a NaN or an infinity (R12 defines `floor` of a number only). -/
opaque nonFiniteFloor : F32 → Int

/-- FREE: `min` or `max` of operands one of which is a NaN (R12 defines them on non-NaN operands only). -/
opaque nanMinMax : F32 → F32 → F32

/-- FREE: whether `min` or `max` of two zeros of different sign answers its first operand (R12: +0.0 == -0.0). -/
opaque firstZero : F32 → F32 → Bool

end Config

end Sys2Proof
end

