-- ==== Sys2Proof/Machine/Float.lean ====
section
/-! DEFINITION. IEEE 754 binary32 arithmetic on bit patterns (R12): round-to-nearest-even, one rounding per operation,
subnormals kept. A finite magnitude is held exactly as a natural number of units of 2^-149. -/

namespace Sys2Proof.Machine

/-- +0.0 -/
abbrev f0 : F32 := 0x00000000#32
/-- 0.5 -/
abbrev fHalf : F32 := 0x3F000000#32
/-- 1.0 -/
abbrev f1 : F32 := 0x3F800000#32
/-- 2.0 -/
abbrev f2 : F32 := 0x40000000#32
/-- 12.0 -/
abbrev f12 : F32 := 0x41400000#32
/-- 127.0 -/
abbrev f127 : F32 := 0x42FE0000#32
/-- 440.0 -/
abbrev f440 : F32 := 0x43DC0000#32
/-- 1000.0 -/
abbrev f1000 : F32 := 0x447A0000#32
/-- 2048.0 -/
abbrev f2048 : F32 := 0x45000000#32
/-- 8192.0 -/
abbrev f8192 : F32 := 0x46000000#32
/-- 32768.0 -/
abbrev f32768 : F32 := 0x47000000#32
/-- `TWO_PI`, the binary32 nearest to 2π (R12). -/
abbrev fTwoPi : F32 := 0x40C90FDB#32

/-- Sign bit (R143). -/
def isNeg (x : F32) : Bool := decide (2147483648 ≤ x.toNat)

/-- Exponent field [30:23] (R143). -/
def expField (x : F32) : Nat := x.toNat / 8388608 % 256

/-- Fraction field [22:0] (R143). -/
def fracField (x : F32) : Nat := x.toNat % 8388608

/-- Neither an infinity nor a NaN: exponent field not 0xFF (R290). -/
def isFinite (x : F32) : Bool := decide (expField x ≠ 255)

def isNaN (x : F32) : Bool := decide (expField x = 255 ∧ fracField x ≠ 0)

def isInf (x : F32) : Bool := decide (expField x = 255 ∧ fracField x = 0)

/-- Magnitude of a finite value in units of 2^-149 (exact; subnormals kept, R12). -/
def magUnits (x : F32) : Nat :=
  if expField x = 0 then fracField x else (8388608 + fracField x) * 2 ^ (expField x - 1)

/-- Signed value of a finite pattern in units of 2^-149. -/
def valUnits (x : F32) : Int := if isNeg x then -(magUnits x : Int) else (magUnits x : Int)

/-- One unit is 2^-149. -/
abbrev unitsPerOne : Nat := 2 ^ 149

/-- The exact rational value of a finite pattern. -/
def toRat (x : F32) : ℚ := (valUnits x : ℚ) / (unitsPerOne : ℚ)

/-- The 31-bit magnitude pattern nearest to `num / den` units, ties to even, overflow to infinity (R12). -/
def roundMag (num den : Nat) : Nat :=
  let sh := (num / den).log2 - 23
  let d := den * 2 ^ sh
  let q := num / d
  let r := num % d
  let q' := if 2 * r < d then q else if d < 2 * r then q + 1 else q + q % 2
  min (sh * 8388608 + q') 2139095040

/-- A sign and a 31-bit magnitude pattern as a binary32. -/
def packSign (neg : Bool) (mag : Nat) : F32 := BitVec.ofNat 32 (if neg then 2147483648 + mag else mag)

/-- A quiet NaN whose sign and payload are free (log entry 5). -/
def nanOf (a b : F32) : F32 := Config.nanBits a b ||| 0x7FC00000#32

/-- Unary minus: the sign bit flipped. -/
def fneg (x : F32) : F32 := x ^^^ 0x80000000#32

/-- `abs` (R12): the sign bit cleared. -/
def fabs (x : F32) : F32 := x &&& 0x7FFFFFFF#32

/-- IEEE addition, round-to-nearest-even (R12). -/
def fadd (a b : F32) : F32 :=
  if isNaN a || isNaN b then nanOf a b
  else if isInf a then (if isInf b && (isNeg a != isNeg b) then nanOf a b else a)
  else if isInf b then b
  else
    let v := valUnits a + valUnits b
    if v = 0 then packSign (isNeg a && isNeg b) 0
    else packSign (decide (v < 0)) (roundMag v.natAbs 1)

/-- IEEE subtraction (R12): `a - b` is `a + (-b)`. -/
def fsub (a b : F32) : F32 := fadd a (fneg b)

/-- IEEE multiplication, round-to-nearest-even (R12). -/
def fmul (a b : F32) : F32 :=
  if isNaN a || isNaN b then nanOf a b
  else if isInf a || isInf b then
    (if (isFinite a && magUnits a == 0) || (isFinite b && magUnits b == 0) then nanOf a b
     else packSign (isNeg a != isNeg b) 2139095040)
  else packSign (isNeg a != isNeg b) (roundMag (magUnits a * magUnits b) unitsPerOne)

/-- IEEE division, round-to-nearest-even (R12). -/
def fdiv (a b : F32) : F32 :=
  if isNaN a || isNaN b then nanOf a b
  else if isInf a then (if isInf b then nanOf a b else packSign (isNeg a != isNeg b) 2139095040)
  else if isInf b then packSign (isNeg a != isNeg b) 0
  else if magUnits b = 0 then
    (if magUnits a = 0 then nanOf a b else packSign (isNeg a != isNeg b) 2139095040)
  else packSign (isNeg a != isNeg b) (roundMag (magUnits a * unitsPerOne) (magUnits b))

/-- Order key of a non-NaN pattern: both zeros have key 0, infinities are the extremes. -/
def orderKey (x : F32) : Int :=
  if isNeg x then -((x.toNat % 2147483648 : Nat) : Int) else ((x.toNat % 2147483648 : Nat) : Int)

/-- IEEE `<` (R12). -/
def flt (a b : F32) : Bool := !isNaN a && !isNaN b && decide (orderKey a < orderKey b)

/-- IEEE `<=` (R12). -/
def fle (a b : F32) : Bool := !isNaN a && !isNaN b && decide (orderKey a ≤ orderKey b)

/-- IEEE `==` (R12): +0.0 == -0.0. -/
def feq (a b : F32) : Bool := !isNaN a && !isNaN b && decide (orderKey a = orderKey b)

/-- What `min` and `max` answer when neither operand is below the other: the common value; one of the two zeros where
their signs differ, or any value where an operand is a NaN (both free, log entries 6 and 7). -/
def tieOf (a b : F32) : F32 :=
  if isNaN a || isNaN b then Config.nanMinMax a b
  else if a = b then a
  else if Config.firstZero a b then a else b

/-- `max` by ordinary comparison (R12). -/
def fmax (a b : F32) : F32 := if flt a b then b else if flt b a then a else tieOf a b

/-- `min` by ordinary comparison (R12). -/
def fmin (a b : F32) : F32 := if flt a b then a else if flt b a then b else tieOf a b

/-- `clamp(x, lo, hi) = min(max(x, lo), hi)` (R12). -/
def fclamp (x lo hi : F32) : F32 := fmin (fmax x lo) hi

/-- `floor(x)`: the largest integer `<= x`, exact (R12); of a NaN or an infinity a free value (log entry 7). -/
def ffloor (x : F32) : Int :=
  if isFinite x then valUnits x / (unitsPerOne : Int) else Config.nonFiniteFloor x

/-- `toF32(k)`: the integer as binary32, round-to-nearest-even (R12). -/
def ofInt (k : Int) : F32 := packSign (decide (k < 0)) (roundMag (k.natAbs * unitsPerOne) 1)

/-- The binary32 nearest to the non-negative rational `num / den` (R12: what a decimal literal stands for). -/
def ofRatio (num den : Nat) : F32 := packSign false (roundMag (num * unitsPerOne) den)

end Sys2Proof.Machine
end

