-- ==== Sys2Proof/Machine/Bank.lean ====
section
/-! DEFINITION. Tables, and the wavetable bank (40_wavetable_bank.md): the harmonic limit in exact integer arithmetic, the ideal
tables in real arithmetic, and the stored bank as a free constant under R187's requirement (log entries 3 and 17). -/

namespace Sys2Proof.Machine

/-! ## Tables -/

/-- The table whose sample i is `f i` (i in 0..2047). -/
def tabulate (f : Nat → F32) : Table := ⟨((List.range 2048).map f).toArray, by simp⟩

/-- `T[i]`, i in 0..2047. -/
def tableAt (t : Table) (i : Nat) : F32 := t.toArray.toList.getD i f0

/-! ## Harmonics -/

/-- The exact sample rate as units of 2^-149 (R12); `sr / 2` is this over 2^150. -/
def rateUnits (sr : F32) : Nat := magUnits sr

/-- `h <= nyquist / f(n)` in exact real arithmetic (R181): with `f(n) = 440 * 2^((n-69)/12)`, both sides positive, the
12th powers are compared: `(880 h)^12 * 2^n <= sr^12 * 2^69`, the rate in units of 2^-149. -/
def harmonicFits (n : Nat) (sr : F32) (h : Nat) : Bool :=
  decide ((880 * h * unitsPerOne) ^ 12 * 2 ^ n ≤ rateUnits sr ^ 12 * 2 ^ 69)

/-- The largest h below 2^k more than `base` that fits, bit by bit from the top. -/
def harmonicSearch (n : Nat) (sr : F32) : Nat → Nat → Nat
  | 0, base => base
  | k + 1, base =>
    if harmonicFits n sr (base + 2 ^ k) then harmonicSearch n sr k (base + 2 ^ k)
    else harmonicSearch n sr k base

/-- `maxH(n, sr) = max(1, floor(nyquist / f(n)))` (R181), the floor exact. Every finite rate is below 2^128, so the
quotient is below 2^125. -/
def maxH (n : Nat) (sr : F32) : Nat := max 1 (harmonicSearch n sr 125 0)

/-! ## The ideal tables -/

/-- `sin(2π ((h i) mod 2048) / 2048)` (R183 to R185). -/
noncomputable def sineOf (h i : Nat) : ℝ := Real.sin (2 * Real.pi * ((h * i % 2048 : ℕ) : ℝ) / 2048)

/-- The ideal tables `xk(i)` for note n and rate sr, in real arithmetic, as R182, R183, R184 and R185 write them. -/
noncomputable def idealReal (k : Kind) (n : Nat) (sr : F32) (i : Nat) : ℝ :=
  match k with
  | .sine => Real.sin (2 * Real.pi * (i : ℝ) / 2048)
  | .saw => ∑ h ∈ Finset.Icc 1 (maxH n sr), 1 / (h : ℝ) * sineOf h i
  | .square => ∑ h ∈ (Finset.Icc 1 (maxH n sr)).filter (fun h => h % 2 = 1), 1 / (h : ℝ) * sineOf h i
  | .triangle => ∑ m ∈ Finset.range ((maxH n sr + 1) / 2), (-1) ^ m / ((2 * m + 1 : ℕ) : ℝ) ^ 2 * sineOf (2 * m + 1) i

/-- `P` (R186): the peak magnitude of a 2048-value table. -/
noncomputable def tablePeak (x : Nat → ℝ) : ℝ := (Finset.range 2048).sup' ⟨0, by simp⟩ fun i => |x i|

/-- `yk(i)` (R186): the ideal value normalised by `max(P, PEAK_FLOOR)`. -/
noncomputable def idealValue (P : Params) (sr : F32) (k : Kind) (n : Key) (i : Nat) : ℝ :=
  idealReal k n.toNat sr i / max (tablePeak (idealReal k n.toNat sr)) (toRat P.peakFloor : ℝ)

/-! ## The stored bank -/

/-- R187's requirement on genRound: `|genRound(y) - y| <= GEN_TOL` for every table value y. -/
def IsGenRound (P : Params) (genRound : ℝ → F32) : Prop :=
  ∀ (sr : F32) (k : Kind) (n : Key) (i : Nat), i < 2048 →
    let y := idealValue P sr k n i
    isFinite (genRound y) = true ∧ |(toRat (genRound y) : ℝ) - y| ≤ (toRat P.genTol : ℝ)

/-- `BANK[k][n][i] = genRound(yk(i))` (R187) for the tables that `generate(sr)` writes, one genRound for all of them. -/
def IsStoredBank (P : Params) (bank : F32 → Kind → Key → Table) : Prop :=
  ∃ genRound, IsGenRound P genRound ∧
    ∀ (sr : F32) (k : Kind) (n : Key) (i : Nat), i < 2048 → tableAt (bank sr k n) i = genRound (idealValue P sr k n i)

/-- What the stored bank is drawn from: the banks R187 admits; any bank where it admits none (a GEN_TOL too small for
binary32). -/
def StoredBank (P : Params) : Type :=
  { bank : F32 → Kind → Key → Table // (∃ b, IsStoredBank P b) → IsStoredBank P bank }

theorem storedBank_nonempty (P : Params) : Nonempty (StoredBank P) := by
  by_cases h : ∃ b, IsStoredBank P b
  · exact ⟨⟨h.choose, fun _ => h.choose_spec⟩⟩
  · exact ⟨⟨fun _ _ _ => Vector.replicate 2048 f0, fun h' => absurd h' h⟩⟩

/-- The stored bank (R180, R187): a configuration constant constrained by R187's bound, and by nothing else. -/
def storedBank (P : Params) : F32 → Kind → Key → Table :=
  (@Config.storedBank (StoredBank P) ⟨Config.noValue (storedBank_nonempty P) 0⟩).val

end Sys2Proof.Machine
end

