-- ==== Sys2Proof/Machine/State.lean ====
section
/-! DEFINITION. The state of the block (10_state.md, 20_memory.md, 41_sample_regions.md), the data through which the other
agents act on it (R16, R379), and reset (R390). Plain data throughout. -/

namespace Sys2Proof.Machine

/-- `STAGE` (R52): the envelope stage. -/
inductive Stage where
  | idle
  | attack
  | decay
  | sustain
  | release
deriving DecidableEq, Repr

/-- The 3-bit encoding of `STAGE` (R52). -/
def Stage.code : Stage → BitVec 3
  | .idle => 0
  | .attack => 1
  | .decay => 2
  | .sustain => 3
  | .release => 4

/-- `G.WAVESEL` (R35): a closed variant (R7). -/
inductive Wave where
  | sine
  | triangle
  | saw
  | square
  | custom
deriving DecidableEq, Repr

/-- The 3-bit encoding of `G.WAVESEL` (R35). -/
def Wave.code : Wave → BitVec 3
  | .sine => 0
  | .triangle => 1
  | .saw => 2
  | .square => 3
  | .custom => 4

/-- A channel register set `CH[c]` (R41). -/
structure Channel where
  /-- C0 `BEND` (R42). -/
  bend : F32
  /-- C1 `AT` (R43). -/
  at_ : F32
  /-- C2 `BRIGHT` (R44); no rule of the render engine reads it. -/
  bright : F32
  /-- C3 `CUTOFF` (R45). -/
  cutoff : F32
  /-- C4 `ATK` (R46). -/
  atk : F32
  /-- C5 `DEC` (R46). -/
  dec : F32
  /-- C6 `SUS` (R47). -/
  sus : F32
  /-- C7 `REL` (R46). -/
  rel : F32
deriving DecidableEq, Repr

/-- A voice register set `V[v]` (R50). -/
structure Voice where
  /-- V0 `NOTE`. -/
  note : Key
  /-- V1 `BASEFREQ`. -/
  baseFreq : F32
  /-- V2 `PHASE`. -/
  phase : F32
  /-- V3 `AMP`: the de-click follower (R54). -/
  amp : F32
  /-- V4 `TARGET`. -/
  target : F32
  /-- V5 `STAGE`. -/
  stage : Stage
  /-- V6 `LEVEL`. -/
  level : F32
  /-- V7 `ACTIVE`. -/
  active : Bool
  /-- V8 `FSTATE`: the filter integrator. -/
  fstate : F32
  /-- V9 `FCUT`: the tracked cutoff. -/
  fcut : F32
deriving DecidableEq, Repr

/-- Channel c and the voice bound one-to-one to it (R41, R50): lane c of the block (R242). -/
structure Lane where
  chan : Channel
  voice : Voice
deriving DecidableEq, Repr

/-- The `G.CUSTOM` handle (R36, R102): VALID and T change together. -/
structure Custom where
  valid : Bool
  table : Table
deriving DecidableEq, Repr

/-- A sample-region record (R200); immutable once built (R208). -/
structure Region where
  root : Key
  lo : Key
  hi : Key
  rootFreq : F32
  name : List Byte
  /-- `BAND[b]`, b in 0..10. -/
  band : Vector Table 11
deriving DecidableEq, Repr

/-- `G.STREAM` (R38): bit 0 OPEN, bit 1 PLAYING; one register, read and written as one unit (R103). -/
structure Stream where
  opened : Bool
  playing : Bool
deriving DecidableEq, Repr

/-- `G.DEC` (R39): IDLE, or COLLECTING(op, words) with the words taken so far, word 0 included. -/
inductive Dec where
  | idle
  | collecting (op : Opcode) (words : List Word)
deriving DecidableEq, Repr

/-- Host payload memory as cells: addresses strictly rising, no cell equal to what an unlisted address reads as (R110). -/
abbrev Memory := List Host.Cell

/-- A write point of the command being executed (R105, R379): a tick, a host action or any number of them may fall before
each one. -/
inductive WriteOp where
  /-- SET_ENVELOPE write 1 (R306). -/
  | writeAtk (c : Nat) (v : F32)
  /-- SET_ENVELOPE write 2 (R306). -/
  | writeDec (c : Nat) (v : F32)
  /-- SET_ENVELOPE write 3 (R306): the clamp is applied to `v` here. -/
  | writeSus (c : Nat) (v : F32)
  /-- SET_ENVELOPE write 4 (R306). -/
  | writeRel (c : Nat) (v : F32)
  /-- START: `generate(sr)`, which writes BANK and G.BANK_SR (R331, R180). -/
  | generateBank (sr : F32)
  /-- START: G.SR (R331). -/
  | writeSr (sr : F32)
  /-- START: G.STREAM, OPEN and PLAYING set (R331). -/
  | startStream
  /-- LOAD_WAVETABLE write 1 (R334): read, parse, publish G.CUSTOM. `taken` holds the payload bytes already read, with
  the values they had then (R111). -/
  | publishCustom (addr len : Nat) (taken : List Host.Cell)
  /-- LOAD_WAVETABLE write 2 (R334): G.WAVESEL becomes Custom. -/
  | selectCustom
  /-- REGISTER_SAMPLE (R336): read, parse, build, publish G.REGIONS. `takenAudio` and `takenName` as `taken` above. -/
  | publishRegion (root lo hi : Key) (addr len naddr nlen : Nat) (takenAudio takenName : List Host.Cell)
  /-- `respond(w)` (R150): holds while RESPQ is full. -/
  | respond (w : Word)
deriving DecidableEq, Repr

/-- What the host does when it moves (R16, R379): an input of the model. -/
inductive HostAct where
  /-- Push a word to CMDQ; holds while CMDQ is full (R40). -/
  | push (w : Word)
  /-- Pop a word from RESPQ; waits while RESPQ is empty (R372). -/
  | pop
  /-- Store a byte of payload memory. The two flags say whether a command that is reading the payload has already read the
  old byte, as audio and as name (R111). -/
  | store (a : Nat) (b : Byte) (audioTaken nameTaken : Bool)
deriving DecidableEq, Repr

/-- Which agent moves (R16, R379): an input of the model. A tick carries the driver's playback report (R375). -/
inductive Turn where
  | processor
  | tick (drvPlaying : Bool)
  | host
deriving DecidableEq, Repr

/-- The driver's answer to `driverOpen()` (R375): (ok, sr2). -/
structure Draw where
  ok : Bool
  sr : F32
deriving DecidableEq, Repr

/-- A call of the block to the driver (R375). -/
inductive DriverCall where
  | driverOpen
  | driverClose
deriving DecidableEq, Repr

/-- The machine's state. The first group is the block's own state (R30); `payload` is the host memory it reads (R110);
the rest is the model's: the execution in progress (R154), the other agents' scripted moves, and what they have
observed (R383). -/
structure State where
  /-- The parameters of R8; never written. -/
  cfg : Params
  /-- G0 `SR` (R33). -/
  sr : F32
  /-- G1 `BANK_SR` (R34). BANK is what `generate` produced for it (R180, R188; log entry 3). -/
  bankSr : F32
  /-- G2 `WAVESEL` (R35). -/
  wave : Wave
  /-- G3 `CUSTOM` (R36). -/
  custom : Custom
  /-- G4 `REGIONS` (R37), oldest first. -/
  regions : List Region
  /-- G5 `STREAM` (R38). -/
  stream : Stream
  /-- G6 `DEC` (R39). -/
  dec : Dec
  /-- `CMDQ` (R40), next word first. -/
  cmdq : List Word
  /-- `RESPQ` (R40), oldest word first. -/
  respq : List Word
  /-- `CH[0..N-1]` and `V[0..N-1]` (R41, R50): lane c holds CH[c] and V[c]. N is the number of lanes. -/
  lanes : List Lane
  /-- Host payload memory (R110). -/
  payload : Memory
  /-- The write points the command being executed has left (R105, R154). -/
  work : List WriteOp
  /-- Who moves next; when it is empty the command processor moves. -/
  turns : List Turn
  /-- What the host does at its next turns. -/
  host : List HostAct
  /-- What the driver answers to the next `driverOpen` calls. -/
  draws : List Draw
  /-- How many `driverOpen` calls `draws` did not answer: the counter of the free value `Config.driverDraw`. -/
  drawNo : Nat
  /-- The tick outputs so far, oldest first (R383). -/
  outs : List F32
  /-- The response words the host has popped, oldest first (R383). -/
  popped : List Word
  /-- The block's calls to the driver, oldest first (R375). -/
  calls : List DriverCall
deriving DecidableEq, Repr

/-- No fault exists: no command and no tick raises an exception (R370, R374). -/
inductive Fault where
deriving DecidableEq, Repr

/-- Why a step gives no meaning. -/
inductive Refusal where
  /-- Raised by an arm of `exec` whose instruction has no meaning yet; safe: a claim about it is unprovable. -/
  | notModelled (mnemonic : String)
deriving DecidableEq, Repr

/-- Reset values of a channel register set (R41, R390). -/
def Channel.reset (p : Params) : Channel where
  bend := 0x3F800000#32
  at_ := 0#32
  bright := 0#32
  cutoff := p.defaultCutoffHz
  atk := 0x40A00000#32
  dec := 0x42480000#32
  sus := 0x3F4CCCCD#32
  rel := 0x42C80000#32

/-- Reset values of a voice register set (R50, R390). -/
def Voice.reset : Voice where
  note := 0
  baseFreq := 0#32
  phase := 0#32
  amp := 0#32
  target := 0#32
  stage := .idle
  level := 0#32
  active := false
  fstate := 0#32
  fcut := 0#32

/-- A table of all +0.0 (R36). -/
def zeroTable : Table := Vector.replicate 2048 0#32

/-- The state after reset of a block with parameters `p` (R390), bank generation done. The payload memory and the other
agents' scripts are empty (log entries 4, 9, 10). -/
def State.resetWith (p : Params) : State where
  cfg := p
  sr := p.defaultSr
  bankSr := p.defaultSr
  wave := .sine
  custom := { valid := false, table := zeroTable }
  regions := []
  stream := { opened := false, playing := false }
  dec := .idle
  cmdq := []
  respq := []
  lanes := List.replicate p.numChannels { chan := Channel.reset p, voice := Voice.reset }
  payload := []
  work := []
  turns := []
  host := []
  draws := []
  drawNo := 0
  outs := []
  popped := []
  calls := []

/-- The state after reset (R390) with R8's default parameters. -/
def State.reset : State := State.resetWith Params.default

end Sys2Proof.Machine
end

