-- ==== Sys2Proof/Machine/Ops.lean ====
section
/-! DEFINITION. The shared operations: the configuration library, payload memory, lane accessors, the primitives of
R9, R14 and R15, and what a command does to the machine around its own effect (drop, issue, respond). The block has no
exceptions, so there is no exception entry and no return (R370, R374). -/

namespace Sys2Proof.Machine

/-! ## The configuration library -/

/-- R13's third assumption imposed on any raw function: for `x <= 0.0` the value lies in [0.0, 1.0]. Every function that
meets the assumption is one of these, and no other is. -/
def admitExp (raw : F32 → F32) (x : F32) : F32 :=
  if fle x f0 && !(fle f0 (raw x) && fle (raw x) f1) then f1 else raw x

/-- R13's second assumption imposed on any raw function: `fexp2(0.0) = 1.0`. -/
def admitExp2 (raw : F32 → F32) (x : F32) : F32 := if x = f0 then f1 else raw x

/-- R151's "a name of length 0 is never sent" and R396's bound of `ceil(NAME_MAX / 4)` data words a name, imposed on any raw
placeholder function (log entry 27): a longer name is cut, and an empty one becomes one space. -/
def admitName (raw : Nat → List Byte) (nameMax i : Nat) : List Byte :=
  let nm := (raw i).take (4 * ((nameMax + 3) / 4))
  if nm.isEmpty then [0x20#8] else nm

/-- The library the machine runs with: free functions under the assumptions of R13, R187, R151 and R396, and no
other. -/
def lib : Lib where
  fexp := admitExp Config.rawExp
  fexp2 := admitExp2 Config.rawExp2
  fsin := Config.rawSin
  flog2 := Config.rawLog2
  bank := storedBank
  placeholderName := admitName Config.rawPlaceholderName

/-! ## Payload memory (R110) -/

/-- What an address that memory does not list reads as (log entry 9). -/
def unlistedByte : Byte := 0#8

/-- The byte at an address. -/
def memRead : Memory → Nat → Byte
  | [], _ => unlistedByte
  | (a0, b0) :: t, a => if a = a0 then b0 else memRead t a

/-- A byte stored at an address; the canonical form is kept. -/
def memWrite : Memory → Nat → Byte → Memory
  | [], a, b => if b = unlistedByte then [] else [(a, b)]
  | (a0, b0) :: t, a, b =>
    if a < a0 then (if b = unlistedByte then (a0, b0) :: t else (a, b) :: (a0, b0) :: t)
    else if a = a0 then (if b = unlistedByte then t else (a, b) :: t)
    else (a0, b0) :: memWrite t a b

/-- Addresses strictly rising from `lo`, no cell equal to the unlisted byte. -/
def memWfFrom : Nat → Memory → Bool
  | _, [] => true
  | lo, (a, b) :: t => decide (lo ≤ a) && decide (b ≠ unlistedByte) && memWfFrom (a + 1) t

/-- The canonical form of memory. -/
def Memory.wf (m : Memory) : Bool := memWfFrom 0 m

/-- Every listed address lies below a bound. -/
def memBelow (bound : Nat) (m : Memory) : Bool := m.all fun c => decide (c.1 < bound)

/-- The little-endian value of n bytes from `addr` of a byte-valued view (R110, R112). -/
def leBytes (view : Nat → Byte) (addr : Nat) : Nat → Nat
  | 0 => 0
  | n + 1 => (view addr).toNat + 256 * leBytes view (addr + 1) n

/-- `MemRead(addr, n)` (R110): the bytes addr .. addr+n-1, little-endian; nothing when `addr + n > PAYLOAD_BYTES`, a sum
that never wraps. No alignment is needed (R113). -/
def payloadRead (s : State) (addr n : Nat) : Option Nat :=
  if addr + n > s.cfg.payloadBytes then none else some (leBytes (memRead s.payload) addr n)

/-- A host store to payload memory; an address outside the memory names no byte (R110). -/
def payloadStore (s : State) (a : Nat) (b : Byte) : State :=
  if a < s.cfg.payloadBytes then { s with payload := memWrite s.payload a b } else s

/-- The byte a command reads at an address: the value it had when the byte was taken, if it was taken before a host store
(R111), or the value memory holds now. -/
def takenRead (taken : List Host.Cell) (m : Memory) (a : Nat) : Byte := (taken.lookup a).getD (memRead m a)

/-- The bytes taken so far with one more: a byte is read once (R221). -/
def takeByte (taken : List Host.Cell) (a : Nat) (b : Byte) : List Host.Cell :=
  if (taken.lookup a).isSome then taken else (a, b) :: taken

/-! ## Registers -/

/-- `N` (R41): the number of channels, and of voices. -/
def State.numLanes (s : State) : Nat := s.lanes.length

/-- Lane c; outside 0..N-1 there is none, and no rule reads it. -/
def State.lane (s : State) (c : Nat) : Lane :=
  s.lanes.getD c { chan := Channel.reset s.cfg, voice := Voice.reset }

/-- `CH[c]` (R41). -/
def State.chan (s : State) (c : Nat) : Channel := (s.lane c).chan

/-- `V[c]` (R50). -/
def State.voice (s : State) (c : Nat) : Voice := (s.lane c).voice

/-- `CH[c] <- x`. -/
def State.setChan (s : State) (c : Nat) (x : Channel) : State :=
  { s with lanes := s.lanes.set c { s.lane c with chan := x } }

/-- `V[c] <- x`: one group of writes (R105). -/
def State.setVoice (s : State) (c : Nat) (x : Voice) : State :=
  { s with lanes := s.lanes.set c { s.lane c with voice := x } }

/-! ## Table lookup -/

/-- `lerp(T, p)` (R14): linear interpolation, wrapping at the end of the cycle. `T` is a table's read function. -/
def lerp (T : Nat → F32) (p : F32) : F32 :=
  let x := fmul p f2048
  let i0 := (min (ffloor x) 2047).toNat
  let fr := fsub x (ofInt i0)
  let i1 := (i0 + 1) % 2048
  fadd (T i0) (fmul fr (fsub (T i1) (T i0)))

/-! ## Derived quantities -/

/-- `midiToHz(n)` (R9), by the same formula for every integer (R201). -/
def midiToHz (L : Lib) (n : Int) : F32 := fmul f440 (L.fexp2 (fdiv (ofInt (n - 69)) f12))

/-- `nyquist = SR / 2.0` (R9). -/
def nyquist (sr : F32) : F32 := fdiv sr f2

/-- `tcoef(ms, sr)` (R15): the per-sample coefficient of a time constant in milliseconds, floored at ENV_MIN_MS. -/
def tcoef (L : Lib) (P : Params) (ms sr : F32) : F32 :=
  let tc := fdiv (fmax ms P.envMinMs) f1000
  let d := fmul sr tc
  let q := fdiv f1 d
  fsub f1 (L.fexp (fneg q))

/-- The one-pole coefficient of a cutoff (R201, R255): `1.0 - fexp(-((TWO_PI * fc) / sr))`. -/
def onePoleCoef (L : Lib) (fc sr : F32) : F32 := fsub f1 (L.fexp (fneg (fdiv (fmul fTwoPi fc) sr)))

/-! ## What a command does around its effect -/

/-- `drop` (R11, R290): the command ends with no state change and no response. -/
def drop (s : State) : State := s

/-- The command's execution goes on in the write points `ops` (R105, R154). -/
def issue (ops : List WriteOp) (s : State) : State := { s with work := ops }

/-- A status response word (R150): the opcode's echo, S1 and S0. -/
def statusWord (op : Opcode) (s1 s0 : Bool) : Word :=
  BitVec.ofNat 32 (op.code * 16777216 + (if s1 then 2 else 0) + (if s0 then 1 else 0))

/-- Whether RESPQ has room (R40, R150). -/
def respRoom (s : State) : Bool := decide (s.respq.length < s.cfg.respDepth)

/-- `respond(w)` where RESPQ has room (R150). -/
def pushResp (s : State) (w : Word) : State := { s with respq := s.respq ++ [w] }

end Sys2Proof.Machine
end

