-- ==== Sys2Proof/Machine/Operands.lean ====
section
/-! DEFINITION. Operand checks (R290) and the values operands stand for (R292, R300, R302, R304). Every integer operand is
taken as it was decoded: no sign extension, scaling or shift (R144, R146). -/

namespace Sys2Proof.Machine

/-- Check 1 of R290: `c < N`. -/
def channelOk (s : State) (c : Nat) : Bool := decide (c < s.numLanes)

/-- A 0..127 operand: note, velocity, cc, controller value, root or key. -/
def upTo127 (n : Nat) : Bool := decide (n ≤ 127)

/-- A bend value, 0..16383 (R300). -/
def bendOk (n : Nat) : Bool := decide (n ≤ 16383)

/-- `k / 127.0`: aftertouch, brightness (R302, R304), and velocity before headroom (R292). -/
def unit127 (k : Nat) : F32 := fdiv (ofInt k) f127

/-- NOTE_ON's `TARGET` (R292): `(toF32(vel) / 127.0) * HEADROOM`. -/
def targetOf (P : Params) (vel : Nat) : F32 := fmul (unit127 vel) P.headroom

/-- PITCH_BEND's exponent (R300): `((toF32(value - 8192) / 8192.0) * 2.0) / 12.0`. -/
def bendExponent (value : Nat) : F32 :=
  let d := fdiv (ofInt ((value : Int) - 8192)) f8192
  fdiv (fmul d f2) f12

/-- PITCH_BEND's ratio (R300). -/
def bendRatio (L : Lib) (value : Nat) : F32 := L.fexp2 (bendExponent value)

/-- The range of SET_FILTER_CUTOFF (R305): finite, magnitude at most CUTOFF_ABS_MAX. -/
def cutoffOk (P : Params) (hz : F32) : Bool := isFinite hz && fle (fabs hz) P.cutoffAbsMax

/-- SET_ENVELOPE's check (R306): all four words finite. -/
def envelopeOk (atk dec sus rel : F32) : Bool := isFinite atk && isFinite dec && isFinite sus && isFinite rel

/-- The selector an id names (R308, R35); an id above 4 names none. -/
def waveOf (id : Nat) : Option Wave :=
  if id = 0 then some .sine
  else if id = 1 then some .triangle
  else if id = 2 then some .saw
  else if id = 3 then some .square
  else if id = 4 then some .custom
  else none

/-- The BANK kind a selector reads (R35, R101, R245); Custom with no published table reads the Sine table (D53). -/
def Wave.kind : Wave → Kind
  | .sine => .sine
  | .triangle => .triangle
  | .saw => .saw
  | .square => .square
  | .custom => .sine

/-- A 0..127 operand as a stored note or key (R50, R200). -/
def keyOf (n : Nat) : Key := BitVec.ofNat 7 n

end Sys2Proof.Machine
end

