-- ==== Sys2Proof/Machine/Controls.lean ====
section
/-! DEFINITION. The controller and parameter commands (44_channel_commands.md sections 3 and 4). Each makes one write, but
SET_ENVELOPE, which makes four (R105, R291); a failed check drops the command (R290). -/

namespace Sys2Proof.Machine

/-- PITCH_BEND (R300). -/
def pitchBend (L : Lib) (c value : Nat) (s : State) : State :=
  if channelOk s c && bendOk value then s.setChan c { s.chan c with bend := bendRatio L value } else drop s

/-- CHANNEL_PRESSURE (R302). -/
def channelPressure (c value : Nat) (s : State) : State :=
  if channelOk s c && upTo127 value then s.setChan c { s.chan c with at_ := unit127 value } else drop s

/-- CONTROL_CHANGE (R304): cc 74 writes BRIGHT; every other cc has no effect. -/
def controlChange (c cc value : Nat) (s : State) : State :=
  if channelOk s c && upTo127 cc && upTo127 value then
    if cc = 74 then s.setChan c { s.chan c with bright := unit127 value } else s
  else drop s

/-- SET_FILTER_CUTOFF (R305): any value in range is stored unchanged. -/
def setFilterCutoff (c : Nat) (hz : F32) (s : State) : State :=
  if channelOk s c && cutoffOk s.cfg hz then s.setChan c { s.chan c with cutoff := hz } else drop s

/-- SET_ENVELOPE (R306): four separate writes, in the order ATK, DEC, SUS, REL (R105, R307). -/
def setEnvelope (c : Nat) (atk dec sus rel : F32) (s : State) : State :=
  if channelOk s c && envelopeOk atk dec sus rel then
    issue [.writeAtk c atk, .writeDec c dec, .writeSus c sus, .writeRel c rel] s
  else drop s

/-- SET_WAVEFORM (R308). -/
def setWaveform (id : Nat) (s : State) : State :=
  match waveOf id with
  | some w => { s with wave := w }
  | none => drop s

/-- SET_ENVELOPE's clamped sustain level (R306). -/
def clampSustain (v : F32) : F32 := fclamp v f0 f1

/-- The meaning of PITCH_BEND. -/
def execPitchBend (c value : Nat) (s : State) : Host.Outcome State Fault Refusal := .next (pitchBend lib c value s)

/-- The meaning of CHANNEL_PRESSURE. -/
def execChannelPressure (c value : Nat) (s : State) : Host.Outcome State Fault Refusal :=
  .next (channelPressure c value s)

/-- The meaning of CONTROL_CHANGE. -/
def execControlChange (c cc value : Nat) (s : State) : Host.Outcome State Fault Refusal :=
  .next (controlChange c cc value s)

/-- The meaning of SET_FILTER_CUTOFF. -/
def execSetFilterCutoff (c : Nat) (hz : F32) (s : State) : Host.Outcome State Fault Refusal :=
  .next (setFilterCutoff c hz s)

/-- The meaning of SET_ENVELOPE. -/
def execSetEnvelope (c : Nat) (atk dec sus rel : F32) (s : State) : Host.Outcome State Fault Refusal :=
  .next (setEnvelope c atk dec sus rel s)

/-- The meaning of SET_WAVEFORM. -/
def execSetWaveform (id : Nat) (s : State) : Host.Outcome State Fault Refusal := .next (setWaveform id s)

end Sys2Proof.Machine
end

