-- ==== Sys2Proof/Machine/Flags.lean ====
section
/-! DEFINITION. The computations behind the block's flags (R51): the envelope transitions and the two extinguish checks that
write STAGE and ACTIVE. The remaining flags (CUSTOM.VALID, STREAM.OPEN, STREAM.PLAYING) are written as constants by
their commands. There are no condition codes. -/

namespace Sys2Proof.Machine

/-- The stage after a level update (R251): Attack ends at ATTACK_DONE, Decay within DECAY_WINDOW of the sustain level,
inclusive. -/
def nextStage (P : Params) (stage : Stage) (level sus : F32) : Stage :=
  match stage with
  | .attack => if fle P.attackDone level then .decay else .attack
  | .decay => if fle (fabs (fsub level sus)) P.decayWindow then .sustain else .decay
  | .sustain => .sustain
  | .release => .release
  | .idle => .idle

/-- Extinguish check A (R249): `TARGET == 0.0 and AMP < AMP_EPS`. -/
def extinguishA (P : Params) (v : Voice) : Bool := feq v.target f0 && flt v.amp P.ampEps

/-- Extinguish check B (R252): `STAGE == Release and LEVEL <= RELEASE_EPS`. -/
def extinguishB (P : Params) (v : Voice) : Bool := decide (v.stage = .release) && fle v.level P.releaseEps

/-- What check A writes (R249): AMP, ACTIVE, STAGE; everything else is kept. -/
def retireA (v : Voice) : Voice := { v with amp := f0, active := false, stage := .idle }

/-- What check B writes (R252): LEVEL, ACTIVE, STAGE; everything else is kept. -/
def retireB (v : Voice) : Voice := { v with level := f0, active := false, stage := .idle }

/-- The STAGE and TARGET that NOTE_OFF writes (R296). -/
def releaseVoice (v : Voice) : Voice := { v with stage := .release, target := f0 }

/-- The group of fields NOTE_ON writes (R292); AMP is not written. -/
def startVoice (L : Lib) (note : Key) (target cutoff : F32) (v : Voice) : Voice :=
  { v with
    note := note
    baseFreq := midiToHz L note.toNat
    phase := f0
    stage := .attack
    level := f0
    fstate := f0
    fcut := cutoff
    target := target
    active := true }

end Sys2Proof.Machine
end

