-- ==== Sys2Proof/Machine/Notes.lean ====
section
/-! DEFINITION. The note commands NOTE_ON and NOTE_OFF (44_channel_commands.md section 2). Each writes its voice fields as one
group (R105, R291); a failed check drops the command (R290). -/

namespace Sys2Proof.Machine

/-- NOTE_ON (R292), on a silent or a sounding voice alike (R293), velocity 0 included (R294). -/
def noteOn (L : Lib) (c note vel : Nat) (s : State) : State :=
  if channelOk s c && upTo127 note && upTo127 vel then
    s.setVoice c (startVoice L (keyOf note) (targetOf s.cfg vel) (s.chan c).cutoff (s.voice c))
  else drop s

/-- NOTE_OFF (R296): an inactive voice is left unchanged (R297). -/
def noteOff (c : Nat) (s : State) : State :=
  if channelOk s c then
    if (s.voice c).active then s.setVoice c (releaseVoice (s.voice c)) else drop s
  else drop s

/-- The meaning of NOTE_ON. -/
def execNoteOn (c note vel : Nat) (s : State) : Host.Outcome State Fault Refusal := .next (noteOn lib c note vel s)

/-- The meaning of NOTE_OFF; the optional note is ignored (R149, R296). -/
def execNoteOff (c : Nat) (s : State) : Host.Outcome State Fault Refusal := .next (noteOff c s)

end Sys2Proof.Machine
end

