-- ==== Sys2Proof/Machine/Loader.lean ====
section
/-! DEFINITION. The audio-sample loader (42_sample_loader.md): a pure function from a byte buffer to a 2048-sample table and a
success flag. `B` is the buffer's read function and `len` its length. -/

namespace Sys2Proof.Machine

/-! ## The fallback sine (R230) -/

/-- π in units of 2^-120, rounded down. -/
def piFixed : Nat := 4175892906503776358826876457663557747

/-- The remaining terms of the sine series in units of 2^-120: `term` is the current term, `x2` the squared angle, and
the next term is `term * x2 / ((2k+2)(2k+3))`. Even-numbered terms are added, odd-numbered ones taken off. -/
def sineSeries (x2 : Nat) : Nat → Nat → Nat → Int
  | 0, _, _ => 0
  | fuel + 1, k, term =>
    (if k % 2 = 0 then (term : Int) else -(term : Int)) +
      sineSeries x2 fuel (k + 1) (term * x2 / 2 ^ 120 / ((2 * k + 2) * (2 * k + 3)))

/-- sin(2π j / 2048) for j in 0..512, in units of 2^-120, by the series to 24 terms. -/
def sineFixed (j : Nat) : Nat :=
  let x := piFixed * j / 1024
  (sineSeries (x * x / 2 ^ 120) 24 0 x).toNat

/-- sin(2π j / 2048) for j in 0..512, rounded to the nearest binary32. -/
def quarterSine (j : Nat) : F32 := ofRatio (sineFixed j) (2 ^ 120)

/-- `FALLBACK[j]` (R230): sin(2π j / 2048) rounded to the nearest binary32, j in 0..2047. -/
def fallbackAt (j : Nat) : F32 :=
  if j ≤ 512 then quarterSine j
  else if j ≤ 1024 then quarterSine (1024 - j)
  else if j ≤ 1536 then fneg (quarterSine (j - 1024))
  else fneg (quarterSine (2048 - j))

/-- The `FALLBACK` table (R230). -/
def fallback : Table := tabulate fallbackAt

/-! ## Reads inside the buffer (R221) -/

/-- `u16(p)`: little-endian; none where it would pass the buffer's end. -/
def readU16 (B : Nat → Byte) (len p : Nat) : Option Nat := if p + 2 ≤ len then some (leBytes B p 2) else none

/-- `u32(p)`: little-endian; none where it would pass the buffer's end. -/
def readU32 (B : Nat → Byte) (len p : Nat) : Option Nat := if p + 4 ≤ len then some (leBytes B p 4) else none

/-- The four bytes at p are the given ones (as the little-endian value of the four). -/
def tagAt (B : Nat → Byte) (p tag : Nat) : Bool := leBytes B p 4 == tag

/-- "RIFF" (R222). -/
def tagRiff : Nat := 0x46464952
/-- "WAVE" (R222). -/
def tagWave : Nat := 0x45564157
/-- "fmt " (R223). -/
def tagFmt : Nat := 0x20746D66
/-- "data" (R223). -/
def tagData : Nat := 0x61746164

/-- R222: `len >= 12`, "RIFF" at 0 and "WAVE" at 8; the size field is not checked. -/
def headerOk (B : Nat → Byte) (len : Nat) : Bool := decide (12 ≤ len) && tagAt B 0 tagRiff && tagAt B 8 tagWave

/-- A chunk found by the walk: where its body starts, and its size. -/
structure Chunk where
  body : Nat
  size : Nat
deriving DecidableEq, Repr

/-- The chunk walk (R223) from `pos`: the first "fmt " and the first "data" chunk, in either order. Each round moves on
by at least 8 bytes, so `len` rounds are enough. -/
def chunkWalk (B : Nat → Byte) (len : Nat) :
    Nat → Nat → Option Chunk → Option Chunk → Option Chunk × Option Chunk
  | 0, _, fmt, data => (fmt, data)
  | fuel + 1, pos, fmt, data =>
    if pos + 8 ≤ len ∧ (fmt = none ∨ data = none) then
      let size := leBytes B (pos + 4) 4
      let body := pos + 8
      if body + size > len then (fmt, data)
      else
        let fmt' := if tagAt B pos tagFmt && fmt.isNone then some ⟨body, size⟩ else fmt
        let data' := if tagAt B pos tagData && data.isNone then some ⟨body, size⟩ else data
        chunkWalk B len fuel (body + size + size % 2) fmt' data'
    else (fmt, data)

/-- The accepted codecs (R224): linear PCM 16-bit and IEEE float 32-bit. -/
inductive Codec where
  | pcm16
  | float32
deriving DecidableEq, Repr

/-- `bits / 8` (R225). -/
def Codec.bytes : Codec → Nat
  | .pcm16 => 2
  | .float32 => 4

/-- The codec of a (tag, bits) pair; every other pair is unsupported (R224). -/
def codecOf (tag bits : Nat) : Option Codec :=
  if tag = 1 ∧ bits = 16 then some .pcm16
  else if tag = 3 ∧ bits = 32 then some .float32
  else none

/-- The format chunk (R224): its codec and channel count C >= 1; none where it fails. -/
def parseFmt (B : Nat → Byte) (len : Nat) (c : Chunk) : Option (Codec × Nat) :=
  if c.size < 16 then none
  else
    match readU16 B len c.body, readU16 B len (c.body + 2), readU16 B len (c.body + 14) with
    | some tag, some channels, some bits =>
      match codecOf tag bits with
      | some codec => if channels = 0 then none else some (codec, channels)
      | none => none
    | _, _, _ => none

/-- A 16-bit sample as a signed integer (`sext_32`, R226). -/
def signed16 (v : Nat) : Int := if v < 32768 then (v : Int) else (v : Int) - 65536

/-- The sample at byte p (R226). -/
def sampleAt (B : Nat → Byte) (codec : Codec) (p : Nat) : F32 :=
  match codec with
  | .pcm16 => fdiv (ofInt (signed16 (leBytes B p 2))) f32768
  | .float32 => BitVec.ofNat 32 (leBytes B p 4)

/-- What a successful parse finds: the codec, the channel count C, the frame count L, and where the frames start (R225). -/
structure Frames where
  codec : Codec
  channels : Nat
  count : Nat
  body : Nat
deriving DecidableEq, Repr

/-- Sample c of frame f (R225). -/
def frameSample (B : Nat → Byte) (fr : Frames) (f c : Nat) : F32 :=
  sampleAt B fr.codec (fr.body + f * (fr.channels * fr.codec.bytes) + c * fr.codec.bytes)

/-- The n samples from byte p on are finite float32 values (R226). -/
def allFinite (B : Nat → Byte) : Nat → Nat → Bool
  | 0, _ => true
  | n + 1, p => isFinite (sampleAt B .float32 p) && allFinite B n (p + 4)

/-- No sample of a frame is a NaN or an infinity (R226); a PCM16 sample never is. -/
def samplesFinite (B : Nat → Byte) (fr : Frames) : Bool :=
  match fr.codec with
  | .pcm16 => true
  | .float32 => allFinite B (fr.count * fr.channels) fr.body

/-- The parse (R222 to R226): the frames of a valid buffer, none on every failure of R231. -/
def parseWave (B : Nat → Byte) (len : Nat) : Option Frames :=
  if headerOk B len then
    match chunkWalk B len len 12 none none with
    | (some fmt, some data) =>
      match parseFmt B len fmt with
      | some (codec, channels) =>
        let fr : Frames :=
          { codec := codec, channels := channels, count := data.size / (channels * codec.bytes), body := data.body }
        if fr.count = 0 then none else if samplesFinite B fr then some fr else none
      | none => none
    | _ => none
  else none

/-! ## From frames to a table -/

/-- The channels 1 .. n of a frame added, left to right, to `acc` (R227). -/
def sumChannels (x : Nat → F32) : Nat → Nat → F32 → F32
  | 0, _, acc => acc
  | n + 1, c, acc => sumChannels x n (c + 1) (fadd acc (x c))

/-- `m[f]` (R227): the channel sum divided once by C. -/
def monoAt (B : Nat → Byte) (fr : Frames) (f : Nat) : F32 :=
  fdiv (sumChannels (frameSample B fr f) (fr.channels - 1) 1 (frameSample B fr f 0)) (ofInt fr.channels)

/-- `r[j]` (R228): linear interpolation at `toF32(j) * scale`, wrapping at the boundary. -/
def resampleAt (m : Nat → F32) (L : Nat) (j : Nat) : F32 :=
  let scale := fdiv (ofInt L) f2048
  let pos := fmul (ofInt j) scale
  let i0 := (min (ffloor pos) ((L : Int) - 1)).toNat
  let fr := fsub pos (ofInt i0)
  let i1 := (i0 + 1) % L
  fadd (m i0) (fmul fr (fsub (m i1) (m i0)))

/-- `P` (R229): the greatest magnitude of the list, from +0.0. -/
def peakOf (xs : List F32) : F32 := xs.foldl (fun p x => fmax p (fabs x)) f0

/-- R229: every value divided by `max(P, PEAK_FLOOR)`. -/
def normalise (P : Params) (r : Table) : Table :=
  let d := fmax (peakOf r.toArray.toList) P.peakFloor
  r.map fun x => fdiv x d

/-- The table of parsed frames (R227 to R229). -/
def tableOfFrames (P : Params) (B : Nat → Byte) (fr : Frames) : Table :=
  normalise P (tabulate (resampleAt (monoAt B fr) fr.count))

/-- `load(addr, len)` (R220) on a byte view of payload memory: the table and the success flag; (FALLBACK, 0) on every
failure of R231, the range check first (R221). -/
def load (P : Params) (view : Nat → Byte) (addr len : Nat) : Table × Bool :=
  if addr + len > P.payloadBytes then (fallback, false)
  else
    match parseWave (fun p => view (addr + p)) len with
    | some fr => (tableOfFrames P (fun p => view (addr + p)) fr, true)
    | none => (fallback, false)

end Sys2Proof.Machine
end

