-- ==== Sys2Proof/Machine/Regions.lean ====
section
/-! DEFINITION. Sample regions (41_sample_regions.md): band construction, region match, band selection, reported names. -/

namespace Sys2Proof.Machine

/-- One pass of the one-pole lowpass from state `st` (R201): `s <- s + alpha * (x - s)` for each value in turn. -/
def onePole (alpha : F32) : F32 → List F32 → List F32
  | _, [] => []
  | st, x :: xs =>
    let st' := fadd st (fmul alpha (fsub x st))
    st' :: onePole alpha st' xs

theorem onePole_length (alpha : F32) : ∀ (xs : List F32) (st : F32), (onePole alpha st xs).length = xs.length
  | [], _ => rfl
  | _ :: xs, _ => congrArg (· + 1) (onePole_length alpha xs _)

/-- The forward pass and then the time-reversed pass, each from state 0.0; not circular, not renormalised (R201). -/
def twoPass (alpha : F32) (xs : List F32) : List F32 :=
  (onePole alpha f0 (onePole alpha f0 xs).reverse).reverse

/-- The transposition ratio `T` of band b (R201). The note number may fall outside 0..127. -/
def bandRatio (L : Lib) (root b : Nat) : F32 :=
  fdiv (midiToHz L ((root : Int) + 12 * ((b : Int) - 5))) (midiToHz L root)

/-- The cutoff of band b (R201): `min(nyq, nyq / max(BAND_EPS, T))`. -/
def bandCutoff (L : Lib) (P : Params) (root b : Nat) (sr : F32) : F32 :=
  fmin (nyquist sr) (fdiv (nyquist sr) (fmax P.bandEps (bandRatio L root b)))

/-- `BAND[b]` of `buildBands(X, root, sr)` (R201). -/
def buildBand (L : Lib) (P : Params) (x : Table) (root : Nat) (sr : F32) (b : Nat) : Table :=
  ⟨(twoPass (onePoleCoef L (bandCutoff L P root b sr) sr) x.toArray.toList).toArray, by
    simp [twoPass, onePole_length]⟩

/-- `buildBands(X, root, sr)` (R201). -/
def buildBands (L : Lib) (P : Params) (x : Table) (root : Nat) (sr : F32) : Vector Table 11 :=
  #v[buildBand L P x root sr 0, buildBand L P x root sr 1, buildBand L P x root sr 2,
     buildBand L P x root sr 3, buildBand L P x root sr 4, buildBand L P x root sr 5,
     buildBand L P x root sr 6, buildBand L P x root sr 7, buildBand L P x root sr 8,
     buildBand L P x root sr 9, buildBand L P x root sr 10]

/-- Whether a region covers a note (R204): `LO <= note <= HI`; none where LO > HI. -/
def covers (r : Region) (note : Key) : Bool :=
  decide (r.lo.toNat ≤ note.toNat) && decide (note.toNat ≤ r.hi.toNat)

/-- The region of the least index that covers a note (R204): the oldest wins. -/
def firstRegion (rs : List Region) (note : Key) : Option Region := rs.find? (covers · note)

/-- `bandIndex(freq, rootFreq)` (R205): the nearest octave, a tie rounded up, clamped to 0..10. -/
def bandIndex (L : Lib) (freq rootFreq : F32) : Nat :=
  let t := L.flog2 (fdiv freq rootFreq)
  let b := ffloor (fadd t fHalf) + 5
  (min (max b 0) 10).toNat

/-- `r.BAND[b]`, b in 0..10. -/
def bandTable (r : Region) (b : Nat) : Table := r.band.toArray.toList.getD b zeroTable

/-- The name LIST_SAMPLE_NAMES reports for the region at index i (R207): its own, or the placeholder when it is empty. -/
def reportedName (L : Lib) (P : Params) (i : Nat) (r : Region) : List Byte :=
  if r.name.length ≥ 1 then r.name else L.placeholderName P.nameMax i

/-- The default placeholder of R8 and R207: the ASCII bytes of "Sample " and the decimal digits of the index. The machine
leaves the function free (log entry 27). -/
def defaultPlaceholderName (_nameMax i : Nat) : List Byte :=
  [0x53#8, 0x61#8, 0x6D#8, 0x70#8, 0x6C#8, 0x65#8, 0x20#8] ++
    (Nat.toDigits 10 i).map fun d => BitVec.ofNat 8 d.toNat

/-- The list without the element at an index, later ones moved down by one; the list itself for an index beyond it
(R108, R338). -/
def removeRegion (rs : List Region) (index : Nat) : List Region := rs.eraseIdx index

end Sys2Proof.Machine
end

