-- ==== Sys2Proof/Machine/Samples.lean ====
section
/-! DEFINITION. The wavetable and sample-region commands (45_table_and_stream_commands.md sections 3 and 4). -/

namespace Sys2Proof.Machine

/-- LOAD_WAVETABLE (R334): read, parse and publish; then select; then respond. The bytes are read between here and the
publish (R111). -/
def loadWavetable (addr len : Nat) (s : State) : State := issue [.publishCustom addr len []] s

/-- The checks of REGISTER_SAMPLE in the rule's order (R336): keys, room in the list, the name's range (R110). -/
def registerOk (root lo hi naddr nlen : Nat) (s : State) : Bool :=
  upTo127 root && upTo127 lo && upTo127 hi && decide (s.regions.length < s.cfg.rMax) &&
    decide (naddr + nlen ≤ s.cfg.payloadBytes)

/-- REGISTER_SAMPLE (R336): a failed check ends it with status 0x31000000 and nothing registered. -/
def registerSample (root lo hi addr len naddr nlen : Nat) (s : State) : State :=
  if registerOk root lo hi naddr nlen s then
    issue [.publishRegion (keyOf root) (keyOf lo) (keyOf hi) addr len naddr nlen [] []] s
  else issue [.respond (statusWord .registerSample false false)] s

/-- UNREGISTER_SAMPLE (R338): an index beyond the list drops the command. -/
def unregisterSample (index : Nat) (s : State) : State :=
  if index < s.regions.length then { s with regions := removeRegion s.regions index } else drop s

/-- Byte k of a name, 0 beyond its end (R151). -/
def nameByte (nm : List Byte) (k : Nat) : Nat := (nm.getD k 0#8).toNat

/-- Data word q of a name (R151, R340): byte 4q+k at bits 8k+7 .. 8k. -/
def nameWord (nm : List Byte) (q : Nat) : Word :=
  BitVec.ofNat 32 (nameByte nm (4 * q) + 256 * nameByte nm (4 * q + 1) + 65536 * nameByte nm (4 * q + 2) +
    16777216 * nameByte nm (4 * q + 3))

/-- One region's response words (R151, R340): the length, then `ceil(length / 4)` data words. -/
def nameRecord (nm : List Byte) : List Word :=
  BitVec.ofNat 32 nm.length :: (List.range ((nm.length + 3) / 4)).map (nameWord nm)

/-- The records of a list, the indices counted from `i` (R340). -/
def nameRecords (L : Lib) (P : Params) : Nat → List Region → List Word
  | _, [] => []
  | i, r :: rs => nameRecord (reportedName L P i r) ++ nameRecords L P (i + 1) rs

/-- The whole response of LIST_SAMPLE_NAMES for a snapshot of the list (R151, R340): the header with the count, then the
records in list order. -/
def namesResponse (L : Lib) (P : Params) (rs : List Region) : List Word :=
  BitVec.ofNat 32 (Opcode.listSampleNames.code * 16777216 + rs.length) :: nameRecords L P 0 rs

/-- LIST_SAMPLE_NAMES (R340): one snapshot, then one respond a word, each of which may hold (R150). -/
def listSampleNames (L : Lib) (s : State) : State := issue ((namesResponse L s.cfg s.regions).map WriteOp.respond) s

/-- The region REGISTER_SAMPLE builds from a loaded table and a view of the name's bytes (R336, R200). -/
def buildRegion (L : Lib) (P : Params) (sr : F32) (root lo hi : Key) (x : Table) (nameView : Nat → Byte)
    (naddr nlen : Nat) : Region :=
  { root := root
    lo := lo
    hi := hi
    rootFreq := midiToHz L root.toNat
    name := (List.range (min nlen P.nameMax)).map fun p => nameView (naddr + p)
    band := buildBands L P x root.toNat sr }

/-- The meaning of LOAD_WAVETABLE. -/
def execLoadWavetable (addr len : Nat) (s : State) : Host.Outcome State Fault Refusal :=
  .next (loadWavetable addr len s)

/-- The meaning of REGISTER_SAMPLE. -/
def execRegisterSample (root lo hi addr len naddr nlen : Nat) (s : State) : Host.Outcome State Fault Refusal :=
  .next (registerSample root lo hi addr len naddr nlen s)

/-- The meaning of UNREGISTER_SAMPLE. -/
def execUnregisterSample (index : Nat) (s : State) : Host.Outcome State Fault Refusal :=
  .next (unregisterSample index s)

/-- The meaning of LIST_SAMPLE_NAMES. -/
def execListSampleNames (s : State) : Host.Outcome State Fault Refusal := .next (listSampleNames lib s)

end Sys2Proof.Machine
end

