-- ==== Sys2Proof/Machine/Streams.lean ====
section
/-! DEFINITION. The stream lifecycle commands START, STOP and CLOSE (45_table_and_stream_commands.md section 2) and the driver
interface they use (R375). -/

namespace Sys2Proof.Machine

/-- The driver's next answer (R375): scripted, or free. -/
def nextDraw (s : State) : Draw :=
  match s.draws with
  | d :: _ => d
  | [] => { ok := (Config.driverDraw s.drawNo).1, sr := (Config.driverDraw s.drawNo).2 }

/-- `driverOpen()` (R375): the call is made and one answer is used up. -/
def driverOpen (s : State) : State :=
  { s with
    draws := s.draws.tail
    drawNo := if s.draws.isEmpty then s.drawNo + 1 else s.drawNo
    calls := s.calls ++ [.driverOpen] }

/-- `driverClose()` (R375). -/
def driverClose (s : State) : State := { s with calls := s.calls ++ [.driverClose] }

/-- `generate(sr)` (R180): every table is written for the rate `sr`, and G.BANK_SR records it, of which BANK is a function
(log entry 3). Nothing else is written. -/
def generate (sr : F32) (s : State) : State := { s with bankSr := sr }

/-- A successful open (R331): ok, and the rate within SR_MIN .. SR_MAX; any other rate counts as a failed open. -/
def openOk (P : Params) (d : Draw) : Bool := d.ok && fle P.srMin d.sr && fle d.sr P.srMax

/-- The write points of a START whose open succeeded with rate `sr` (R331): generation first, if the rate differs from
G.BANK_SR (R188), so that no tick reads BANK while it changes. -/
def openOps (bankSr sr : F32) : List WriteOp :=
  (if feq sr bankSr then [] else [.generateBank sr]) ++
    [.writeSr sr, .startStream, .respond (statusWord .start false true)]

/-- START (R331). On an open stream nothing is negotiated. -/
def start (s : State) : State :=
  if s.stream.opened then issue [.startStream, .respond (statusWord .start false true)] s
  else if openOk s.cfg (nextDraw s) then issue (openOps s.bankSr (nextDraw s).sr) (driverOpen s)
  else issue [.respond (statusWord .start false false)] (driverOpen s)

/-- STOP (R332): PLAYING is cleared; OPEN and everything else stay. -/
def stop (s : State) : State := { s with stream := { s.stream with playing := false } }

/-- CLOSE (R333): one write of G.STREAM (R105), then the driver's stream is released. -/
def close (s : State) : State :=
  driverClose { s with stream := { opened := false, playing := false } }

/-- The meaning of START. -/
def execStart (s : State) : Host.Outcome State Fault Refusal := .next (start s)

/-- The meaning of STOP. -/
def execStop (s : State) : Host.Outcome State Fault Refusal := .next (stop s)

/-- The meaning of CLOSE. -/
def execClose (s : State) : Host.Outcome State Fault Refusal := .next (close s)

end Sys2Proof.Machine
end

