-- ==== Sys2Proof/Machine/Dispatch.lean ====
section
/-! DEFINITION. `exec`: one arm per constructor of `Instr` (R154's execute). -/

namespace Sys2Proof.Machine

def exec (i : Instr) (s : State) : Host.Outcome State Fault Refusal :=
  match i with
  | .start => Sys2Proof.Machine.execStart s
  | .stop => Sys2Proof.Machine.execStop s
  | .close => Sys2Proof.Machine.execClose s
  | .setWaveform id => Sys2Proof.Machine.execSetWaveform id s
  | .setFilterCutoff c hz => Sys2Proof.Machine.execSetFilterCutoff c hz s
  | .setEnvelope c atk dec sus rel => Sys2Proof.Machine.execSetEnvelope c atk dec sus rel s
  | .loadWavetable addr len => Sys2Proof.Machine.execLoadWavetable addr len s
  | .registerSample root lo hi addr len naddr nlen => Sys2Proof.Machine.execRegisterSample root lo hi addr len naddr nlen s
  | .unregisterSample index => Sys2Proof.Machine.execUnregisterSample index s
  | .listSampleNames => Sys2Proof.Machine.execListSampleNames s
  | .noteOff c _ => Sys2Proof.Machine.execNoteOff c s
  | .noteOn c note vel => Sys2Proof.Machine.execNoteOn c note vel s
  | .controlChange c cc value => Sys2Proof.Machine.execControlChange c cc value s
  | .channelPressure c value => Sys2Proof.Machine.execChannelPressure c value s
  | .pitchBend c value => Sys2Proof.Machine.execPitchBend c value s

end Sys2Proof.Machine
end

