-- ==== Sys2Proof/Machine/Render.lean ====
section
/-! DEFINITION. The tick (43_render.md): one output sample from one state. -/

namespace Sys2Proof.Machine

/-- The tick snapshot of the shared registers and handles (R106, R241), with the rate the bank was generated for; the
channel registers are read from the lane. -/
structure Snapshot where
  sr : F32
  bankSr : F32
  sel : Wave
  cust : Custom
  regs : List Region
deriving DecidableEq, Repr

/-- The snapshot a tick takes (R106). -/
def snapshotOf (s : State) : Snapshot :=
  { sr := s.sr, bankSr := s.bankSr, sel := s.wave, cust := s.custom, regs := s.regions }

/-- Step 1 (R243): the bent frequency. -/
def bentFreq (c : Channel) (v : Voice) : F32 := fmul v.baseFreq c.bend

/-- `p - toF32(floor(p))` (R243): the wrap into [0, 1). -/
def wrapPhase (p : F32) : F32 := fsub p (ofInt (ffloor p))

/-- Step 1 (R243): the new phase. -/
def advancePhase (sr : F32) (c : Channel) (v : Voice) : F32 :=
  wrapPhase (fadd v.phase (fdiv (bentFreq c v) sr))

/-- "The custom wavetable is active" (R244). -/
def customActive (g : Snapshot) : Bool := decide (g.sel = .custom) && g.cust.valid

/-- Step 2 (R245): the table the voice reads. -/
def sourceTable (L : Lib) (P : Params) (g : Snapshot) (note : Key) (freq : F32) : Table :=
  if customActive g then g.cust.table
  else
    match firstRegion g.regs note with
    | some r => bandTable r (bandIndex L freq r.rootFreq)
    | none => L.bank P g.bankSr g.sel.kind note

/-- Step 3 (R247): the coarse amplitude follower. -/
def followAmp (L : Lib) (P : Params) (sr : F32) (v : Voice) : F32 :=
  let tau := if flt v.amp v.target then P.ampTauRiseMs else P.ampTauFallMs
  fadd v.amp (fmul (tcoef L P tau sr) (fsub v.target v.amp))

/-- Step 5 (R250, R251): the level before the clamp. -/
def rawLevel (L : Lib) (P : Params) (sr : F32) (c : Channel) (v : Voice) : F32 :=
  match v.stage with
  | .attack => fadd v.level (fmul (tcoef L P c.atk sr) (fsub f1 v.level))
  | .decay => fadd v.level (fmul (tcoef L P c.dec sr) (fsub c.sus v.level))
  | .sustain => c.sus
  | .release => fadd v.level (fmul (tcoef L P c.rel sr) (fsub f0 v.level))
  | .idle => v.level

/-- Step 5 (R251): level and stage. -/
def stepEnvelope (L : Lib) (P : Params) (sr : F32) (c : Channel) (v : Voice) : Voice :=
  let level := fclamp (rawLevel L P sr c v) f0 f1
  { v with level := level, stage := nextStage P v.stage level c.sus }

/-- Step 7 (R254): the filter's input. -/
def gained (c : Channel) (v : Voice) (s : F32) : F32 :=
  fmul (fmul (fmul s v.amp) v.level) (fadd fHalf (fmul fHalf c.at_))

/-- Step 8 (R255): the cutoff smoothed, its floor applied in the formula only, the integrator updated. -/
def stepFilter (L : Lib) (P : Params) (sr : F32) (c : Channel) (x : F32) (v : Voice) : Voice :=
  let fcut := fadd v.fcut (fmul P.cutoffK (fsub c.cutoff v.fcut))
  let alpha := onePoleCoef L (fmax fcut P.cutoffFloorHz) sr
  { v with fcut := fcut, fstate := fadd v.fstate (fmul alpha (fsub x v.fstate)) }

/-- `voiceStep` (R243 to R256): the voice after steps 1 to 8, and its contribution, none where a check extinguished it.
Check A comes before check B (R253). -/
def voiceStep (L : Lib) (P : Params) (g : Snapshot) (c : Channel) (v : Voice) : Voice × Option F32 :=
  let freq := bentFreq c v
  let p := advancePhase g.sr c v
  let s := lerp (tableAt (sourceTable L P g v.note freq)) p
  let v3 := { v with phase := p, amp := followAmp L P g.sr v }
  if extinguishA P v3 then (retireA v3, none)
  else
    let v5 := stepEnvelope L P g.sr c v3
    if extinguishB P v5 then (retireB v5, none)
    else
      let v8 := stepFilter L P g.sr c (gained c v5 s) v5
      (v8, some v8.fstate)

/-- One lane of the voice loop (R242): an inactive voice keeps every field and contributes nothing. -/
def laneStep (L : Lib) (P : Params) (g : Snapshot) (l : Lane) : Lane × Option F32 :=
  if l.voice.active then
    let r := voiceStep L P g l.chan l.voice
    ({ l with voice := r.1 }, r.2)
  else (l, none)

/-- The output sample (R242, R256): the contributions added in ascending voice index from +0.0; no clip, no gain. -/
def mix (contributions : List (Option F32)) : F32 := (contributions.filterMap id).foldl fadd f0

/-- Whether a tick renders (R240): PLAYING is set and the driver reports playback. -/
def renders (s : State) (drvPlaying : Bool) : Bool := s.stream.playing && drvPlaying

/-- The lanes and the output sample of one tick (R240, R242); silence reads and writes nothing. -/
def tickResult (L : Lib) (s : State) (drvPlaying : Bool) : List Lane × F32 :=
  if renders s drvPlaying then
    let rs := s.lanes.map (laneStep L s.cfg (snapshotOf s))
    (rs.map (·.1), mix (rs.map (·.2)))
  else (s.lanes, f0)

/-- The render engine's step (R379): one whole tick, its sample delivered to the driver (R375). -/
def tickWith (L : Lib) (drvPlaying : Bool) (s : State) : State :=
  let r := tickResult L s drvPlaying
  { s with lanes := r.1, outs := s.outs ++ [r.2] }

/-- The tick of the machine's own library. -/
def tick (drvPlaying : Bool) (s : State) : State := tickWith lib drvPlaying s

end Sys2Proof.Machine
end

