-- ==== Sys2Proof/Machine/Agents.lean ====
section
/-! DEFINITION. The agents' steps (R16, R154, R379): the command processor (collecting words, running a command, performing
its write points) and the host. The render engine's step is `tick` (Render.lean). -/

namespace Sys2Proof.Machine

/-! ## Write points -/

/-- LOAD_WAVETABLE write 1 (R334): the loader's result is published, the fallback too; the selector write and the
response are left. -/
def publishCustom (addr len : Nat) (taken : List Host.Cell) (s : State) : State :=
  let r := load s.cfg (takenRead taken s.payload) addr len
  { s with
    custom := { valid := true, table := r.1 }
    work := .selectCustom :: .respond (statusWord .loadWavetable false r.2) :: s.work }

/-- REGISTER_SAMPLE's publish (R336, R108): the new record at the end of the list, built with the current G.SR (R203);
the response is left. -/
def publishRegion (L : Lib) (root lo hi : Key) (addr len naddr nlen : Nat) (takenAudio takenName : List Host.Cell)
    (s : State) : State :=
  let r := load s.cfg (takenRead takenAudio s.payload) addr len
  { s with
    regions := s.regions ++
      [buildRegion L s.cfg s.sr root lo hi r.1 (takenRead takenName s.payload) naddr nlen]
    work := .respond (statusWord .registerSample true r.2) :: s.work }

/-- One write point's effect (R105). A respond is performed where RESPQ has room; `workStep` holds it where it is full. -/
def applyOp (L : Lib) (op : WriteOp) (s : State) : State :=
  match op with
  | .writeAtk c v => s.setChan c { s.chan c with atk := v }
  | .writeDec c v => s.setChan c { s.chan c with dec := v }
  | .writeSus c v => s.setChan c { s.chan c with sus := clampSustain v }
  | .writeRel c v => s.setChan c { s.chan c with rel := v }
  | .generateBank sr => generate sr s
  | .writeSr sr => { s with sr := sr }
  | .startStream => { s with stream := { opened := true, playing := true } }
  | .publishCustom addr len taken => publishCustom addr len taken s
  | .selectCustom => { s with wave := .custom }
  | .publishRegion root lo hi addr len naddr nlen ta tn => publishRegion L root lo hi addr len naddr nlen ta tn s
  | .respond w => pushResp s w

/-- Whether a write point cannot be performed now (R150): a respond to a full RESPQ. -/
def holds (op : WriteOp) (s : State) : Bool :=
  match op with
  | .respond _ => !respRoom s
  | .writeAtk _ _ => false
  | .writeDec _ _ => false
  | .writeSus _ _ => false
  | .writeRel _ _ => false
  | .generateBank _ => false
  | .writeSr _ => false
  | .startStream => false
  | .publishCustom _ _ _ => false
  | .selectCustom => false
  | .publishRegion _ _ _ _ _ _ _ _ _ => false

/-- The next write point of the command being executed; nothing changes while it holds (R150). -/
def workStep (L : Lib) (s : State) : State :=
  match s.work with
  | [] => s
  | op :: rest => if holds op s then s else applyOp L op { s with work := rest }

/-- n write points in a row, nothing of another agent between them. -/
def runWork (L : Lib) : Nat → State → State
  | 0, s => s
  | n + 1, s => runWork L n (workStep L s)

/-- `G.DEC <- IDLE` when the command's execution is complete (R154). -/
def retire (s : State) : State := if s.work.isEmpty then { s with dec := .idle } else s

/-- `retire` after a meaning. -/
def retireNext (o : Host.Outcome State Fault Refusal) : Host.Outcome State Fault Refusal :=
  match o with
  | .next s => .next (retire s)
  | .fault f => .fault f
  | .refused r => .refused r

/-! ## The command processor -/

/-- What the decoder does with a word taken from CMDQ (R154): the next decoder state, and the instruction to execute when
the word completes one. A word with an unassigned opcode is consumed alone (R147). -/
def acceptWord (d : Dec) (w : Word) : Dec × Option Instr :=
  match d with
  | .idle =>
    match opcodeOf w with
    | none => (.idle, none)
    | some op => if op.nargs = 0 then (.idle, some (assemble op [w])) else (.collecting op [w], none)
  | .collecting op ws =>
    let ws' := ws ++ [w]
    if ws'.length = 1 + op.nargs then (.collecting op ws', some (assemble op ws')) else (.collecting op ws', none)

/-- One step of the command processor (R154, R379): the next write point of the command being executed; otherwise the
next word of CMDQ; otherwise nothing. -/
def processorStep (s : State) : Host.Outcome State Fault Refusal :=
  match s.work with
  | _ :: _ => .next (retire (workStep lib s))
  | [] =>
    match s.cmdq with
    | [] => .next s
    | w :: q =>
      match acceptWord s.dec w with
      | (d, none) => .next { s with cmdq := q, dec := d }
      | (d, some i) => retireNext (exec i { s with cmdq := q, dec := d })

/-! ## The host -/

/-- A host store while a command reads the payload (R111): a byte the command has already read stays as it was read. -/
def takeBefore (s : State) (a : Nat) (audioTaken nameTaken : Bool) : List WriteOp → List WriteOp
  | .publishCustom addr len taken :: rest =>
      .publishCustom addr len (if audioTaken then takeByte taken a (memRead s.payload a) else taken) :: rest
  | .publishRegion root lo hi addr len naddr nlen ta tn :: rest =>
      .publishRegion root lo hi addr len naddr nlen
        (if audioTaken then takeByte ta a (memRead s.payload a) else ta)
        (if nameTaken then takeByte tn a (memRead s.payload a) else tn) :: rest
  | ops => ops

/-- One step of the host (R40, R372, R379): its next act, or nothing while that act must wait. -/
def hostStep (s : State) : State :=
  match s.host with
  | [] => s
  | .push w :: rest =>
    if s.cmdq.length < s.cfg.cmdDepth then { s with cmdq := s.cmdq ++ [w], host := rest } else s
  | .pop :: rest =>
    match s.respq with
    | [] => s
    | w :: q => { s with respq := q, popped := s.popped ++ [w], host := rest }
  | .store a b audioTaken nameTaken :: rest =>
    payloadStore { s with work := takeBefore s a audioTaken nameTaken s.work, host := rest } a b

/-- A step of the agent whose turn it is (R379). -/
def agentStep (t : Turn) (s : State) : Host.Outcome State Fault Refusal :=
  match t with
  | .processor => processorStep s
  | .tick drvPlaying => .next (tick drvPlaying s)
  | .host => .next (hostStep s)

end Sys2Proof.Machine
end

