-- ==== Sys2Proof/Machine/Step.lean ====
section
/-! DEFINITION. `step`: one step of one agent (R379), and where a command's words stand when the next step completes it. -/

namespace Sys2Proof.Machine

/-- One step of the machine: the agent that `turns` names moves; the command processor where it names none. -/
def step (s : State) : Host.Outcome State Fault Refusal :=
  match s.turns with
  | [] => processorStep s
  | t :: ts => agentStep t { s with turns := ts }

/-- `s` with the command whose bits are `w` about to complete: the processor moves next, no command is being executed, the
decoder holds every word of it but the last, and the last stands first in CMDQ (R39, R154). -/
def State.withFetchWord (s : State) (nbits w : Nat) : State :=
  let ws := tableWords nbits w
  let n := match opcodeOf (argWord ws 0) with
    | some op => op.nargs
    | none => 0
  let d := match opcodeOf (argWord ws 0) with
    | some op => if op.nargs = 0 then Dec.idle else Dec.collecting op (ws.take op.nargs)
    | none => Dec.idle
  { s with work := [], dec := d, cmdq := argWord ws n :: s.cmdq, turns := .processor :: s.turns }

end Sys2Proof.Machine
end

