-- ==== Sys2Proof/Safety.lean ====
section
/-! DEFINITION. The terms claims are made in: admissible parameters (R8), legal states and states in range (R53), what it
means to change only one lane, and reference readings of rounding and of a table's peak. -/

namespace Sys2Proof.Machine

/-! ## Parameters -/

/-- A finite value above 0.0. -/
def positiveFinite (x : F32) : Bool := isFinite x && flt f0 x

/-- A value in [0.0, 1.0]. -/
def inUnit (x : F32) : Bool := fle f0 x && fle x f1

/-- A rate in SR_MIN .. SR_MAX (R331). -/
def rateOk (P : Params) (sr : F32) : Bool := fle P.srMin sr && fle sr P.srMax

/-- The admissible parameters. From the spec: N at most 256 (R290), FIFO depths at least 1, PAYLOAD_BYTES in 1 .. 2^32 (R8),
R_MAX at most 65535 (R340), GEN_TOL at most 1e-4 (R189), DEFAULT_SR within SR_MIN .. SR_MAX. Every other bound is the
model's own choice, since R8 gives defaults only (DESIGN CHOICE, log entry 28): N and NAME_MAX at least 1; every float finite;
HEADROOM above 0.0 and at most 1.0; both taus, CUTOFF_FLOOR_HZ, ENV_MIN_MS, BAND_EPS and CUTOFF_ABS_MAX above 0.0, the last at
most 2^100; AMP_EPS not below 0.0; CUTOFF_K in [0.0, 1.0]; PEAK_FLOOR above 0.0 and at most 0.5; DEFAULT_CUTOFF_HZ within
CUTOFF_ABS_MAX; SR_MIN at least 2^-16; GEN_TOL at least 2^-24. -/
def paramsOk (P : Params) : Bool :=
  decide (1 ≤ P.numChannels) && decide (P.numChannels ≤ 256) && decide (1 ≤ P.cmdDepth) && decide (1 ≤ P.respDepth) &&
  decide (1 ≤ P.payloadBytes) && decide (P.payloadBytes ≤ 4294967296) && decide (P.rMax ≤ 65535) &&
  decide (1 ≤ P.nameMax) &&
  positiveFinite P.headroom && fle P.headroom f1 && positiveFinite P.ampTauRiseMs && positiveFinite P.ampTauFallMs &&
  isFinite P.ampEps && fle f0 P.ampEps && inUnit P.cutoffK && positiveFinite P.cutoffFloorHz &&
  positiveFinite P.envMinMs && isFinite P.attackDone && isFinite P.decayWindow && isFinite P.releaseEps &&
  positiveFinite P.peakFloor && fle P.peakFloor fHalf && positiveFinite P.bandEps &&
  positiveFinite P.cutoffAbsMax && fle P.cutoffAbsMax 0x71800000#32 && cutoffOk P P.defaultCutoffHz &&
  fle 0x37800000#32 P.srMin && isFinite P.srMax && rateOk P P.defaultSr &&
  fle 0x33800000#32 P.genTol && fle P.genTol 0x38D1B717#32

/-! ## Legal states -/

/-- R53 items 4 and 9: a voice is inactive exactly when its stage is Idle. -/
def stageLegal (v : Voice) : Bool := decide (v.active = false ↔ v.stage = .idle)

/-- R53 item 5: PLAYING implies OPEN. -/
def streamLegal (st : Stream) : Bool := !st.playing || st.opened

/-- The write points that will still append a region. -/
def pendingRegions : List WriteOp → Nat
  | [] => 0
  | .publishRegion _ _ _ _ _ _ _ _ _ :: rest => pendingRegions rest + 1
  | _ :: rest => pendingRegions rest

/-- G.DEC holds the head of one command (R39, R154): its opcode's word 0 and argument words, at most `nargs` words in all
while it is being collected, all of them while it is being executed. -/
def decLegal (d : Dec) (work : List WriteOp) : Bool :=
  match d with
  | .idle => true
  | .collecting op ws =>
    decide (opcodeOf (argWord ws 0) = some op) && decide (1 ≤ ws.length) &&
      (if work.isEmpty then decide (ws.length ≤ op.nargs) else decide (ws.length = op.nargs + 1))

/-- The legal states: R53 items 4, 5, 6 and 9, the FIFO capacities (R40), N channels and N voices (R41, R50), names of at
most NAME_MAX bytes (R200), the decoder's framing (R154) and the canonical form of the payload memory (R110). -/
structure Legal (s : State) : Prop where
  lanes : s.lanes.length = s.cfg.numChannels
  stages : ∀ l ∈ s.lanes, stageLegal l.voice = true
  stream : streamLegal s.stream = true
  regions : s.regions.length + pendingRegions s.work ≤ s.cfg.rMax
  names : ∀ r ∈ s.regions, r.name.length ≤ s.cfg.nameMax
  cmdq : s.cmdq.length ≤ s.cfg.cmdDepth
  respq : s.respq.length ≤ s.cfg.respDepth
  dec : decLegal s.dec s.work = true
  canonical : Memory.wf s.payload = true
  below : memBelow s.cfg.payloadBytes s.payload = true

/-- The envelope parameters of a channel: finite times, sustain in [0.0, 1.0] (R41, R53 item 8). -/
def envelopeLegal (c : Channel) : Bool := isFinite c.atk && isFinite c.dec && isFinite c.rel && inUnit c.sus

/-- The values a write point will write are ones its command's checks admit (R306, R331). -/
def opLegal (P : Params) (op : WriteOp) : Bool :=
  match op with
  | .writeAtk _ v => isFinite v
  | .writeDec _ v => isFinite v
  | .writeSus _ v => isFinite v
  | .writeRel _ v => isFinite v
  | .generateBank sr => rateOk P sr
  | .writeSr sr => rateOk P sr
  | _ => true

/-- The states in which the envelope is in range: R53 items 1 and 8, with what they rest on. -/
structure EnvelopeInRange (s : State) : Prop where
  params : paramsOk s.cfg = true
  rate : rateOk s.cfg s.sr = true
  levels : ∀ l ∈ s.lanes, inUnit l.voice.level = true ∧ envelopeLegal l.chan = true
  work : ∀ op ∈ s.work, opLegal s.cfg op = true

/-! ## Registers in range -/

/-- The binary32 value after a positive finite one. -/
def nextUp (x : F32) : F32 := x + 1#32

/-- The values of a voice that NOTE_ON's operands, the follower, the envelope and the cutoff tracker give (R50, R53 items 1, 3
and 10): AMP from 0.0 to `top`, TARGET in [0.0, HEADROOM], LEVEL in [0.0, 1.0], FCUT within twice CUTOFF_ABS_MAX (the model's
own bound: it stands for "finite"). -/
def voiceInRange (P : Params) (top : F32) (v : Voice) : Bool :=
  fle f0 v.amp && fle v.amp top && fle f0 v.target && fle v.target P.headroom && inUnit v.level &&
  fle (fabs v.fcut) (fmul f2 P.cutoffAbsMax)

/-- The values of a channel register set but for BEND (R41 to R47, R53 items 8 and 10). -/
def channelInRange (P : Params) (c : Channel) : Bool :=
  inUnit c.at_ && inUnit c.bright && cutoffOk P c.cutoff && envelopeLegal c

/-- The states whose registers are in range, AMP up to `top`: R53 items 1, 3, 8 and 10, with what they rest on. -/
structure RegistersInRange (top : F32) (s : State) : Prop where
  params : paramsOk s.cfg = true
  rate : rateOk s.cfg s.sr = true
  voices : ∀ l ∈ s.lanes, voiceInRange s.cfg top l.voice = true
  channels : ∀ l ∈ s.lanes, channelInRange s.cfg l.chan = true
  work : ∀ op ∈ s.work, opLegal s.cfg op = true

/-! ## Phases, tables and filter states in range -/

/-- R53 item 2. -/
def phaseInRange (v : Voice) : Bool := fle f0 v.phase && flt v.phase f1

/-- `freq / sr` of step 1 is finite and not negative, as R243 says it is ("freq is always > 0"). R13 leaves it to fexp2 (log
entry 21). -/
def incrementOk (sr : F32) (l : Lane) : Bool :=
  let d := fdiv (fmul l.voice.baseFreq l.chan.bend) sr
  fle f0 d && isFinite d

/-- Every value of a table has a magnitude of at most 2.0. -/
def tableInRange (t : Table) : Prop := ∀ i, i < 2048 → fle (fabs (tableAt t i)) f2 = true

/-- The states whose registers, phases, published tables and filter states are in range: R53 items 1, 2, 3, 8 and 10 but for
BASEFREQ and BEND. The bounds 2.0 of a table and 32.0 of FSTATE are the model's own, and stand for "finite". -/
structure SoundInRange (s : State) : Prop where
  registers : RegistersInRange (nextUp s.cfg.headroom) s
  phases : ∀ l ∈ s.lanes, phaseInRange l.voice = true
  filters : ∀ l ∈ s.lanes, fle (fabs l.voice.fstate) 0x42000000#32 = true
  custom : tableInRange s.custom.table
  bands : ∀ r ∈ s.regions, ∀ b, b ≤ 10 → tableInRange (bandTable r b)

/-- The downmix and the resampling of a buffer overflow nowhere: every `r[j]` of R228 is finite. A buffer that does not parse is
replaced by FALLBACK, and has none. -/
def resampledFinite (view : Nat → Byte) (addr len : Nat) : Prop :=
  ∀ fr, parseWave (fun p => view (addr + p)) len = some fr →
    ∀ j, j < 2048 → isFinite (resampleAt (monoAt (fun p => view (addr + p)) fr) fr.count j) = true

/-- PCM16 samples, or float32 samples of a magnitude of at most 2^100 (the model's own bound, log entry 8). -/
def samplesTame (view : Nat → Byte) (addr len : Nat) : Prop :=
  ∀ fr, parseWave (fun p => view (addr + p)) len = some fr → fr.codec = .float32 →
    ∀ k, k < fr.count * fr.channels →
      fle (fabs (sampleAt (fun p => view (addr + p)) .float32 (fr.body + 4 * k))) 0x71800000#32 = true

/-- What the next write point publishes, if it publishes a table: made of audio whose resampling is finite, and with
transposition ratios `T` (R201) that are no NaN, which R13 leaves to fexp2 (log entry 21). -/
def nextLoadFinite (s : State) : Prop :=
  match s.work with
  | .publishCustom addr len taken :: _ => resampledFinite (takenRead taken s.payload) addr len
  | .publishRegion root _ _ addr len _ _ takenAudio _ :: _ =>
    resampledFinite (takenRead takenAudio s.payload) addr len ∧ ∀ b, b ≤ 10 → isNaN (bandRatio lib root.toNat b) = false
  | _ => True

/-- No field of a voice or a channel is a NaN or an infinity (R53 item 10), but for BASEFREQ and BEND, which are values of
fexp2 (R13, R292, R300). -/
def fieldsFinite (v : Voice) (c : Channel) : Bool :=
  isFinite v.phase && isFinite v.amp && isFinite v.target && isFinite v.level && isFinite v.fstate && isFinite v.fcut &&
  isFinite c.at_ && isFinite c.bright && isFinite c.cutoff && isFinite c.atk && isFinite c.dec && isFinite c.sus &&
  isFinite c.rel

/-! ## The agent that moves -/

/-- The command processor moves: nothing is scripted, or its turn is. -/
def processorMoves (s : State) : Prop := s.turns = [] ∨ ∃ ts, s.turns = .processor :: ts

/-! ## Frames -/

/-- Only lane c may differ: every other lane and every other field of the state, every payload byte among them, is as
before. -/
def OnlyLane (c : Nat) (s t : State) : Prop :=
  t = { s with lanes := t.lanes } ∧ t.numLanes = s.numLanes ∧ (∀ d, d ≠ c → t.lane d = s.lane d) ∧
    ∀ a, memRead t.payload a = memRead s.payload a

/-- As `OnlyLane`, and of lane c only the voice may differ. -/
def OnlyVoice (c : Nat) (s t : State) : Prop := OnlyLane c s t ∧ t.chan c = s.chan c

/-- As `OnlyLane`, and of lane c only the channel registers may differ. -/
def OnlyChannel (c : Nat) (s t : State) : Prop := OnlyLane c s t ∧ t.voice c = s.voice c

/-! ## Rounding -/

/-- `r` is the binary32 nearest to the rational `q`, ties to even (R12): a finite pattern no other finite pattern is
nearer than, and of the two nearest ones, where they are equally near, the one with an even last bit. -/
def IsNearestEven (q : ℚ) (r : F32) : Prop :=
  isFinite r = true ∧ ∀ x : F32, isFinite x = true →
    |toRat r - q| ≤ |toRat x - q| ∧ (|toRat x - q| = |toRat r - q| → toRat x ≠ toRat r → r.toNat % 2 = 0)

/-- The magnitude from which round-to-nearest gives infinity: 2^128 - 2^103. -/
def overflowBound : ℚ := 2 ^ 128 - 2 ^ 103

/-! ## The stored bank -/

/-- `p` is the peak magnitude of a 2048-value table (R186). -/
def IsPeakOf (x : Nat → ℝ) (p : ℝ) : Prop := (∃ i < 2048, |x i| = p) ∧ ∀ i < 2048, |x i| ≤ p

end Sys2Proof.Machine
end

