-- ==== Sys2Proof/Certificates/Slice0/Obligations.lean ====
section
/-! DEFINITION. The statements for the provers. A statement about the result of a command whose execution takes several
write points (R105) says what `exec` answers and what running the write points, nothing of another agent between them,
leaves (`runWork`). -/

open Sys2Proof Sys2Proof.Machine

/-! ## Encoding and decoding (30_encoding.md) -/

/-- R140 to R146: decoding what the encoder writes gives the instruction back, every operand at every value its field
holds, and leaves the words after it. -/
def Obligations.DecodeOfEncodeIsTheInstruction : Prop :=
  ∀ (i : Instr) (rest : List Word), i.wellFormed = true → decode (encode i ++ rest) = .ok (i, rest)

/-- R140, R142, R155: what the decoder reads is well formed, has the length its opcode gives, and is what its own
encoding decodes to. -/
def Obligations.DecodedCommandsAreWellFormedAndReencode : Prop :=
  ∀ (ws rest : List Word) (i : Instr), decode ws = .ok (i, rest) →
    i.wellFormed = true ∧ decode (encode i) = .ok (i, []) ∧ (encode i).length = 1 + i.opcode.nargs ∧
      rest = ws.drop (encode i).length ∧ ws.length = (encode i).length + rest.length

/-- R145, R147: exactly the 15 opcodes of the map are assigned; 241 are not. -/
def Obligations.ExactlyTheMappedOpcodesAreAssigned : Prop :=
  (∀ (w : Word) (args : List Word), decode (w :: args) = .error (.unassigned (fieldOP w)) ↔
    fieldOP w ∉ [0x10, 0x11, 0x12, 0x20, 0x21, 0x22, 0x30, 0x31, 0x32, 0x33, 0x80, 0x90, 0xB0, 0xD0, 0xE0]) ∧
  ((List.range 256).filter fun n => (Opcode.ofCode n).isNone).length = 241

/-- R142, R149: ignored bits make no difference, the encoder writes 0 in them, and NOTE_OFF does not look at its note. Of the
fields R149 calls ignored, NOTE_OFF's A is kept as an operand and encoded, since R156 writes the note there: the model's
choice, log entry 25. -/
def Obligations.IgnoredBitsMakeNoDifference : Prop :=
  (∀ (w : Word) (args : List Word) (op : Opcode), opcodeOf w = some op →
    decode (w :: args) = decode ((w &&& op.usedBits) :: args)) ∧
  (∀ i : Instr, i.wellFormed = true → argWord (encode i) 0 &&& ~~~ i.opcode.usedBits = 0#32) ∧
  (∀ (c n n' : Nat) (s : State), exec (.noteOff c n) s = exec (.noteOff c n') s)

/-- R156, R309: words written out from the spec's encodings decode to the commands they stand for. -/
def Obligations.WordsDecodeAsTheSpecWritesThem : Prop :=
  decode [0x9000457F#32] = .ok (.noteOn 0 69 127, []) ∧
  decode [0x80FF0000#32] = .ok (.noteOff 255 0, []) ∧
  decode [0xE0003FFF#32] = .ok (.pitchBend 0 16383, []) ∧
  decode [0xD000FF40#32] = .ok (.channelPressure 0 64, []) ∧
  decode [0xB0024A7F#32] = .ok (.controlChange 2 74 127, []) ∧
  decode [0x20FFFF04#32] = .ok (.setWaveform 4, []) ∧
  decode [0x21000000#32, 0x447A0000#32] = .ok (.setFilterCutoff 0 0x447A0000#32, []) ∧
  decode [0x30000000#32, 0x00000000#32, 0x00000030#32] = .ok (.loadWavetable 0 48, []) ∧
  decode [0x313C3048#32, 0#32, 48#32, 64#32, 4#32] = .ok (.registerSample 60 48 72 0 48 64 4, []) ∧
  decode [0x32000005#32] = .ok (.unregisterSample 5, []) ∧
  decode [0x10ABCDEF#32] = .ok (.start, [])

/-! ## The step (R154, R379) -/

/-- R154: when the word at the head of CMDQ completes a command that decodes to i, the step is exec of i at the state
with the word taken, followed by G.DEC's return to IDLE once nothing is left to write. That the processor moves where
no agent is scripted is the model's choice (log entry 4). -/
def Obligations.StepRunsTheDecodedCommand : Prop :=
  ∀ (s : State) (w : Word) (q : List Word) (i : Instr), processorMoves s → s.work = [] → s.cmdq = w :: q →
    (s.dec = .idle → decode [w] = .ok (i, []) →
      step s = retireNext (exec i { s with turns := s.turns.tail, cmdq := q })) ∧
    (∀ (op : Opcode) (ws : List Word), s.dec = .collecting op ws → ws ≠ [] → opcodeOf (argWord ws 0) = some op →
      decode (ws ++ [w]) = .ok (i, []) →
      step s = retireNext (exec i { s with turns := s.turns.tail, cmdq := q, dec := .collecting op (ws ++ [w]) }))

/-- R147, R148, R154: an unassigned word is consumed alone; a word that does not complete its command is collected,
whatever its bits; an idle processor does nothing. -/
def Obligations.DecoderCollectsAndConsumesWords : Prop :=
  ∀ (s : State), processorMoves s → s.work = [] →
    (s.cmdq = [] → step s = .next { s with turns := s.turns.tail }) ∧
    (∀ (w : Word) (q : List Word), s.cmdq = w :: q →
      (s.dec = .idle → opcodeOf w = none → step s = .next { s with turns := s.turns.tail, cmdq := q }) ∧
      (∀ op : Opcode, s.dec = .idle → opcodeOf w = some op → op.nargs ≠ 0 →
        step s = .next { s with turns := s.turns.tail, cmdq := q, dec := .collecting op [w] }) ∧
      (∀ (op : Opcode) (ws : List Word), s.dec = .collecting op ws → ws.length < op.nargs →
        step s = .next { s with turns := s.turns.tail, cmdq := q, dec := .collecting op (ws ++ [w]) }))

/-- R370, R383: every step of every state answers a next state. -/
def Obligations.EveryStepAnswersANextState : Prop :=
  ∀ s : State, ∃ t, step s = .next t

/-- R105, R154: while a command has write points left, the processor performs exactly the next one, takes no word, and
is done with the command when none is left. The list of write points is the model's (log entry 12). -/
def Obligations.ProcessorPerformsOneWritePointAStep : Prop :=
  ∀ (s : State) (op : WriteOp) (rest : List WriteOp), processorMoves s → s.work = op :: rest → holds op s = false →
    ∃ t, step s = .next t ∧ t.cmdq = s.cmdq ∧
      (t.work = [] → t.dec = .idle) ∧ (t.work ≠ [] → t.dec = s.dec) ∧
      t = { applyOp lib op { s with work := rest, turns := s.turns.tail } with dec := t.dec }

/-- R40: CMDQ and RESPQ are first-in first-out; a push to a full CMDQ holds the host, a respond to a full RESPQ holds
the command processor, and both queues are empty at reset. That a pop waits on an empty RESPQ is log entry 13. -/
def Obligations.FullQueuesHold : Prop :=
  (∀ (s : State) (w : Word) (ts : List Turn) (rest : List HostAct), s.turns = .host :: ts → s.host = .push w :: rest →
    (s.cmdq.length < s.cfg.cmdDepth →
      step s = .next { s with turns := ts, host := rest, cmdq := s.cmdq ++ [w] }) ∧
    (s.cfg.cmdDepth ≤ s.cmdq.length → step s = .next { s with turns := ts })) ∧
  (∀ (s : State) (w : Word) (q : List Word) (ts : List Turn) (rest : List HostAct), s.turns = .host :: ts →
    s.host = .pop :: rest →
    (s.respq = w :: q → step s = .next { s with turns := ts, host := rest, respq := q, popped := s.popped ++ [w] }) ∧
    (s.respq = [] → step s = .next { s with turns := ts })) ∧
  (∀ (s : State) (w : Word) (rest : List WriteOp), processorMoves s → s.work = .respond w :: rest →
    (s.cfg.respDepth ≤ s.respq.length → step s = .next { s with turns := s.turns.tail }) ∧
    (s.respq.length < s.cfg.respDepth →
      ∃ t, step s = .next t ∧ t.respq = s.respq ++ [w] ∧ t.work = rest)) ∧
  (State.reset.cmdq = [] ∧ State.reset.respq = [])

/-! ## Invariants (R53) -/

/-- R53 items 4, 5, 6 and 9 ("Invariants that every rule preserves", the spec's own inference), R40, R41, R154, R110
(the canonical form is log entry 9): every step from a legal state gives a legal state. -/
def Obligations.EveryStepKeepsTheStateLegal : Prop :=
  ∀ s t : State, Legal s → step s = .next t → Legal t

/-- R390: the state after reset meets every invariant stated here: it is legal whatever the parameters, and for admissible
parameters (the defaults are) its envelopes, registers, phases, tables and filter states are in range. -/
def Obligations.ResetMeetsEveryInvariant : Prop :=
  Legal State.reset ∧ (∀ P : Params, Legal (State.resetWith P)) ∧ paramsOk Params.default = true ∧
  ∀ P : Params, paramsOk P = true →
    EnvelopeInRange (State.resetWith P) ∧ RegistersInRange P.headroom (State.resetWith P) ∧ SoundInRange (State.resetWith P)

/-- R53 items 1 and 8 (the spec's own inference): every step keeps every envelope level and every sustain level in
[0.0, 1.0]. -/
def Obligations.EveryStepKeepsTheEnvelopeInRange : Prop :=
  ∀ s t : State, EnvelopeInRange s → step s = .next t → EnvelopeInRange t

/-- R53 items 1, 3, 8 and 10 (the spec's own inference): every step keeps LEVEL and SUS in [0.0, 1.0], TARGET in [0.0,
HEADROOM], AMP from 0.0 to the value after HEADROOM, and FCUT, AT, BRIGHT, CUTOFF and the envelope times finite; every step
but a tick keeps AMP at most HEADROOM, and so does a tick whose follower coefficients are below 1.0. That R247's own rounding
passes HEADROOM at a coefficient of exactly 1.0, which R13 admits, is log entry 21. And a step writes BASEFREQ only by R9 and
BEND only by R300. -/
def Obligations.EveryStepKeepsTheRegistersInRange : Prop :=
  (∀ s t : State, RegistersInRange (nextUp s.cfg.headroom) s → step s = .next t →
    RegistersInRange (nextUp s.cfg.headroom) t) ∧
  (∀ s t : State, RegistersInRange s.cfg.headroom s → (∀ d ts, s.turns ≠ .tick d :: ts) → step s = .next t →
    RegistersInRange s.cfg.headroom t) ∧
  (∀ (L : Lib) (s : State) (d : Bool), (∀ x, fle x f0 = true → inUnit (L.fexp x) = true) →
    RegistersInRange s.cfg.headroom s → flt (tcoef L s.cfg s.cfg.ampTauRiseMs s.sr) f1 = true →
    flt (tcoef L s.cfg s.cfg.ampTauFallMs s.sr) f1 = true → RegistersInRange s.cfg.headroom (tickWith L d s)) ∧
  (∀ s t : State, step s = .next t → ∀ c, c < s.numLanes →
    ((t.voice c).baseFreq = (s.voice c).baseFreq ∨ ∃ n : Nat, n ≤ 127 ∧ (t.voice c).baseFreq = midiToHz lib n) ∧
    ((t.chan c).bend = (s.chan c).bend ∨ ∃ value : Nat, value ≤ 16383 ∧
      (t.chan c).bend = lib.fexp2 (fdiv (fmul (fdiv (ofInt ((value : Int) - 8192)) f8192) f2) f12)))

/-- R53 items 2 and 10 (the spec's own inference): every step keeps phases in [0.0, 1.0), filter states and published tables
finite, and then no field but BASEFREQ and BEND is a NaN or an infinity. Of the state it asks what R243 says of freq and what
R13 leaves to fexp2 (log entry 21), and that the resampling of a file being loaded is finite, as it is for PCM16 samples and
for float32 samples up to 2^100: a loaded table is finite exactly where it is, since R226 to R231 neither refuse nor clamp a
sum that overflows (log entry 8). Where fexp2 lies within 2^-40 and 2^40 for arguments up to 16.0, all that is asked of
fexp2 holds. -/
def Obligations.EveryStepKeepsTheSoundInRange : Prop :=
  (∀ s t : State, SoundInRange s → (∀ l ∈ s.lanes, l.voice.active = true → incrementOk s.sr l = true) → nextLoadFinite s →
    step s = .next t → SoundInRange t) ∧
  (∀ s : State, SoundInRange s → ∀ v, v < s.numLanes → fieldsFinite (s.voice v) (s.chan v) = true) ∧
  (∀ (P : Params) (view : Nat → Byte) (addr len : Nat), positiveFinite P.peakFloor = true → addr + len ≤ P.payloadBytes →
    ((∀ j, j < 2048 → isFinite (tableAt (load P view addr len).1 j) = true) ↔ resampledFinite view addr len)) ∧
  (∀ (view : Nat → Byte) (addr len : Nat), samplesTame view addr len → resampledFinite view addr len) ∧
  (∀ (L : Lib) (P : Params) (sr : F32), paramsOk P = true → rateOk P sr = true →
    (∀ x, fle (fabs x) 0x41800000#32 = true →
      fle 0x2B800000#32 (L.fexp2 x) = true ∧ fle (L.fexp2 x) 0x53800000#32 = true) →
    (∀ (n value : Nat) (l : Lane), n ≤ 127 → value ≤ 16383 → l.voice.baseFreq = midiToHz L n →
      l.chan.bend = bendRatio L value →
      positiveFinite l.voice.baseFreq = true ∧ positiveFinite l.chan.bend = true ∧ incrementOk sr l = true) ∧
    ∀ root b : Nat, root ≤ 127 → b ≤ 10 → isNaN (bandRatio L root b) = false)

/-- R8, R41: no step changes a parameter or the number of channels and voices. -/
def Obligations.NoStepChangesParametersOrLaneCount : Prop :=
  ∀ s t : State, step s = .next t → t.cfg = s.cfg ∧ t.numLanes = s.numLanes

/-! ## Reset (R390) -/

/-- R390: the value of every piece of the block's state after reset. BANK is read through G.BANK_SR (log entry 3). -/
def Obligations.ResetGivesEveryStateItsValue : Prop :=
  let s := State.reset
  s.sr = 0x473B8000#32 ∧ s.bankSr = 0x473B8000#32 ∧ s.wave = .sine ∧
  s.custom.valid = false ∧ (∀ i, i < 2048 → tableAt s.custom.table i = 0#32) ∧
  s.regions = [] ∧ s.stream = { opened := false, playing := false } ∧ s.dec = .idle ∧ s.cmdq = [] ∧ s.respq = [] ∧
  s.numLanes = 8 ∧
  (∀ c, c < 8 → s.chan c =
    { bend := 0x3F800000#32, at_ := 0#32, bright := 0#32, cutoff := 0x469C4000#32, atk := 0x40A00000#32,
      dec := 0x42480000#32, sus := 0x3F4CCCCD#32, rel := 0x42C80000#32 }) ∧
  (∀ v, v < 8 → s.voice v =
    { note := 0, baseFreq := 0#32, phase := 0#32, amp := 0#32, target := 0#32, stage := .idle, level := 0#32,
      active := false, fstate := 0#32, fcut := 0#32 })

/-! ## Payload memory (R110, R111) -/

/-- R110: MemRead is little-endian and answers nothing beyond PAYLOAD_BYTES, the sum not wrapping; no step of the block
changes a payload byte, and a host store changes only its own. -/
def Obligations.PayloadMemoryIsLittleEndianAndReadOnly : Prop :=
  (∀ (s : State) (a n : Nat), payloadRead s a n = none ↔ s.cfg.payloadBytes < a + n) ∧
  (∀ (s : State) (a : Nat), a + 4 ≤ s.cfg.payloadBytes →
    let b := fun k => (memRead s.payload (a + k)).toNat
    payloadRead s a 1 = some (b 0) ∧ payloadRead s a 2 = some (b 0 + 256 * b 1) ∧
    payloadRead s a 4 = some (b 0 + 256 * b 1 + 65536 * b 2 + 16777216 * b 3)) ∧
  (∀ s t : State, (∀ ts, s.turns ≠ .host :: ts) → step s = .next t → t.payload = s.payload) ∧
  (∀ (s : State) (a : Nat) (b : Byte) (x y : Bool) (ts : List Turn) (rest : List HostAct),
    s.turns = .host :: ts → s.host = .store a b x y :: rest → a < s.cfg.payloadBytes → Memory.wf s.payload = true →
    ∃ t, step s = .next t ∧ memRead t.payload a = b ∧ ∀ a', a' ≠ a → memRead t.payload a' = memRead s.payload a')

/-- R111: a byte that a load has read before the host changes it stays as it was read; a byte it has not read yet is read
as the host leaves it; every other byte is read as before; and what the command publishes is made of the bytes so read: the
audio of LOAD_WAVETABLE and of REGISTER_SAMPLE, and the name. How the bytes read so far are held is log entry 14. -/
def Obligations.RacingStoresAreSeenByteByByte : Prop :=
  let sees := fun (early : Bool) (taken taken' : List Host.Cell) (m m' : Memory) (a : Nat) (b : Byte) =>
    takenRead taken' m' a = (if early = true ∨ (taken.lookup a).isSome = true then takenRead taken m a else b) ∧
    ∀ a', a' ≠ a → takenRead taken' m' a' = takenRead taken m a'
  (∀ (s : State) (addr len a : Nat) (b : Byte) (x y : Bool) (taken : List Host.Cell) (ops : List WriteOp)
      (ts : List Turn) (rest : List HostAct),
    s.work = .publishCustom addr len taken :: ops → s.turns = .host :: ts → s.host = .store a b x y :: rest →
    a < s.cfg.payloadBytes → Memory.wf s.payload = true →
    ∃ t taken', step s = .next t ∧ t.work = .publishCustom addr len taken' :: ops ∧
      sees x taken taken' s.payload t.payload a b) ∧
  (∀ (s : State) (root lo hi : Key) (addr len naddr nlen a : Nat) (b : Byte) (x y : Bool) (audio name : List Host.Cell)
      (ops : List WriteOp) (ts : List Turn) (rest : List HostAct),
    s.work = .publishRegion root lo hi addr len naddr nlen audio name :: ops → s.turns = .host :: ts →
    s.host = .store a b x y :: rest → a < s.cfg.payloadBytes → Memory.wf s.payload = true →
    ∃ t audio' name', step s = .next t ∧ t.work = .publishRegion root lo hi addr len naddr nlen audio' name' :: ops ∧
      sees x audio audio' s.payload t.payload a b ∧ sees y name name' s.payload t.payload a b) ∧
  (∀ (s : State) (addr len : Nat) (taken : List Host.Cell) (ops : List WriteOp),
    s.work = .publishCustom addr len taken :: ops →
    (workStep lib s).custom =
      { valid := true, table := (load s.cfg (takenRead taken s.payload) addr len).1 }) ∧
  (∀ (s : State) (root lo hi : Key) (addr len naddr nlen : Nat) (audio name : List Host.Cell) (ops : List WriteOp),
    s.work = .publishRegion root lo hi addr len naddr nlen audio name :: ops →
    (workStep lib s).regions = s.regions ++
      [{ root := root
         lo := lo
         hi := hi
         rootFreq := midiToHz lib root.toNat
         name := (List.range (min nlen s.cfg.nameMax)).map fun p => takenRead name s.payload (naddr + p)
         band := buildBands lib s.cfg (load s.cfg (takenRead audio s.payload) addr len).1 root.toNat s.sr }])

/-! ## Note commands (R292 to R297) -/

/-- R292, R293: NOTE_ON writes its group of voice fields, whatever the voice's stage, and leaves AMP, every channel
register, every other lane, every payload byte and all other state unchanged. -/
def Obligations.NoteOnResetsItsVoice : Prop :=
  (∀ (w : Word) (args : List Word), fieldOP w = 0x90 →
    decode (w :: args) = .ok (.noteOn (fieldCH w) (fieldA w) (fieldB w), args)) ∧
  ∀ (s : State) (c note vel : Nat),
    (c < s.numLanes → note ≤ 127 → vel ≤ 127 →
      ∃ t, exec (.noteOn c note vel) s = .next t ∧ OnlyVoice c s t ∧
        (t.voice c).note.toNat = note ∧ (t.voice c).baseFreq = midiToHz lib note ∧ (t.voice c).phase = 0#32 ∧
        (t.voice c).stage = .attack ∧ (t.voice c).level = 0#32 ∧ (t.voice c).fstate = 0#32 ∧
        (t.voice c).fcut = (s.chan c).cutoff ∧
        (t.voice c).target = fmul (fdiv (ofInt vel) f127) s.cfg.headroom ∧
        (t.voice c).active = true ∧ (t.voice c).amp = (s.voice c).amp) ∧
    (s.numLanes ≤ c ∨ 127 < note ∨ 127 < vel → exec (.noteOn c note vel) s = .next s)

/-- R296, R297: NOTE_OFF puts an active voice into Release with TARGET 0.0 and changes nothing else; it leaves an
inactive voice unchanged. -/
def Obligations.NoteOffReleasesAnActiveVoice : Prop :=
  (∀ (w : Word) (args : List Word), fieldOP w = 0x80 →
    decode (w :: args) = .ok (.noteOff (fieldCH w) (fieldA w), args)) ∧
  ∀ (s : State) (c note : Nat),
    (c < s.numLanes → (s.voice c).active = true → ∃ t, exec (.noteOff c note) s = .next t ∧ OnlyVoice c s t ∧
      t.voice c = { s.voice c with stage := .release, target := 0#32 }) ∧
    (s.numLanes ≤ c ∨ (s.voice c).active = false → exec (.noteOff c note) s = .next s)

/-- R294: the voice that a velocity-0 NOTE_ON starts from silence is retired by its first tick and contributes
nothing. The spec derives this from R292 and R249. -/
def Obligations.VelocityZeroNoteIsRetiredByItsFirstTick : Prop :=
  ∀ (s : State) (c note : Nat) (g : Snapshot), c < s.numLanes → note ≤ 127 → (s.voice c).amp = 0#32 →
    paramsOk s.cfg = true → flt f0 s.cfg.ampEps = true → rateOk s.cfg g.sr = true →
    ∃ t, exec (.noteOn c note 0) s = .next t ∧
      (voiceStep lib s.cfg g (t.chan c) (t.voice c)).2 = none ∧
      (voiceStep lib s.cfg g (t.chan c) (t.voice c)).1.active = false

/-! ## Controller and parameter commands (R290, R300 to R308) -/

/-- R300: PITCH_BEND writes the ratio of its value and nothing else; the centre value 8192 gives exactly 1.0. -/
def Obligations.PitchBendWritesTheRatio : Prop :=
  (∀ (w : Word) (args : List Word), fieldOP w = 0xE0 →
    decode (w :: args) = .ok (.pitchBend (fieldCH w) (fieldD16 w), args)) ∧
  (∀ (s : State) (c value : Nat), s.numLanes ≤ c ∨ 16383 < value → exec (.pitchBend c value) s = .next s) ∧
  (∀ (s : State) (c value : Nat), c < s.numLanes → value ≤ 16383 →
    ∃ t, exec (.pitchBend c value) s = .next t ∧ OnlyChannel c s t ∧
      t.chan c = { s.chan c with
        bend := lib.fexp2 (fdiv (fmul (fdiv (ofInt ((value : Int) - 8192)) f8192) f2) f12) }) ∧
  (∀ (s : State) (c : Nat), c < s.numLanes →
    ∃ t, exec (.pitchBend c 8192) s = .next t ∧ (t.chan c).bend = 0x3F800000#32)

/-- R302: CHANNEL_PRESSURE writes AT = value / 127.0 and nothing else; out of range it is dropped. -/
def Obligations.ChannelPressureWritesAftertouch : Prop :=
  (∀ (w : Word) (args : List Word), fieldOP w = 0xD0 →
    decode (w :: args) = .ok (.channelPressure (fieldCH w) (fieldB w), args)) ∧
  ∀ (s : State) (c value : Nat),
    (c < s.numLanes → value ≤ 127 → ∃ t, exec (.channelPressure c value) s = .next t ∧ OnlyChannel c s t ∧
      t.chan c = { s.chan c with at_ := fdiv (ofInt value) f127 }) ∧
    (s.numLanes ≤ c ∨ 127 < value → exec (.channelPressure c value) s = .next s)

/-- R304: CONTROL_CHANGE 74 writes BRIGHT = value / 127.0 and nothing else; every other cc has no effect, and out of
range it is dropped. -/
def Obligations.ControlChangeWritesBrightnessOnly : Prop :=
  (∀ (w : Word) (args : List Word), fieldOP w = 0xB0 →
    decode (w :: args) = .ok (.controlChange (fieldCH w) (fieldA w) (fieldB w), args)) ∧
  ∀ (s : State) (c cc value : Nat),
    (c < s.numLanes → value ≤ 127 → cc = 74 → ∃ t, exec (.controlChange c cc value) s = .next t ∧ OnlyChannel c s t ∧
      t.chan c = { s.chan c with bright := fdiv (ofInt value) f127 }) ∧
    (s.numLanes ≤ c ∨ 127 < cc ∨ 127 < value ∨ cc ≠ 74 → exec (.controlChange c cc value) s = .next s)

/-- R44: BRIGHT is written by CONTROL_CHANGE 74, is 0.0 at reset, and has no effect on any output or voice. -/
def Obligations.BrightnessNeverReachesTheOutput : Prop :=
  (∀ (s : State) (c value : Nat), c < s.numLanes → value ≤ 127 →
    ∃ t, exec (.controlChange c 74 value) s = .next t ∧ (t.chan c).bright = fdiv (ofInt value) f127) ∧
  (∀ c, c < 8 → (State.reset.chan c).bright = 0#32) ∧
  (∀ (s : State) (d : Bool) (b : Nat → F32),
    let s' := { s with lanes := s.lanes.mapIdx fun k l => { l with chan := { l.chan with bright := b k } } }
    (tick d s').outs = (tick d s).outs ∧ ∀ v, v < s.numLanes → (tick d s').voice v = (tick d s).voice v)

/-- R305: SET_FILTER_CUTOFF stores any finite value of magnitude at most CUTOFF_ABS_MAX unchanged, and nothing else; any
other is dropped. -/
def Obligations.SetFilterCutoffStoresItsArgument : Prop :=
  (∀ (w a1 : Word) (args : List Word), fieldOP w = 0x21 →
    decode (w :: a1 :: args) = .ok (.setFilterCutoff (fieldCH w) a1, args)) ∧
  ∀ (s : State) (c : Nat) (hz : F32),
    (c < s.numLanes → isFinite hz = true → fle (fabs hz) s.cfg.cutoffAbsMax = true →
      ∃ t, exec (.setFilterCutoff c hz) s = .next t ∧ OnlyChannel c s t ∧ t.chan c = { s.chan c with cutoff := hz }) ∧
    (s.numLanes ≤ c ∨ isFinite hz = false ∨ fle (fabs hz) s.cfg.cutoffAbsMax = false →
      exec (.setFilterCutoff c hz) s = .next s)

/-- R306, R105: SET_ENVELOPE makes four writes in the order ATK, DEC, SUS, REL, the sustain level clamped into
[0.0, 1.0]; after k of them the first k fields are new, and nothing else of the state has changed. -/
def Obligations.SetEnvelopeWritesFourFieldsInOrder : Prop :=
  (∀ (w a1 a2 a3 a4 : Word) (args : List Word), fieldOP w = 0x22 →
    decode (w :: a1 :: a2 :: a3 :: a4 :: args) = .ok (.setEnvelope (fieldCH w) a1 a2 a3 a4, args)) ∧
  (∀ (s : State) (c : Nat) (atk dec sus rel : F32),
    s.numLanes ≤ c ∨ isFinite atk = false ∨ isFinite dec = false ∨ isFinite sus = false ∨ isFinite rel = false →
    exec (.setEnvelope c atk dec sus rel) s = .next s) ∧
  ∀ (s : State) (c : Nat) (atk dec sus rel : F32), s.work = [] → c < s.numLanes →
    isFinite atk = true → isFinite dec = true → isFinite sus = true → isFinite rel = true →
    ∃ t, exec (.setEnvelope c atk dec sus rel) s = .next t ∧ t.work.length = 4 ∧ (runWork lib 4 t).work = [] ∧
      ∀ k, k ≤ 4 →
        OnlyChannel c s { runWork lib k t with work := [] } ∧
        (runWork lib k t).chan c = { s.chan c with
          atk := if 1 ≤ k then atk else (s.chan c).atk
          dec := if 2 ≤ k then dec else (s.chan c).dec
          sus := if 3 ≤ k then fmin (fmax sus f0) f1 else (s.chan c).sus
          rel := if 4 ≤ k then rel else (s.chan c).rel }

/-- R308: SET_WAVEFORM writes the selector its id names, and nothing else. -/
def Obligations.SetWaveformWritesTheSelector : Prop :=
  (∀ (w : Word) (args : List Word), fieldOP w = 0x20 → decode (w :: args) = .ok (.setWaveform (fieldB w), args)) ∧
  ∀ s : State,
    exec (.setWaveform 0) s = .next { s with wave := .sine } ∧
    exec (.setWaveform 1) s = .next { s with wave := .triangle } ∧
    exec (.setWaveform 2) s = .next { s with wave := .saw } ∧
    exec (.setWaveform 3) s = .next { s with wave := .square } ∧
    exec (.setWaveform 4) s = .next { s with wave := .custom } ∧
    ∀ id, 4 < id → exec (.setWaveform id) s = .next s

/-- R290: a channel command with an operand out of range, or a non-finite argument, changes nothing and answers
nothing. -/
def Obligations.OutOfRangeChannelCommandsAreDropped : Prop :=
  ∀ (s : State) (c : Nat),
    (∀ note vel, s.numLanes ≤ c ∨ 127 < note ∨ 127 < vel → exec (.noteOn c note vel) s = .next s) ∧
    (∀ note, s.numLanes ≤ c → exec (.noteOff c note) s = .next s) ∧
    (∀ value, s.numLanes ≤ c ∨ 16383 < value → exec (.pitchBend c value) s = .next s) ∧
    (∀ value, s.numLanes ≤ c ∨ 127 < value → exec (.channelPressure c value) s = .next s) ∧
    (∀ cc value, s.numLanes ≤ c ∨ 127 < cc ∨ 127 < value → exec (.controlChange c cc value) s = .next s) ∧
    (∀ hz, s.numLanes ≤ c ∨ isFinite hz = false ∨ fle (fabs hz) s.cfg.cutoffAbsMax = false →
      exec (.setFilterCutoff c hz) s = .next s) ∧
    (∀ atk dec sus rel,
      s.numLanes ≤ c ∨ isFinite atk = false ∨ isFinite dec = false ∨ isFinite sus = false ∨ isFinite rel = false →
      exec (.setEnvelope c atk dec sus rel) s = .next s) ∧
    (∀ id, 4 < id → exec (.setWaveform id) s = .next s)

/-! ## Stream commands (R331 to R333) -/

/-- R331: START on a closed stream opens and negotiates: on success it regenerates the bank if the rate differs from
G.BANK_SR, sets G.SR, then G.STREAM, then answers 0x10000001; on failure, a rate out of range among them, it answers
0x10000000 and changes nothing else. On an open stream it only sets PLAYING and answers 0x10000001. The record of
driver calls and the draw counter are the model's (log entries 10 and 15). -/
def Obligations.StartNegotiatesAndAnswers : Prop :=
  (∀ (w : Word) (args : List Word), fieldOP w = 0x10 → decode (w :: args) = .ok (.start, args)) ∧
  ∀ s : State, s.work = [] → s.respq.length < s.cfg.respDepth →
    (s.stream.opened = false → (nextDraw s).ok = true → fle s.cfg.srMin (nextDraw s).sr = true →
      fle (nextDraw s).sr s.cfg.srMax = true →
      ∃ t, exec .start s = .next t ∧ runWork lib 4 t =
        { s with
          sr := (nextDraw s).sr
          bankSr := if feq (nextDraw s).sr s.bankSr then s.bankSr else (nextDraw s).sr
          stream := { opened := true, playing := true }
          respq := s.respq ++ [0x10000001#32]
          draws := s.draws.tail
          drawNo := if s.draws.isEmpty then s.drawNo + 1 else s.drawNo
          calls := s.calls ++ [.driverOpen] }) ∧
    (s.stream.opened = false →
      ((nextDraw s).ok = false ∨ fle s.cfg.srMin (nextDraw s).sr = false ∨ fle (nextDraw s).sr s.cfg.srMax = false) →
      ∃ t, exec .start s = .next t ∧ runWork lib 1 t =
        { s with
          respq := s.respq ++ [0x10000000#32]
          draws := s.draws.tail
          drawNo := if s.draws.isEmpty then s.drawNo + 1 else s.drawNo
          calls := s.calls ++ [.driverOpen] }) ∧
    (s.stream.opened = true →
      ∃ t, exec .start s = .next t ∧ runWork lib 2 t =
        { s with stream := { opened := true, playing := true }, respq := s.respq ++ [0x10000001#32] })

/-- R331, R188: while a START that succeeded regenerates the bank and sets the rate, the stream is not playing yet:
G.STREAM is written after BANK, G.BANK_SR and G.SR. -/
def Obligations.StartWritesTheStreamLast : Prop :=
  ∀ (s : State) (k : Nat), s.stream.opened = false → s.stream.playing = false → s.work = [] →
    ∃ t, exec .start s = .next t ∧
      ((runWork lib k t).stream.playing = true →
        (runWork lib k t).sr = (nextDraw s).sr ∧ feq (runWork lib k t).sr (runWork lib k t).bankSr = true)

/-- R332, R333: STOP clears PLAYING and changes nothing else; CLOSE clears PLAYING and OPEN, calls driverClose (recorded in
`calls`, log entry 15), and changes nothing else. -/
def Obligations.StopAndCloseChangeTheStreamOnly : Prop :=
  (∀ (w : Word) (args : List Word), fieldOP w = 0x11 → decode (w :: args) = .ok (.stop, args)) ∧
  (∀ (w : Word) (args : List Word), fieldOP w = 0x12 → decode (w :: args) = .ok (.close, args)) ∧
  ∀ s : State,
    exec .stop s = .next { s with stream := { opened := s.stream.opened, playing := false } } ∧
    exec .close s =
      .next { s with stream := { opened := false, playing := false }, calls := s.calls ++ [.driverClose] }

/-! ## Wavetable and sample commands (R334 to R340) -/

/-- R334: LOAD_WAVETABLE publishes the loader's table, the fallback too; then selects Custom; then answers with the
parse status; and changes nothing else. -/
def Obligations.LoadWavetablePublishesThenSelects : Prop :=
  (∀ (w a1 a2 : Word) (args : List Word), fieldOP w = 0x30 →
    decode (w :: a1 :: a2 :: args) = .ok (.loadWavetable a1.toNat a2.toNat, args)) ∧
  ∀ (s : State) (addr len : Nat), s.work = [] → s.respq.length < s.cfg.respDepth →
    let r := load s.cfg (memRead s.payload) addr len
    ∃ t, exec (.loadWavetable addr len) s = .next t ∧ { t with work := [] } = s ∧
      { runWork lib 1 t with work := [] } = { s with custom := { valid := true, table := r.1 } } ∧
      { runWork lib 2 t with work := [] } = { s with custom := { valid := true, table := r.1 }, wave := .custom } ∧
      runWork lib 3 t =
        { s with
          custom := { valid := true, table := r.1 }
          wave := .custom
          respq := s.respq ++ [if r.2 then 0x30000001#32 else 0x30000000#32] }

/-- R336: a REGISTER_SAMPLE whose keys, list and name range are admitted appends the region it builds, from the fallback
table too, and answers 0x31000003 or 0x31000002; with a key above 127, a full list or a name range beyond the payload it
answers 0x31000000 and registers nothing. Nothing else changes. -/
def Obligations.RegisterSampleAppendsOrRefuses : Prop :=
  (∀ (w a1 a2 a3 a4 : Word) (args : List Word), fieldOP w = 0x31 →
    decode (w :: a1 :: a2 :: a3 :: a4 :: args) =
      .ok (.registerSample (fieldCH w) (fieldA w) (fieldB w) a1.toNat a2.toNat a3.toNat a4.toNat, args)) ∧
  ∀ (s : State) (root lo hi addr len naddr nlen : Nat), s.work = [] → s.respq.length < s.cfg.respDepth →
    let r := load s.cfg (memRead s.payload) addr len
    (root ≤ 127 → lo ≤ 127 → hi ≤ 127 → s.regions.length < s.cfg.rMax → naddr + nlen ≤ s.cfg.payloadBytes →
      ∃ t, exec (.registerSample root lo hi addr len naddr nlen) s = .next t ∧ runWork lib 2 t =
        { s with
          regions := s.regions ++
            [{ root := BitVec.ofNat 7 root
               lo := BitVec.ofNat 7 lo
               hi := BitVec.ofNat 7 hi
               rootFreq := midiToHz lib root
               name := (List.range (min nlen s.cfg.nameMax)).map fun p => memRead s.payload (naddr + p)
               band := buildBands lib s.cfg r.1 root s.sr }]
          respq := s.respq ++ [if r.2 then 0x31000003#32 else 0x31000002#32] }) ∧
    (127 < root ∨ 127 < lo ∨ 127 < hi ∨ s.cfg.rMax ≤ s.regions.length ∨ s.cfg.payloadBytes < naddr + nlen →
      ∃ t, exec (.registerSample root lo hi addr len naddr nlen) s = .next t ∧
        runWork lib 1 t = { s with respq := s.respq ++ [0x31000000#32] })

/-- R338, R108: UNREGISTER_SAMPLE removes the element at its index, the later ones moving down by one, and changes
nothing else; an index beyond the list is dropped. -/
def Obligations.UnregisterSampleRemovesOneElement : Prop :=
  (∀ (w : Word) (args : List Word), fieldOP w = 0x32 → decode (w :: args) = .ok (.unregisterSample (fieldD16 w), args)) ∧
  ∀ (s : State) (index : Nat),
    (index < s.regions.length → exec (.unregisterSample index) s =
      .next { s with regions := s.regions.take index ++ s.regions.drop (index + 1) }) ∧
    (s.regions.length ≤ index → exec (.unregisterSample index) s = .next s)

/-- R340, R151, R396: LIST_SAMPLE_NAMES pushes the header with the count and then, per region in list order, the length and
the bytes of its name, four to a word, byte k at bits 8(k mod 4)+7 .. 8(k mod 4), 0 beyond the end; an empty name is
reported as the placeholder of its index. Nothing else changes. No reported name is empty, and with at most R_MAX regions and
names of at most NAME_MAX bytes it pushes at most 1 + R_MAX (1 + ceil(NAME_MAX / 4)) words: what these two clauses ask of
the placeholder is read from R151 and R396 by inference, log entry 27. -/
def Obligations.ListSampleNamesReportsTheList : Prop :=
  (∀ (w : Word) (args : List Word), fieldOP w = 0x33 → decode (w :: args) = .ok (.listSampleNames, args)) ∧
  ∀ s : State, s.work = [] →
    let nameOf := fun (r : Region) (i : Nat) =>
      if 1 ≤ r.name.length then r.name else lib.placeholderName s.cfg.nameMax i
    let dataWord := fun (nm : List Byte) (q : Nat) => (nm.getD (4 * q + 3) 0#8 ++ nm.getD (4 * q + 2) 0#8 ++
      nm.getD (4 * q + 1) 0#8 ++ nm.getD (4 * q) 0#8 : BitVec 32)
    let record := fun (nm : List Byte) =>
      BitVec.ofNat 32 nm.length :: (List.range ((nm.length + 3) / 4)).map (dataWord nm)
    let response := BitVec.ofNat 32 (0x33000000 + s.regions.length) ::
      (s.regions.zipIdx.map fun p => record (nameOf p.1 p.2)).flatten
    (s.respq.length + response.length ≤ s.cfg.respDepth →
      ∃ t, exec .listSampleNames s = .next t ∧
        runWork lib response.length t = { s with respq := s.respq ++ response }) ∧
    (∀ r i, 1 ≤ (nameOf r i).length) ∧
    (1 ≤ s.cfg.nameMax → s.regions.length ≤ s.cfg.rMax → (∀ r ∈ s.regions, r.name.length ≤ s.cfg.nameMax) →
      response.length ≤ 1 + s.cfg.rMax * (1 + (s.cfg.nameMax + 3) / 4))

/-! ## The tick (43_render.md) -/

/-- R240: a tick while PLAYING is 0 or the driver reports no playback outputs +0.0 and changes nothing else. -/
def Obligations.StoppedTickIsSilentAndChangesNothing : Prop :=
  ∀ (s : State) (d : Bool) (ts : List Turn), s.turns = .tick d :: ts → s.stream.playing = false ∨ d = false →
    step s = .next { s with turns := ts, outs := s.outs ++ [0x00000000#32] }

/-- R242, R379: a tick writes voices and delivers one sample; it changes no channel register, no inactive voice, no
payload byte and nothing else of the state, the command being executed and the queues among it. -/
def Obligations.TickTouchesOnlyActiveVoices : Prop :=
  ∀ (s : State) (d : Bool) (ts : List Turn), s.turns = .tick d :: ts →
    ∃ t, step s = .next t ∧ t = { s with turns := ts, lanes := t.lanes, outs := t.outs } ∧ t.numLanes = s.numLanes ∧
      t.outs.length = s.outs.length + 1 ∧ (∀ v, t.chan v = s.chan v) ∧
      (∀ v, (s.voice v).active = false → t.voice v = s.voice v) ∧ ∀ a, memRead t.payload a = memRead s.payload a

/-- R242, R106, R241: in a rendering tick every active voice takes its own voice step, from the snapshot and its own
channel alone, and the output is the sum of their contributions in ascending voice index from +0.0. -/
def Obligations.TickSumsVoicesInAscendingOrder : Prop :=
  ∀ s : State, s.stream.playing = true →
    let g : Snapshot := { sr := s.sr, bankSr := s.bankSr, sel := s.wave, cust := s.custom, regs := s.regions }
    let r := fun v => voiceStep lib s.cfg g (s.chan v) (s.voice v)
    (∀ v, v < s.numLanes → (tick true s).voice v = if (s.voice v).active then (r v).1 else s.voice v) ∧
    (tick true s).outs = s.outs ++ [(List.range s.numLanes).foldl (fun acc v =>
      if (s.voice v).active then
        match (r v).2 with
        | some x => fadd acc x
        | none => acc
      else acc) 0x00000000#32]

/-- R243, R247: step 1 writes the phase advanced by freq / sr and wrapped, whatever follows; step 3 writes AMP by the
follower unless check A then zeroes it. -/
def Obligations.VoiceAdvancesPhaseAndFollowsAmplitude : Prop :=
  ∀ (L : Lib) (P : Params) (g : Snapshot) (c : Channel) (v : Voice),
    let p := fadd v.phase (fdiv (fmul v.baseFreq c.bend) g.sr)
    let tau := if flt v.amp v.target then P.ampTauRiseMs else P.ampTauFallMs
    let amp := fadd v.amp (fmul (tcoef L P tau g.sr) (fsub v.target v.amp))
    (voiceStep L P g c v).1.phase = fsub p (ofInt (ffloor p)) ∧
    (voiceStep L P g c v).1.amp = (if feq v.target f0 && flt amp P.ampEps then f0 else amp)

/-- R249: check A zeroes AMP, makes the voice inactive and Idle, and keeps the phase of step 1 and every other field. R252,
in the order R253 gives: where check A does not fire, a voice in Release whose level has come to RELEASE_EPS or below is
retired by check B: LEVEL 0.0, inactive, Idle, AMP kept. Either way the voice contributes nothing. -/
def Obligations.ExtinguishChecksRetireTheVoice : Prop :=
  ∀ (L : Lib) (P : Params) (g : Snapshot) (c : Channel) (v : Voice),
    let silenced := feq v.target f0 && flt (followAmp L P g.sr v) P.ampEps
    (silenced = true →
      voiceStep L P g c v =
        ({ v with phase := advancePhase g.sr c v, amp := f0, active := false, stage := .idle }, none)) ∧
    (silenced = false → v.stage = .release →
      fle (fclamp (fadd v.level (fmul (tcoef L P c.rel g.sr) (fsub f0 v.level))) f0 f1) P.releaseEps = true →
      voiceStep L P g c v =
        ({ v with phase := advancePhase g.sr c v, amp := followAmp L P g.sr v, level := f0, active := false,
                  stage := .idle }, none))

/-- R251: the level update of each stage, clamped into [0.0, 1.0], and the transitions, which take effect from the next
tick; Idle, which no active voice has, keeps its level but for the clamp. -/
def Obligations.EnvelopeStagesFollowTheirLaws : Prop :=
  ∀ (L : Lib) (P : Params) (sr : F32) (c : Channel) (v : Voice),
    let up := fun (ms goal : F32) => fmin (fmax (fadd v.level (fmul (tcoef L P ms sr) (fsub goal v.level))) f0) f1
    (v.stage = .attack → stepEnvelope L P sr c v =
      { v with level := up c.atk f1, stage := if fle P.attackDone (up c.atk f1) then .decay else .attack }) ∧
    (v.stage = .decay → stepEnvelope L P sr c v =
      { v with level := up c.dec c.sus
               stage := if fle (fabs (fsub (up c.dec c.sus) c.sus)) P.decayWindow then .sustain else .decay }) ∧
    (v.stage = .sustain → stepEnvelope L P sr c v = { v with level := fmin (fmax c.sus f0) f1 }) ∧
    (v.stage = .release → stepEnvelope L P sr c v = { v with level := up c.rel f0 }) ∧
    (v.stage = .idle → stepEnvelope L P sr c v = { v with level := fmin (fmax v.level f0) f1 })

/-- R246, R251, R254, R255, R256: a voice that no check retires (R249, R252) contributes its integrator: the looked-up sample
times AMP, LEVEL and 0.5 + 0.5 AT, filtered with the cutoff smoothed by CUTOFF_K; the 20 Hz floor acts in the formula only.
Its PHASE and AMP are those of steps 1 and 3, its LEVEL and STAGE those of step 5. -/
def Obligations.SoundingVoiceFiltersItsSample : Prop :=
  ∀ (L : Lib) (P : Params) (g : Snapshot) (c : Channel) (v : Voice),
    let v3 := { v with phase := advancePhase g.sr c v, amp := followAmp L P g.sr v }
    let e := stepEnvelope L P g.sr c v3
    (feq v.target f0 && flt v3.amp P.ampEps) = false → ¬(v.stage = .release ∧ fle e.level P.releaseEps = true) →
    ∃ w y, voiceStep L P g c v = (w, some y) ∧
      w.phase = v3.phase ∧ w.amp = v3.amp ∧ w.level = e.level ∧ w.stage = e.stage ∧
      let s := lerp (tableAt (sourceTable L P g v.note (fmul v.baseFreq c.bend))) w.phase
      let x := fmul (fmul (fmul s w.amp) w.level) (fadd fHalf (fmul fHalf c.at_))
      let fc := fmax w.fcut P.cutoffFloorHz
      let alpha := fsub f1 (L.fexp (fneg (fdiv (fmul fTwoPi fc) g.sr)))
      w.fcut = fadd v.fcut (fmul P.cutoffK (fsub c.cutoff v.fcut)) ∧
      w.fstate = fadd v.fstate (fmul alpha (fsub x v.fstate)) ∧ y = w.fstate ∧
      w.active = v.active ∧ w.note = v.note ∧ w.baseFreq = v.baseFreq ∧ w.target = v.target

/-- R244, R245: the source class of a voice: the custom table when it is active; else the covering region's band; else
BANK, the Sine table for a Custom selection with no table published. -/
def Obligations.SourceTableFollowsThePriority : Prop :=
  ∀ (L : Lib) (P : Params) (g : Snapshot) (note : Key) (freq : F32),
    (g.sel = .custom → g.cust.valid = true → sourceTable L P g note freq = g.cust.table) ∧
    (g.sel ≠ .custom ∨ g.cust.valid = false →
      (∀ r, firstRegion g.regs note = some r →
        sourceTable L P g note freq = bandTable r (bandIndex L freq r.rootFreq)) ∧
      (firstRegion g.regs note = none →
        (g.sel = .custom ∨ g.sel = .sine → sourceTable L P g note freq = L.bank P g.bankSr .sine note) ∧
        (g.sel = .triangle → sourceTable L P g note freq = L.bank P g.bankSr .triangle note) ∧
        (g.sel = .saw → sourceTable L P g note freq = L.bank P g.bankSr .saw note) ∧
        (g.sel = .square → sourceTable L P g note freq = L.bank P g.bankSr .square note)))

/-- R15, R13, R255: the coefficient law of a time constant, floored at ENV_MIN_MS; and every envelope, follower and filter
coefficient lies in [0.0, 1.0]. -/
def Obligations.CoefficientsFollowTheirLawWithinTheUnitInterval : Prop :=
  (∀ (L : Lib) (P : Params) (ms sr : F32),
    let tc := fdiv (fmax ms P.envMinMs) 0x447A0000#32
    let q := fdiv f1 (fmul sr tc)
    tcoef L P ms sr = fsub f1 (L.fexp (fneg q))) ∧
  Params.default.envMinMs = f1 ∧
  ∀ (P : Params) (sr : F32), paramsOk P = true → positiveFinite sr = true →
    (∀ ms, isFinite ms = true → inUnit (tcoef lib P ms sr) = true) ∧
    (∀ fc, isFinite fc = true → fle f0 fc = true → inUnit (onePoleCoef lib fc sr) = true)

/-- R258 (the spec derives it from R251 and R13): the level never falls in Attack, never rises in Release, and stays in
[0.0, 1.0] in every stage. -/
def Obligations.AttackNeverFallsAndReleaseNeverRises : Prop :=
  ∀ (P : Params) (sr : F32) (c : Channel) (v : Voice), paramsOk P = true → positiveFinite sr = true →
    isFinite c.atk = true → isFinite c.rel = true → inUnit v.level = true →
    (v.stage = .attack → fle v.level (stepEnvelope lib P sr c v).level = true) ∧
    (v.stage = .release → fle (stepEnvelope lib P sr c v).level v.level = true) ∧
    (isFinite c.dec = true → inUnit c.sus = true → inUnit (stepEnvelope lib P sr c v).level = true)

/-! ## Numbers and primitives (R9, R12 to R15) -/

/-- R12: the four operations and toF32 are round-to-nearest-even on the exact result, which overflows to an infinity of
its sign. -/
def Obligations.ArithmeticRoundsToNearestEven : Prop :=
  (∀ a b : F32, isFinite a = true → isFinite b = true →
    (∀ (q : ℚ) (r : F32),
      (q = toRat a + toRat b ∧ r = fadd a b) ∨ (q = toRat a - toRat b ∧ r = fsub a b) ∨
        (q = toRat a * toRat b ∧ r = fmul a b) ∨ (toRat b ≠ 0 ∧ q = toRat a / toRat b ∧ r = fdiv a b) →
      (|q| < overflowBound → IsNearestEven q r) ∧
      (overflowBound ≤ q → r = 0x7F800000#32) ∧ (q ≤ -overflowBound → r = 0xFF800000#32))) ∧
  (∀ k : Int, |(k : ℚ)| < overflowBound → IsNearestEven (k : ℚ) (ofInt k))

/-- R243: wrapping a finite phase that is not negative takes off its whole part exactly and lands in [0.0, 1.0). -/
def Obligations.PhaseWrapIsExactAndInRange : Prop :=
  ∀ p : F32, isFinite p = true → fle f0 p = true →
    isFinite (wrapPhase p) = true ∧ toRat (wrapPhase p) = toRat p - (⌊toRat p⌋ : ℚ) ∧
      fle f0 (wrapPhase p) = true ∧ flt (wrapPhase p) f1 = true

/-- R14, R246: a lookup at a phase in [0.0, 1.0) interpolates between the samples at i0 and (i0 + 1) mod 2048, by the fraction
fr: the scaled phase, its whole part i0 in 0..2047 and its fraction in [0, 1) are exact; and no lookup reads outside the
table. -/
def Obligations.LookupInterpolatesInsideTheTable : Prop :=
  (∀ (T : Nat → F32) (p : F32), isFinite p = true → fle f0 p = true → flt p f1 = true →
    let x := fmul p f2048
    let i0 := (ffloor x).toNat
    let fr := fsub x (ofInt i0)
    toRat x = toRat p * 2048 ∧ (i0 : Int) = ⌊toRat p * 2048⌋ ∧ i0 ≤ 2047 ∧
      toRat fr = toRat p * 2048 - (i0 : ℚ) ∧ 0 ≤ toRat fr ∧ toRat fr < 1 ∧
      lerp T p = fadd (T i0) (fmul fr (fsub (T ((i0 + 1) % 2048)) (T i0)))) ∧
  (∀ (T T' : Nat → F32) (p : F32), (∀ i, i < 2048 → T i = T' i) → lerp T p = lerp T' p)

/-! ## Regions and the loader (41_sample_regions.md, 42_sample_loader.md) -/

/-- R204: the region that sounds a note is the one of the least index whose range covers it; a region with LO > HI
covers none. -/
def Obligations.FirstCoveringRegionWins : Prop :=
  ∀ (rs : List Region) (note : Key),
    (∀ r, firstRegion rs note = some r ↔
      ∃ j, rs[j]? = some r ∧ r.lo.toNat ≤ note.toNat ∧ note.toNat ≤ r.hi.toNat ∧
        ∀ (i : Nat) (r' : Region), i < j → rs[i]? = some r' → ¬(r'.lo.toNat ≤ note.toNat ∧ note.toNat ≤ r'.hi.toNat)) ∧
    (firstRegion rs note = none ↔
      ∀ r ∈ rs, ¬(r.lo.toNat ≤ note.toNat ∧ note.toNat ≤ r.hi.toNat)) ∧
    (∀ r : Region, r.hi.toNat < r.lo.toNat → covers r note = false)

/-- R205: the band is the floor of the octave distance plus a half, plus 5, clamped to 0..10. -/
def Obligations.BandIndexIsTheClampedNearestOctave : Prop :=
  ∀ (L : Lib) (freq rootFreq : F32),
    let b := ffloor (fadd (L.flog2 (fdiv freq rootFreq)) fHalf) + 5
    bandIndex L freq rootFreq ≤ 10 ∧ (b < 0 → bandIndex L freq rootFreq = 0) ∧
      (10 < b → bandIndex L freq rootFreq = 10) ∧
      (0 ≤ b → b ≤ 10 → ((bandIndex L freq rootFreq : Nat) : Int) = b)

/-- R201: band b is the input passed forward and then time-reversed through the one-pole recurrence, each pass from
state 0.0, at the cutoff `min(nyq, nyq / max(BAND_EPS, T))`. -/
def Obligations.BandsAreTwoOnePolePasses : Prop :=
  ∀ (L : Lib) (P : Params) (X : Table) (root : Nat) (sr : F32) (b : Nat), b ≤ 10 →
    let nyq := fdiv sr f2
    let rootFreq := fmul f440 (L.fexp2 (fdiv (ofInt ((root : Int) - 69)) f12))
    let centerFreq := fmul f440 (L.fexp2 (fdiv (ofInt ((root : Int) + 12 * ((b : Int) - 5) - 69)) f12))
    let cutoff := fmin nyq (fdiv nyq (fmax P.bandEps (fdiv centerFreq rootFreq)))
    let alpha := fsub f1 (L.fexp (fneg (fdiv (fmul fTwoPi cutoff) sr)))
    ∃ Y Z : Nat → F32,
      Y 0 = fadd f0 (fmul alpha (fsub (tableAt X 0) f0)) ∧
      (∀ i, i < 2047 → Y (i + 1) = fadd (Y i) (fmul alpha (fsub (tableAt X (i + 1)) (Y i)))) ∧
      Z 2047 = fadd f0 (fmul alpha (fsub (Y 2047) f0)) ∧
      (∀ i, i < 2047 → Z i = fadd (Z (i + 1)) (fmul alpha (fsub (Y i) (Z (i + 1))))) ∧
      ∀ i, i < 2048 → tableAt ((buildBands L P X root sr).toArray.toList.getD b zeroTable) i = Z i

/-- R220 to R222, R225, R227 to R229, R231: the loader answers the fallback table and failure in each case of R231 and in no
other, over the chunks its walk finds; and otherwise success and the downmixed, resampled and normalised table of the frames
it parses. -/
def Obligations.LoaderAnswersItsTableOrTheFallback : Prop :=
  ∀ (P : Params) (view : Nat → Byte) (addr len : Nat),
    let B := fun p => view (addr + p)
    let walk := chunkWalk B len len 12 none none
    let fails := load P view addr len = (fallback, false)
    let nonFiniteAt := fun (body k : Nat) => isFinite (BitVec.ofNat 32 (leBytes B (body + 4 * k) 4)) = false
    ((load P view addr len).2 = false → (load P view addr len).1 = fallback) ∧
    (P.payloadBytes < addr + len → fails) ∧
    (len < 12 → fails) ∧ (leBytes B 0 4 ≠ 0x46464952 → fails) ∧ (leBytes B 8 4 ≠ 0x45564157 → fails) ∧
    (walk.1 = none ∨ walk.2 = none → fails) ∧
    (∀ f d, walk = (some f, some d) →
      let tag := leBytes B f.body 2
      let C := leBytes B (f.body + 2) 2
      let bits := leBytes B (f.body + 14) 2
      (f.size < 16 → fails) ∧ (¬(tag = 1 ∧ bits = 16) → ¬(tag = 3 ∧ bits = 32) → fails) ∧ (C = 0 → fails) ∧
      (tag = 1 → bits = 16 → d.size < 2 * C → fails) ∧ (tag = 3 → bits = 32 → d.size < 4 * C → fails) ∧
      (tag = 3 → bits = 32 → (∃ k, k < d.size / (C * 4) * C ∧ nonFiniteAt d.body k) → fails) ∧
      (addr + len ≤ P.payloadBytes → 12 ≤ len → leBytes B 0 4 = 0x46464952 → leBytes B 8 4 = 0x45564157 → 16 ≤ f.size →
        1 ≤ C →
        (tag = 1 ∧ bits = 16 ∧ 2 * C ≤ d.size) ∨
          (tag = 3 ∧ bits = 32 ∧ 4 * C ≤ d.size ∧ ∀ k, k < d.size / (C * 4) * C → ¬nonFiniteAt d.body k) →
        (load P view addr len).2 = true)) ∧
    (addr + len ≤ P.payloadBytes →
      ((load P view addr len).2 = true ↔ ∃ fr, parseWave B len = some fr) ∧
      ∀ fr, parseWave B len = some fr →
        let x := fun (f c : Nat) =>
          sampleAt B fr.codec (fr.body + f * (fr.channels * fr.codec.bytes) + c * fr.codec.bytes)
        let m := fun (f : Nat) =>
          fdiv ((List.range (fr.channels - 1)).foldl (fun acc c => fadd acc (x f (c + 1))) (x f 0)) (ofInt fr.channels)
        let r := fun (j : Nat) =>
          let pos := fmul (ofInt j) (fdiv (ofInt fr.count) f2048)
          let i0 := (min (ffloor pos) ((fr.count : Int) - 1)).toNat
          fadd (m i0) (fmul (fsub pos (ofInt i0)) (fsub (m ((i0 + 1) % fr.count)) (m i0)))
        let peak := (List.range 2048).foldl (fun p j => fmax p (fabs (r j))) f0
        ∀ j, j < 2048 → tableAt (load P view addr len).1 j = fdiv (r j) (fmax peak P.peakFloor))

/-- R222 to R226: a buffer with a RIFF/WAVE header, a 16-byte fmt chunk and then a data chunk parses as 16-bit PCM or
32-bit float frames exactly when its codec is one of the two, C and L are at least 1, and float samples are finite.
The layout is one the spec supplies from general knowledge (R223, R224). -/
def Obligations.PlainWaveBufferParses : Prop :=
  ∀ (B : Nat → Byte) (len tag C bits size : Nat),
    leBytes B 0 4 = 0x46464952 → leBytes B 8 4 = 0x45564157 → leBytes B 12 4 = 0x20746D66 → leBytes B 16 4 = 16 →
    leBytes B 20 2 = tag → leBytes B 22 2 = C → leBytes B 34 2 = bits → leBytes B 36 4 = 0x61746164 →
    leBytes B 40 4 = size → 44 + size ≤ len →
    (tag = 1 → bits = 16 → 1 ≤ C → 2 * C ≤ size →
      parseWave B len = some { codec := .pcm16, channels := C, count := size / (C * 2), body := 44 }) ∧
    (tag = 3 → bits = 32 → 1 ≤ C → 4 * C ≤ size →
      (∀ k, k < size / (C * 4) * C → isFinite (BitVec.ofNat 32 (leBytes B (44 + 4 * k) 4)) = true) →
      parseWave B len = some { codec := .float32, channels := C, count := size / (C * 4), body := 44 }) ∧
    (tag = 3 → bits = 32 → 1 ≤ C → 4 * C ≤ size →
      (∃ k, k < size / (C * 4) * C ∧ isFinite (BitVec.ofNat 32 (leBytes B (44 + 4 * k) 4)) = false) →
      parseWave B len = none) ∧
    (¬(tag = 1 ∧ bits = 16) → ¬(tag = 3 ∧ bits = 32) → parseWave B len = none) ∧
    (C = 0 → parseWave B len = none) ∧
    (tag = 1 → bits = 16 → size < 2 * C → parseWave B len = none) ∧
    (tag = 3 → bits = 32 → size < 4 * C → parseWave B len = none)

/-- R226: a 16-bit sample is exactly its signed value over 32768. -/
def Obligations.PcmSamplesAreExact : Prop :=
  ∀ (B : Nat → Byte) (p : Nat),
    isFinite (sampleAt B .pcm16 p) = true ∧
    toRat (sampleAt B .pcm16 p) = ((BitVec.ofNat 16 (leBytes B p 2)).toInt : ℚ) / 32768

/-- R229: normalising divides every value by `max(P, PEAK_FLOOR)`, P the peak magnitude. A table of finite values is left
with no magnitude above 1.0, with peak 1.0 where P is at least PEAK_FLOOR, and silent where it was silent. -/
def Obligations.NormalisedTableHasUnitPeak : Prop :=
  ∀ (P : Params) (r : Table),
    let peak := (List.range 2048).foldl (fun p j => fmax p (fabs (tableAt r j))) f0
    (∀ j, j < 2048 → tableAt (normalise P r) j = fdiv (tableAt r j) (fmax peak P.peakFloor)) ∧
    (positiveFinite P.peakFloor = true → (∀ j, j < 2048 → isFinite (tableAt r j) = true) →
      (∀ j, j < 2048 → fle (fabs (tableAt (normalise P r) j)) f1 = true) ∧
      (fle P.peakFloor peak = true → ∃ j, j < 2048 ∧ fabs (tableAt (normalise P r) j) = f1) ∧
      ((∀ j, j < 2048 → feq (tableAt r j) f0 = true) → ∀ j, j < 2048 → feq (tableAt (normalise P r) j) f0 = true))

/-! ## The bank (40_wavetable_bank.md) -/

/-- R181: maxH is the exact real floor of nyquist over the fundamental, at least 1. -/
def Obligations.HarmonicLimitIsTheExactFloor : Prop :=
  ∀ (n : Nat) (sr : F32), n ≤ 127 → positiveFinite sr = true →
    maxH n sr = max 1 ⌊((toRat sr : ℝ) / 2) / (440 * (2 : ℝ) ^ (((n : ℝ) - 69) / 12))⌋₊

/-- R182 to R187: every stored value is genRound of its ideal value, normalised, one genRound for all of them and within GEN_TOL
of each; the sine table is within GEN_TOL of sin(2π i / 2048) and is one table, whatever the note and the rate; and where the
harmonic limit is 1 every kind's table is the sine table, as are the square's and the triangle's where it is 2 (R184). -/
def Obligations.StoredBankRoundsTheIdealTables : Prop :=
  ∀ P : Params, paramsOk P = true →
    (∃ genRound : ℝ → F32, ∀ (sr : F32) (k : Kind) (n : Key) (p : ℝ), IsPeakOf (idealReal k n.toNat sr) p →
      ∀ i, i < 2048 →
        let y := idealReal k n.toNat sr i / max p (toRat P.peakFloor : ℝ)
        tableAt (lib.bank P sr k n) i = genRound y ∧ isFinite (genRound y) = true ∧
          |(toRat (genRound y) : ℝ) - y| ≤ (toRat P.genTol : ℝ)) ∧
    ∀ sr : F32,
      (∀ (n : Key) (i : Nat), i < 2048 →
        |(toRat (tableAt (lib.bank P sr .sine n) i) : ℝ) - Real.sin (2 * Real.pi * (i : ℝ) / 2048)| ≤
          (toRat P.genTol : ℝ)) ∧
      (∀ (n n' : Key) (sr' : F32), lib.bank P sr .sine n = lib.bank P sr' .sine n') ∧
      (∀ n : Key, maxH n.toNat sr = 1 → ∀ k : Kind, lib.bank P sr k n = lib.bank P sr .sine n) ∧
      (∀ n : Key, maxH n.toNat sr = 2 →
        lib.bank P sr .square n = lib.bank P sr .sine n ∧ lib.bank P sr .triangle n = lib.bank P sr .sine n)

/-- R189 (the spec's own inference): every stored table has its peak magnitude within GEN_TOL of 1; and where the harmonic
limit H is below 1024, the table has no component at a harmonic above H, up to what the rounding of its 2048 values by
GEN_TOL each can add to the sum. -/
def Obligations.GeneratedTablesHaveUnitPeakAndNoHighHarmonics : Prop :=
  ∀ (P : Params) (sr : F32) (k : Kind) (n : Key), paramsOk P = true →
    let T := fun i => (toRat (tableAt (lib.bank P sr k n) i) : ℝ)
    (∀ i, i < 2048 → |T i| ≤ 1 + (toRat P.genTol : ℝ)) ∧
    (∃ i, i < 2048 ∧ 1 - (toRat P.genTol : ℝ) ≤ |T i|) ∧
    (maxH n.toNat sr < 1024 → ∀ m : Nat, maxH n.toNat sr < m → m ≤ 1024 →
      |∑ i ∈ Finset.range 2048, T i * Real.sin (2 * Real.pi * (m * i : ℕ) / 2048)| ≤ 2048 * (toRat P.genTol : ℝ) ∧
      |∑ i ∈ Finset.range 2048, T i * Real.cos (2 * Real.pi * (m * i : ℕ) / 2048)| ≤ 2048 * (toRat P.genTol : ℝ))
end

