-- ==== Sys2Proof/Laws/Float.lean ====
section
/-! SUPPORT. Rounding: the grid of binary32 magnitudes, and what `roundMag` and the operations over it do, said
once. -/

namespace Sys2Proof.Machine

/-- The magnitude of a 31-bit pattern in units of 2^-149, extended to every natural number as one increasing grid. -/
def gridUnits (m : Nat) : Nat :=
  if m / 8388608 = 0 then m else (8388608 + m % 8388608) * 2 ^ (m / 8388608 - 1)

/-- A pattern written as `sh` binades and a significand at most 2^24 stands for that significand shifted. -/
theorem gridUnits_shift (sh q : Nat) (hq : q ≤ 16777216) (hn : sh = 0 ∨ 8388608 ≤ q) :
    gridUnits (sh * 8388608 + q) = q * 2 ^ sh := by
  unfold gridUnits
  by_cases h1 : q < 8388608
  · have : sh = 0 := by omega
    subst this
    simp [Nat.div_eq_of_lt h1]
  · by_cases h2 : q < 16777216
    · have hd : (sh * 8388608 + q) / 8388608 = sh + 1 := by omega
      have hm : (sh * 8388608 + q) % 8388608 = q - 8388608 := by omega
      rw [hd, hm, if_neg (by omega), Nat.add_sub_cancel]
      rw [show 8388608 + (q - 8388608) = q by omega]
    · have hd : (sh * 8388608 + q) / 8388608 = sh + 2 := by omega
      have hm : (sh * 8388608 + q) % 8388608 = 0 := by omega
      rw [hd, hm, if_neg (by omega)]
      have e : sh + 2 - 1 = sh + 1 := by omega
      rw [e, Nat.pow_succ, show q = 8388608 * 2 by omega]; ring

theorem gridUnits_lt_succ (m : Nat) : gridUnits m < gridUnits (m + 1) := by
  by_cases h : m < 8388608
  · have h0 := gridUnits_shift 0 m (by omega) (.inl rfl)
    have h1 := gridUnits_shift 0 (m + 1) (by omega) (.inl rfl)
    simp only [Nat.zero_mul, Nat.zero_add, Nat.pow_zero, Nat.mul_one] at h0 h1
    omega
  · let sh := m / 8388608 - 1
    let q := m % 8388608 + 8388608
    have e0 : m = sh * 8388608 + q := by simp only [sh, q]; omega
    have h0 := gridUnits_shift sh q (by simp only [q]; omega) (.inr (by simp only [q]; omega))
    have h1 := gridUnits_shift sh (q + 1) (by simp only [q]; omega) (.inr (by simp only [q]; omega))
    rw [e0, h0, Nat.add_assoc, h1]
    exact Nat.mul_lt_mul_of_pos_right (Nat.lt_succ_self q) (Nat.two_pow_pos sh)

/-- The grid increases strictly. -/
theorem gridUnits_strictMono : StrictMono gridUnits := strictMono_nat_of_lt_succ gridUnits_lt_succ

/-- What rounding does (R12): the value lies between two neighbouring grid points p and p + 1; the nearer one is taken,
of two equally near ones the even one, and overflow gives infinity's pattern. -/
theorem roundMag_bracket (num den : Nat) (hd : 0 < den) :
    ∃ p, gridUnits p * den ≤ num ∧ num < gridUnits (p + 1) * den ∧
      roundMag num den = min
        (if 2 * num < (gridUnits p + gridUnits (p + 1)) * den then p
         else if (gridUnits p + gridUnits (p + 1)) * den < 2 * num then p + 1 else p + p % 2) 2139095040 := by
  obtain ⟨sh, hsh⟩ : ∃ sh, sh = (num / den).log2 - 23 := ⟨_, rfl⟩
  obtain ⟨d, hdd⟩ : ∃ d, d = den * 2 ^ sh := ⟨_, rfl⟩
  obtain ⟨q, hq⟩ : ∃ q, q = num / d := ⟨_, rfl⟩
  obtain ⟨r, hrr⟩ : ∃ r, r = num % d := ⟨_, rfl⟩
  have hround : roundMag num den =
      min (sh * 8388608 + (if 2 * r < d then q else if d < 2 * r then q + 1 else q + q % 2)) 2139095040 := by
    rw [hq, hrr, hdd, hsh]; rfl
  have hdpos : 0 < d := by rw [hdd]; exact Nat.mul_pos hd (Nat.two_pow_pos sh)
  have hqr : num = q * d + r := by rw [hq, hrr, Nat.mul_comm]; exact (Nat.div_add_mod num d).symm
  have hr : r < d := by rw [hrr]; exact Nat.mod_lt _ hdpos
  have hq1 : q = num / den / 2 ^ sh := by rw [hq, hdd, Nat.div_div_eq_div_mul]
  have hq2 : q < 16777216 := by
    rw [hq1]
    apply Nat.div_lt_of_lt_mul
    calc num / den < 2 ^ ((num / den).log2 + 1) := Nat.lt_log2_self
      _ ≤ 2 ^ (sh + 24) := Nat.pow_le_pow_right (by norm_num) (by omega)
      _ = 2 ^ sh * 16777216 := by rw [Nat.pow_add]
  have hq3 : sh = 0 ∨ 8388608 ≤ q := by
    by_cases hs : sh = 0
    · exact .inl hs
    · right
      rw [hq1, Nat.le_div_iff_mul_le (Nat.two_pow_pos sh)]
      have hne : num / den ≠ 0 := by
        intro h0; apply hs; rw [hsh, h0]; rfl
      calc 8388608 * 2 ^ sh = 2 ^ (23 + sh) := by rw [Nat.pow_add]
        _ = 2 ^ (num / den).log2 := by congr 1; omega
        _ ≤ num / den := Nat.log2_self_le hne
  have e0 : gridUnits (sh * 8388608 + q) * den = q * d := by
    rw [gridUnits_shift sh q (by omega) hq3, hdd]; ring
  have e1 : gridUnits (sh * 8388608 + q + 1) * den = q * d + d := by
    rw [Nat.add_assoc, gridUnits_shift sh (q + 1) (by omega) (by omega), hdd]; ring
  refine ⟨sh * 8388608 + q, by omega, by omega, ?_⟩
  rw [hround, Nat.add_mul, e0, e1]
  have hp : (sh * 8388608 + q) % 2 = q % 2 := by omega
  rw [hp]
  by_cases c1 : 2 * r < d
  · rw [if_pos c1, if_pos (show 2 * num < q * d + (q * d + d) by omega)]
  · rw [if_neg c1, if_neg (show ¬ 2 * num < q * d + (q * d + d) by omega)]
    by_cases c2 : d < 2 * r
    · rw [if_pos c2, if_pos (show q * d + (q * d + d) < 2 * num by omega), Nat.add_assoc]
    · rw [if_neg c2, if_neg (show ¬ q * d + (q * d + d) < 2 * num by omega), Nat.add_assoc]

/-- A value on the grid is kept. -/
theorem roundMag_grid {num den m : Nat} (hd : 0 < den) (h : num = gridUnits m * den) (hm : m ≤ 2139095040) :
    roundMag num den = m := by
  obtain ⟨p, h1, h2, h3⟩ := roundMag_bracket num den hd
  have hp : p = m := by
    rw [h] at h1 h2
    have a := gridUnits_strictMono.le_iff_le.1 (Nat.le_of_mul_le_mul_right h1 hd)
    have b := gridUnits_strictMono.lt_iff_lt.1 (Nat.lt_of_mul_lt_mul_right h2)
    omega
  subst hp
  rw [h3, if_pos, Nat.min_eq_left hm]
  rw [Nat.add_mul, h, Nat.two_mul]
  have := Nat.mul_lt_mul_of_pos_right (gridUnits_lt_succ p) hd
  omega

/-- Rounding is monotone (R258). -/
theorem roundMag_mono {num den num' den' : Nat} (hd : 0 < den) (hd' : 0 < den') (h : num * den' ≤ num' * den) :
    roundMag num den ≤ roundMag num' den' := by
  obtain ⟨p, h1, h2, h3⟩ := roundMag_bracket num den hd
  obtain ⟨p', h1', h2', h3'⟩ := roundMag_bracket num' den' hd'
  have hpp : p ≤ p' := by
    have : gridUnits p < gridUnits (p' + 1) := by
      apply Nat.lt_of_mul_lt_mul_right (a := den * den')
      calc gridUnits p * (den * den') = gridUnits p * den * den' := by ring
        _ ≤ num * den' := Nat.mul_le_mul_right _ h1
        _ ≤ num' * den := h
        _ < gridUnits (p' + 1) * den' * den := Nat.mul_lt_mul_of_pos_right h2' hd
        _ = gridUnits (p' + 1) * (den * den') := by ring
    have := gridUnits_strictMono.lt_iff_lt.1 this
    omega
  rw [h3, h3']
  apply min_le_min_right
  rcases Nat.lt_or_ge p p' with hlt | hge
  · have hm : ∀ n : Nat, n % 2 ≤ 1 := fun n => by omega
    have := hm p
    split
    · split <;> [omega; split <;> omega]
    · split
      · split <;> [omega; split <;> omega]
      · split <;> [omega; split <;> omega]
  · have : p = p' := by omega
    subst this
    set g := gridUnits p + gridUnits (p + 1)
    split
    · split <;> [omega; split <;> omega]
    · next c1 =>
      have c1' : g * den ≤ 2 * num := by omega
      have k1 : g * den' ≤ 2 * num' := by
        apply Nat.le_of_mul_le_mul_right (c := den) _ hd
        calc g * den' * den = g * den * den' := by ring
          _ ≤ 2 * num * den' := Nat.mul_le_mul_right _ c1'
          _ = 2 * (num * den') := by ring
          _ ≤ 2 * (num' * den) := Nat.mul_le_mul_left _ h
          _ = 2 * num' * den := by ring
      rw [if_neg (by omega : ¬ 2 * num' < g * den')]
      split
      · next c2 =>
        have k2 : g * den' < 2 * num' := by
          apply Nat.lt_of_mul_lt_mul_right (a := den)
          calc g * den' * den = g * den * den' := by ring
            _ < 2 * num * den' := Nat.mul_lt_mul_of_pos_right c2 hd'
            _ = 2 * (num * den') := by ring
            _ ≤ 2 * (num' * den) := Nat.mul_le_mul_left _ h
            _ = 2 * num' * den := by ring
        rw [if_pos k2]
      · split <;> omega


/-! ## Patterns -/

theorem gridUnits_zero : gridUnits 0 = 0 := rfl

/-- The 31 magnitude bits of a pattern. -/
def magBits (x : F32) : Nat := x.toNat % 2147483648

theorem magUnits_eq (x : F32) : magUnits x = gridUnits (magBits x) := by
  have e : magBits x / 8388608 = expField x := by unfold magBits expField; omega
  have f : magBits x % 8388608 = fracField x := by unfold magBits fracField; omega
  unfold magUnits gridUnits
  rw [e, f]
  split
  · next h => unfold magBits expField fracField at *; omega
  · rfl

theorem isFinite_iff (x : F32) : isFinite x = true ↔ magBits x < 2139095040 := by
  have := x.isLt
  unfold isFinite expField magBits
  rw [decide_eq_true_iff]
  omega

theorem isNaN_iff (x : F32) : isNaN x = true ↔ 2139095040 < magBits x := by
  have := x.isLt
  unfold isNaN expField fracField magBits
  rw [decide_eq_true_iff]
  omega

theorem isInf_iff (x : F32) : isInf x = true ↔ magBits x = 2139095040 := by
  have := x.isLt
  unfold isInf expField fracField magBits
  rw [decide_eq_true_iff]
  omega

theorem isNaN_of_finite {x : F32} (h : isFinite x = true) : isNaN x = false := by
  have := (isFinite_iff x).1 h
  rw [Bool.eq_false_iff, Ne, isNaN_iff]; omega

theorem isInf_of_finite {x : F32} (h : isFinite x = true) : isInf x = false := by
  have := (isFinite_iff x).1 h
  rw [Bool.eq_false_iff, Ne, isInf_iff]; omega

theorem packSign_toNat (neg : Bool) {m : Nat} (hm : m < 2147483648) :
    (packSign neg m).toNat = if neg then 2147483648 + m else m := by
  cases neg
  · simp [packSign, BitVec.toNat_ofNat]; omega
  · simp [packSign, BitVec.toNat_ofNat]; omega

theorem magBits_packSign (neg : Bool) {m : Nat} (hm : m < 2147483648) : magBits (packSign neg m) = m := by
  unfold magBits; rw [packSign_toNat neg hm]; cases neg <;> simp <;> omega

theorem isNeg_packSign (neg : Bool) {m : Nat} (hm : m < 2147483648) : isNeg (packSign neg m) = neg := by
  unfold isNeg; rw [packSign_toNat neg hm]; cases neg
  · simp; omega
  · simp

theorem roundMag_le (num den : Nat) : roundMag num den ≤ 2139095040 := Nat.min_le_right _ _

theorem orderKey_eq (x : F32) : orderKey x = if isNeg x then -(magBits x : Int) else (magBits x : Int) := rfl

theorem valUnits_eq (x : F32) :
    valUnits x = if isNeg x then -(gridUnits (magBits x) : Int) else (gridUnits (magBits x) : Int) := by
  unfold valUnits; rw [magUnits_eq]

theorem magBits_fneg (x : F32) : magBits (fneg x) = magBits x := by
  unfold magBits fneg
  rw [BitVec.toNat_xor, show (2147483648 : Nat) = 2 ^ 31 from rfl, Nat.xor_mod_two_pow]
  exact Nat.xor_zero _

theorem isNeg_fneg (x : F32) : isNeg (fneg x) = !isNeg x := by
  have hx := x.isLt
  have e : (fneg x).toNat / 2 ^ 31 = x.toNat / 2 ^ 31 ^^^ 1 := by
    unfold fneg; rw [BitVec.toNat_xor, Nat.xor_div_two_pow]; rfl
  have h : x.toNat / 2 ^ 31 = 0 ∨ x.toNat / 2 ^ 31 = 1 := by omega
  have hf := (fneg x).isLt
  unfold isNeg
  rcases h with h | h <;> rw [h] at e
  · have e' : (fneg x).toNat / 2 ^ 31 = 1 := e
    simp only [show (2147483648 ≤ (fneg x).toNat) by omega, show ¬ (2147483648 ≤ x.toNat) by omega, decide_true,
      decide_false, Bool.not_false]
  · have e' : (fneg x).toNat / 2 ^ 31 = 0 := e
    simp only [show ¬ (2147483648 ≤ (fneg x).toNat) by omega, show (2147483648 ≤ x.toNat) by omega, decide_true,
      decide_false, Bool.not_true]

theorem fabs_toNat (x : F32) : (fabs x).toNat = magBits x := by
  unfold fabs magBits
  rw [BitVec.toNat_and, show (0x7FFFFFFF#32 : BitVec 32).toNat = 2 ^ 31 - 1 from rfl, Nat.and_two_pow_sub_one_eq_mod]

theorem magBits_fabs (x : F32) : magBits (fabs x) = magBits x := by
  have : magBits x < 2147483648 := Nat.mod_lt _ (by norm_num)
  rw [magBits, fabs_toNat]; omega

theorem isNeg_fabs (x : F32) : isNeg (fabs x) = false := by
  have : magBits x < 2147483648 := Nat.mod_lt _ (by norm_num)
  unfold isNeg; rw [fabs_toNat]; simp; omega

theorem isFinite_fneg (x : F32) : isFinite (fneg x) = isFinite x := by
  rw [Bool.eq_iff_iff, isFinite_iff, isFinite_iff, magBits_fneg]

theorem isFinite_fabs (x : F32) : isFinite (fabs x) = isFinite x := by
  rw [Bool.eq_iff_iff, isFinite_iff, isFinite_iff, magBits_fabs]

theorem valUnits_fneg (x : F32) : valUnits (fneg x) = -valUnits x := by
  rw [valUnits_eq, valUnits_eq, magBits_fneg, isNeg_fneg]; cases isNeg x <;> simp

theorem valUnits_fabs (x : F32) : valUnits (fabs x) = |valUnits x| := by
  rw [valUnits_eq, valUnits_eq, magBits_fabs, isNeg_fabs]; cases isNeg x <;> simp

/-! ## The order -/

/-- The grid, signed: orders as the values do. -/
theorem valUnits_le_iff (a b : F32) : valUnits a ≤ valUnits b ↔ orderKey a ≤ orderKey b := by
  have mono := fun m n : Nat => gridUnits_strictMono.le_iff_le (a := m) (b := n)
  have z := fun m : Nat => (gridUnits_strictMono.le_iff_le (a := m) (b := 0))
  rw [gridUnits_zero] at z
  rw [valUnits_eq, valUnits_eq, orderKey_eq, orderKey_eq]
  have h1 := mono (magBits a) (magBits b)
  have h2 := mono (magBits b) (magBits a)
  have za := z (magBits a)
  have zb := z (magBits b)
  cases isNeg a <;> cases isNeg b <;> simp <;> omega

theorem valUnits_lt_iff (a b : F32) : valUnits a < valUnits b ↔ orderKey a < orderKey b := by
  have := valUnits_le_iff b a; omega

theorem toRat_le_iff (a b : F32) : toRat a ≤ toRat b ↔ orderKey a ≤ orderKey b := by
  unfold toRat
  rw [div_le_div_iff_of_pos_right (by norm_num), Int.cast_le, valUnits_le_iff]

theorem toRat_lt_iff (a b : F32) : toRat a < toRat b ↔ orderKey a < orderKey b := by
  rw [← not_le, toRat_le_iff, not_le]

/-- `<=` of finite values is the order of their values. -/
theorem fle_iff {a b : F32} (ha : isFinite a = true) (hb : isFinite b = true) :
    fle a b = true ↔ toRat a ≤ toRat b := by
  simp [fle, isNaN_of_finite ha, isNaN_of_finite hb, toRat_le_iff]

/-- `<` of finite values is the order of their values. -/
theorem flt_iff {a b : F32} (ha : isFinite a = true) (hb : isFinite b = true) :
    flt a b = true ↔ toRat a < toRat b := by
  simp [flt, isNaN_of_finite ha, isNaN_of_finite hb, toRat_lt_iff]

/-- `==` of finite values is equality of their values: +0.0 == -0.0. -/
theorem feq_iff {a b : F32} (ha : isFinite a = true) (hb : isFinite b = true) :
    feq a b = true ↔ toRat a = toRat b := by
  simp only [feq, isNaN_of_finite ha, isNaN_of_finite hb, Bool.not_false, Bool.true_and, decide_eq_true_eq]
  rw [le_antisymm_iff, le_antisymm_iff, toRat_le_iff, toRat_le_iff]

/-- A value in [0.0, 1.0], or anywhere between finite bounds, is finite. -/
theorem isFinite_of_between {a x b : F32} (ha : isFinite a = true) (hb : isFinite b = true) (h1 : fle a x = true)
    (h2 : fle x b = true) : isFinite x = true := by
  simp only [fle, Bool.and_eq_true, Bool.not_eq_true', decide_eq_true_eq] at h1 h2
  have hx : isNaN x = false := h1.1.2
  rw [isFinite_iff] at ha hb ⊢
  rw [Bool.eq_false_iff, Ne, isNaN_iff] at hx
  have e1 := h1.2
  have e2 := h2.2
  rw [orderKey_eq, orderKey_eq] at e1 e2
  cases hax : isNeg a <;> cases hxx : isNeg x <;> cases hbx : isNeg b <;> simp [hax, hxx, hbx] at e1 e2 <;> omega

/-! ## Minimum and maximum -/

/-- `max` of values that are no NaN is one of them and at least each, by the order. -/
theorem fmax_cases {a b : F32} (ha : isNaN a = false) (hb : isNaN b = false) :
    (fmax a b = a ∨ fmax a b = b) ∧ fle a (fmax a b) = true ∧ fle b (fmax a b) = true := by
  unfold fmax tieOf flt fle
  simp only [ha, hb, Bool.not_false, Bool.true_and, Bool.or_self, Bool.false_eq_true, if_false, decide_eq_true_eq]
  split
  · simp [hb]; omega
  · split
    · simp [ha]; omega
    · split
      · next h => subst h; simp [ha]
      · split <;> simp [ha, hb] <;> omega

/-- `min` of values that are no NaN is one of them and at most each, by the order. -/
theorem fmin_cases {a b : F32} (ha : isNaN a = false) (hb : isNaN b = false) :
    (fmin a b = a ∨ fmin a b = b) ∧ fle (fmin a b) a = true ∧ fle (fmin a b) b = true := by
  unfold fmin tieOf flt fle
  simp only [ha, hb, Bool.not_false, Bool.true_and, Bool.or_self, Bool.false_eq_true, if_false, decide_eq_true_eq]
  split
  · simp [ha]; omega
  · split
    · simp [hb]; omega
    · split
      · next h => subst h; simp [ha]
      · split <;> simp [ha, hb] <;> omega

/-! ## Results of arithmetic -/

/-- `r` is the rational q rounded (R12): the magnitude goes through `roundMag`, the sign is q's, free where q is 0. -/
def RoundOf (q : ℚ) (r : F32) : Prop :=
  ∃ (neg : Bool) (num den : Nat), 0 < den ∧ r = packSign neg (roundMag num den) ∧
    |q| = (num : ℚ) / ((den : ℚ) * (unitsPerOne : ℚ)) ∧ (q < 0 → neg = true) ∧ (0 < q → neg = false)

theorem RoundOf.magBits {q : ℚ} {r : F32} (h : RoundOf q r) : magBits r ≤ 2139095040 := by
  obtain ⟨neg, num, den, -, rfl, -⟩ := h
  rw [magBits_packSign neg (by have := roundMag_le num den; omega)]
  exact roundMag_le num den

/-- A rounded value is no NaN. -/
theorem RoundOf.not_nan {q : ℚ} {r : F32} (h : RoundOf q r) : isNaN r = false := by
  have := h.magBits
  rw [Bool.eq_false_iff, Ne, isNaN_iff]; omega

/-- Rounding is monotone (R258), by the order that `<=` decides. -/
theorem RoundOf.mono {q q' : ℚ} {r r' : F32} (h : RoundOf q r) (h' : RoundOf q' r') (hq : q ≤ q') :
    orderKey r ≤ orderKey r' := by
  obtain ⟨neg, num, den, hd, rfl, hv, hn, hp⟩ := h
  obtain ⟨neg', num', den', hd', rfl, hv', hn', hp'⟩ := h'
  have l := roundMag_le num den
  have l' := roundMag_le num' den'
  rw [orderKey_eq, orderKey_eq, magBits_packSign neg (by omega), magBits_packSign neg' (by omega),
    isNeg_packSign neg (by omega), isNeg_packSign neg' (by omega)]
  have u : (0 : ℚ) < (unitsPerOne : ℚ) := by norm_num
  have hdq : (0 : ℚ) < (den : ℚ) := by exact_mod_cast hd
  have hdq' : (0 : ℚ) < (den' : ℚ) := by exact_mod_cast hd'
  have cross : |q| ≤ |q'| → roundMag num den ≤ roundMag num' den' := fun hc => by
    apply roundMag_mono hd hd'
    rw [hv, hv', div_le_div_iff₀ (by positivity) (by positivity)] at hc
    have : (num : ℚ) * den' ≤ num' * den := by
      have := (mul_le_mul_iff_left₀ u).1 (by linarith : (num : ℚ) * den' * unitsPerOne ≤ num' * den * unitsPerOne)
      exact this
    exact_mod_cast this
  have cross' : |q'| ≤ |q| → roundMag num' den' ≤ roundMag num den := fun hc => by
    apply roundMag_mono hd' hd
    rw [hv, hv', div_le_div_iff₀ (by positivity) (by positivity)] at hc
    have : (num' : ℚ) * den ≤ num * den' := by
      have := (mul_le_mul_iff_left₀ u).1 (by linarith : (num' : ℚ) * den * unitsPerOne ≤ num * den' * unitsPerOne)
      exact this
    exact_mod_cast this
  have zero : q = 0 → roundMag num den = 0 := fun h0 => by
    have : (num : ℚ) = 0 := by
      rw [h0, abs_zero, eq_comm, div_eq_zero_iff] at hv
      rcases hv with hv | hv
      · exact hv
      · exact absurd hv (by positivity)
    have : num = 0 := by exact_mod_cast this
    subst this
    exact roundMag_grid hd (by simp [gridUnits_zero]) (by omega)
  have zero' : q' = 0 → roundMag num' den' = 0 := fun h0 => by
    have : (num' : ℚ) = 0 := by
      rw [h0, abs_zero, eq_comm, div_eq_zero_iff] at hv'
      rcases hv' with hv | hv
      · exact hv
      · exact absurd hv (by positivity)
    have : num' = 0 := by exact_mod_cast this
    subst this
    exact roundMag_grid hd' (by simp [gridUnits_zero]) (by omega)
  rcases lt_trichotomy q 0 with c | c | c
  · rw [hn c]
    rcases lt_trichotomy q' 0 with c' | c' | c'
    · rw [hn' c']
      have := cross' (by rw [abs_of_neg c, abs_of_neg c']; linarith)
      simp; omega
    · rw [zero' c']; simp
    · rw [hp' c']; simp
  · rw [zero c]
    rcases lt_trichotomy q' 0 with c' | c' | c'
    · linarith
    · rw [zero' c']; simp
    · rw [hp' c']; simp
  · have c' : 0 < q' := lt_of_lt_of_le c hq
    rw [hp c, hp' c']
    have := cross (by rw [abs_of_pos c, abs_of_pos c']; exact hq)
    simp; omega

theorem toRat_eq (x : F32) : toRat x = (if isNeg x then -1 else 1) * ((gridUnits (magBits x) : ℚ) / (unitsPerOne : ℚ)) := by
  unfold toRat; rw [valUnits_eq]; split <;> push_cast <;> ring

/-- A finite value is its own rounding. -/
theorem RoundOf.refl {x : F32} (h : isFinite x = true) : RoundOf (toRat x) x := by
  have hm := (isFinite_iff x).1 h
  have hx := x.isLt
  refine ⟨isNeg x, gridUnits (Machine.magBits x), 1, one_pos, ?_, ?_, ?_, ?_⟩
  · rw [roundMag_grid one_pos (m := Machine.magBits x) (by ring) (by omega)]
    apply BitVec.eq_of_toNat_eq
    rw [packSign_toNat _ (by omega)]
    unfold isNeg Machine.magBits
    by_cases c : 2147483648 ≤ x.toNat <;> simp [c] <;> omega
  · rw [toRat_eq, abs_mul, abs_of_nonneg (a := _ / _) (by positivity)]
    split <;> simp
  · intro c
    rw [toRat_eq] at c
    by_contra hc
    rw [if_neg hc, one_mul] at c
    have : (0 : ℚ) ≤ (gridUnits (Machine.magBits x) : ℚ) / (unitsPerOne : ℚ) := by positivity
    linarith
  · intro c
    rw [toRat_eq] at c
    by_contra hc
    rw [Bool.not_eq_false] at hc
    rw [if_pos hc] at c
    have : (0 : ℚ) ≤ (gridUnits (Machine.magBits x) : ℚ) / (unitsPerOne : ℚ) := by positivity
    linarith

/-- A result that is a finite value exactly is that value. -/
theorem RoundOf.exact {x r : F32} (hx : isFinite x = true) (h : RoundOf (toRat x) r) :
    isFinite r = true ∧ toRat r = toRat x := by
  have e : orderKey r = orderKey x := le_antisymm (h.mono (.refl hx) le_rfl) ((RoundOf.refl hx).mono h le_rfl)
  have hm := (isFinite_iff x).1 hx
  constructor
  · rw [isFinite_iff]
    rw [orderKey_eq, orderKey_eq] at e
    split at e <;> split at e <;> omega
  · exact le_antisymm ((toRat_le_iff _ _).2 e.le) ((toRat_le_iff _ _).2 e.ge)

/-- A rounded value lies between finite bounds that its exact value lies between (R258). -/
theorem RoundOf.between {a b r : F32} {q : ℚ} (ha : isFinite a = true) (hb : isFinite b = true) (h : RoundOf q r)
    (h1 : toRat a ≤ q) (h2 : q ≤ toRat b) : fle a r = true ∧ fle r b = true ∧ isFinite r = true := by
  have k1 := (RoundOf.refl ha).mono h h1
  have k2 := h.mono (.refl hb) h2
  have e1 : fle a r = true := by simp [fle, isNaN_of_finite ha, h.not_nan, k1]
  have e2 : fle r b = true := by simp [fle, isNaN_of_finite hb, h.not_nan, k2]
  exact ⟨e1, e2, isFinite_of_between ha hb e1 e2⟩

theorem roundOf_fadd {a b : F32} (ha : isFinite a = true) (hb : isFinite b = true) :
    RoundOf (toRat a + toRat b) (fadd a b) := by
  unfold fadd
  simp only [isNaN_of_finite ha, isNaN_of_finite hb, isInf_of_finite ha, isInf_of_finite hb, Bool.or_self,
    Bool.false_eq_true, if_false]
  have hs : toRat a + toRat b = ((valUnits a + valUnits b : Int) : ℚ) / (unitsPerOne : ℚ) := by
    unfold toRat; push_cast; ring
  rw [hs]
  generalize valUnits a + valUnits b = v
  have u : (0 : ℚ) < (unitsPerOne : ℚ) := by norm_num
  split
  · next h0 =>
    refine ⟨isNeg a && isNeg b, 0, 1, one_pos, ?_, ?_, ?_, ?_⟩
    · rw [roundMag_grid one_pos (m := 0) (by simp [gridUnits_zero]) (by omega)]
    · simp [h0]
    · simp [h0]
    · simp [h0]
  · next h0 =>
    refine ⟨_, v.natAbs, 1, one_pos, rfl, ?_, ?_, ?_⟩
    · rw [abs_div, abs_of_pos u, Nat.cast_one, one_mul, ← Int.cast_abs, Int.abs_eq_natAbs, Int.cast_natCast]
    · intro h
      have : (v : ℚ) < 0 := by
        by_contra hc; exact absurd h (not_lt.2 (div_nonneg (not_lt.1 hc) u.le))
      simpa using this
    · intro h
      have : 0 < (v : ℚ) := by
        by_contra hc; exact absurd h (not_lt.2 (div_nonpos_of_nonpos_of_nonneg (not_lt.1 hc) u.le))
      have : 0 < v := by exact_mod_cast this
      simp; omega

theorem toRat_fneg (x : F32) : toRat (fneg x) = -toRat x := by
  unfold toRat; rw [valUnits_fneg]; push_cast; ring

theorem toRat_fabs (x : F32) : toRat (fabs x) = |toRat x| := by
  unfold toRat; rw [valUnits_fabs, abs_div, Int.cast_abs]; norm_num

theorem roundOf_fsub {a b : F32} (ha : isFinite a = true) (hb : isFinite b = true) :
    RoundOf (toRat a - toRat b) (fsub a b) := by
  have := roundOf_fadd ha ((isFinite_fneg b).trans hb)
  rw [toRat_fneg, ← sub_eq_add_neg] at this
  exact this

theorem toRat_abs (x : F32) : |toRat x| = (magUnits x : ℚ) / (unitsPerOne : ℚ) := by
  rw [toRat_eq, magUnits_eq, abs_mul, abs_of_nonneg (a := _ / _) (by positivity)]
  split <;> simp

theorem isNeg_of_toRat_neg {x : F32} (h : toRat x < 0) : isNeg x = true := by
  rw [toRat_eq] at h
  by_contra hc
  rw [if_neg hc, one_mul] at h
  have : (0 : ℚ) ≤ (gridUnits (magBits x) : ℚ) / (unitsPerOne : ℚ) := by positivity
  linarith

theorem isNeg_of_toRat_pos {x : F32} (h : 0 < toRat x) : isNeg x = false := by
  rw [toRat_eq] at h
  by_contra hc
  rw [Bool.not_eq_false] at hc
  rw [if_pos hc] at h
  have : (0 : ℚ) ≤ (gridUnits (magBits x) : ℚ) / (unitsPerOne : ℚ) := by positivity
  linarith

/-- The sign of a product or a quotient that is not zero. -/
theorem sign_of_mul {a b : F32} :
    (toRat a * toRat b < 0 → (isNeg a != isNeg b) = true) ∧ (0 < toRat a * toRat b → (isNeg a != isNeg b) = false) := by
  constructor
  · intro h
    rcases mul_neg_iff.1 h with ⟨h1, h2⟩ | ⟨h1, h2⟩
    · rw [isNeg_of_toRat_pos h1, isNeg_of_toRat_neg h2]; rfl
    · rw [isNeg_of_toRat_neg h1, isNeg_of_toRat_pos h2]; rfl
  · intro h
    rcases mul_pos_iff.1 h with ⟨h1, h2⟩ | ⟨h1, h2⟩
    · rw [isNeg_of_toRat_pos h1, isNeg_of_toRat_pos h2]; rfl
    · rw [isNeg_of_toRat_neg h1, isNeg_of_toRat_neg h2]; rfl

theorem roundOf_fmul {a b : F32} (ha : isFinite a = true) (hb : isFinite b = true) :
    RoundOf (toRat a * toRat b) (fmul a b) := by
  unfold fmul
  simp only [isNaN_of_finite ha, isNaN_of_finite hb, isInf_of_finite ha, isInf_of_finite hb, Bool.or_self,
    Bool.false_eq_true, if_false]
  refine ⟨_, _, _, by norm_num, rfl, ?_, sign_of_mul.1, sign_of_mul.2⟩
  rw [abs_mul, toRat_abs, toRat_abs]; push_cast; ring

theorem roundOf_fdiv {a b : F32} (ha : isFinite a = true) (hb : isFinite b = true) (h0 : toRat b ≠ 0) :
    RoundOf (toRat a / toRat b) (fdiv a b) := by
  have hm : magUnits b ≠ 0 := fun h => h0 (by
    have := toRat_abs b; rw [h, Nat.cast_zero, zero_div] at this; exact abs_eq_zero.1 this)
  unfold fdiv
  simp only [isNaN_of_finite ha, isNaN_of_finite hb, isInf_of_finite ha, isInf_of_finite hb, Bool.or_self,
    Bool.false_eq_true, if_false, hm]
  have key : toRat a / toRat b = toRat a * toRat b / (toRat b) ^ 2 := by field_simp
  have sq : 0 < (toRat b) ^ 2 := by positivity
  refine ⟨_, _, _, Nat.pos_of_ne_zero hm, rfl, ?_, fun h => sign_of_mul.1 ?_, fun h => sign_of_mul.2 ?_⟩
  · rw [abs_div, toRat_abs, toRat_abs]
    have : (magUnits b : ℚ) ≠ 0 := by exact_mod_cast hm
    push_cast; field_simp
  · rw [key] at h; by_contra hc; exact absurd h (not_lt.2 (div_nonneg (not_lt.1 hc) sq.le))
  · rw [key] at h; by_contra hc; exact absurd h (not_lt.2 (div_nonpos_of_nonpos_of_nonneg (not_lt.1 hc) sq.le))

theorem roundOf_ofInt (k : Int) : RoundOf (k : ℚ) (ofInt k) := by
  refine ⟨_, _, _, one_pos, rfl, ?_, fun h => ?_, fun h => ?_⟩
  · rw [← Int.cast_abs, Int.abs_eq_natAbs, Int.cast_natCast]; push_cast; field_simp
  · have : k < 0 := by exact_mod_cast h
    simpa using this
  · have : 0 < k := by exact_mod_cast h
    simp; omega

/-! ## Values on the grid -/

/-- A significand of at most 24 bits, shifted, is a grid point. -/
theorem exists_gridUnits : ∀ (e n : Nat), n ≤ 16777216 → ∃ m, gridUnits m = n * 2 ^ e
  | 0, n, hn => ⟨n, by have := gridUnits_shift 0 n hn (.inl rfl); simpa using this⟩
  | e + 1, n, hn => by
    by_cases h : n < 8388608
    · obtain ⟨m, hm⟩ := exists_gridUnits e (2 * n) (by omega)
      exact ⟨m, by rw [hm, Nat.pow_succ]; ring⟩
    · exact ⟨(e + 1) * 8388608 + n, gridUnits_shift (e + 1) n hn (.inr (by omega))⟩

/-- An integer of at most 24 bits times a power of two, in range, is a binary32 value. -/
theorem exists_finite (k : Int) (e : Nat) (hk : k.natAbs ≤ 16777216) (hr : k.natAbs * 2 ^ e < 8388608 * 2 ^ 254) :
    ∃ x : F32, isFinite x = true ∧ toRat x = (k : ℚ) * 2 ^ e / (unitsPerOne : ℚ) := by
  obtain ⟨m, hm⟩ := exists_gridUnits e k.natAbs hk
  have hlt : m < 2139095040 := by
    have top : gridUnits 2139095040 = 8388608 * 2 ^ 254 := gridUnits_shift 254 8388608 (by omega) (.inr le_rfl)
    rw [← gridUnits_strictMono.lt_iff_lt, hm, top]
    exact hr
  refine ⟨packSign (decide (k < 0)) m, ?_, ?_⟩
  · rw [isFinite_iff, magBits_packSign _ (by omega)]; exact hlt
  · rw [toRat_eq, magBits_packSign _ (by omega), isNeg_packSign _ (by omega), hm]
    push_cast
    have : ((k.natAbs : Nat) : ℚ) = |(k : ℚ)| := by rw [← Int.cast_abs, Int.abs_eq_natAbs, Int.cast_natCast]
    rw [this]
    by_cases h : k < 0
    · have hq : (k : ℚ) < 0 := by exact_mod_cast h
      rw [abs_of_neg hq]; simp [h]; ring
    · have hq : 0 ≤ (k : ℚ) := by exact_mod_cast not_lt.1 h
      rw [abs_of_nonneg hq]; simp [h]

/-- An integer of at most 24 bits converts exactly (R12). -/
theorem ofInt_exact (k : Int) (hk : k.natAbs ≤ 16777216) : isFinite (ofInt k) = true ∧ toRat (ofInt k) = (k : ℚ) := by
  obtain ⟨x, hx, hv⟩ := exists_finite k 149 hk (by
    calc k.natAbs * 2 ^ 149 ≤ 16777216 * 2 ^ 149 := Nat.mul_le_mul_right _ hk
      _ < 8388608 * 2 ^ 254 := by norm_num)
  have hv' : toRat x = (k : ℚ) := by rw [hv]; push_cast; field_simp
  have := RoundOf.exact hx (hv' ▸ roundOf_ofInt k)
  exact ⟨this.1, this.2.trans hv'⟩

/-! ## Bounds -/

/-- A magnitude of at most a grid point rounds to at most that point. -/
theorem roundMag_le_of_le {num den m : Nat} (hd : 0 < den) (h : num ≤ gridUnits m * den) (hm : m ≤ 2139095040) :
    roundMag num den ≤ m := by
  have := roundMag_mono (num := num) (num' := gridUnits m * den) hd hd (Nat.mul_le_mul_right den h)
  rwa [roundMag_grid hd rfl hm] at this

theorem isFinite_of_le {x : F32} {m : Nat} (h : magBits x ≤ m) (hm : m < 2139095040) : isFinite x = true :=
  (isFinite_iff x).2 (by omega)

theorem magUnits_le {x : F32} {m : Nat} (h : magBits x ≤ m) : magUnits x ≤ gridUnits m := by
  rw [magUnits_eq]; exact gridUnits_strictMono.monotone h

theorem magBits_ofInt_le {k : Int} {m : Nat} (h : k.natAbs * unitsPerOne ≤ gridUnits m) (hm : m ≤ 2139095040) :
    magBits (ofInt k) ≤ m := by
  have := roundMag_le_of_le (num := k.natAbs * unitsPerOne) (den := 1) (m := m) (by norm_num) (by simpa using h) hm
  unfold ofInt
  rw [magBits_packSign _ (by omega)]
  exact this

/-- A sum whose exact magnitude is at most a grid point has at most that magnitude (R12). -/
theorem magBits_fadd_le {a b : F32} {m : Nat} (ha : isFinite a = true) (hb : isFinite b = true)
    (h : magUnits a + magUnits b ≤ gridUnits m) (hm : m ≤ 2139095040) : magBits (fadd a b) ≤ m := by
  have hv : (valUnits a + valUnits b).natAbs ≤ gridUnits m := by unfold valUnits; split <;> split <;> omega
  have := roundMag_le_of_le (den := 1) (by norm_num) (by simpa using hv) hm
  unfold fadd
  simp only [isNaN_of_finite ha, isNaN_of_finite hb, isInf_of_finite ha, isInf_of_finite hb, Bool.or_self, Bool.false_eq_true,
    if_false]
  split
  · rw [magBits_packSign _ (by norm_num)]; omega
  · rw [magBits_packSign _ (by omega)]; exact this

theorem magBits_fsub_le {a b : F32} {m : Nat} (ha : isFinite a = true) (hb : isFinite b = true)
    (h : magUnits a + magUnits b ≤ gridUnits m) (hm : m ≤ 2139095040) : magBits (fsub a b) ≤ m :=
  magBits_fadd_le ha (by rwa [isFinite_fneg]) (by rwa [magUnits_eq (fneg b), magBits_fneg, ← magUnits_eq]) hm

/-- A product whose exact magnitude is at most a grid point has at most that magnitude (R12). -/
theorem magBits_fmul_le {a b : F32} {m : Nat} (ha : isFinite a = true) (hb : isFinite b = true)
    (h : magUnits a * magUnits b ≤ gridUnits m * unitsPerOne) (hm : m ≤ 2139095040) : magBits (fmul a b) ≤ m := by
  have := roundMag_le_of_le (by norm_num) h hm
  unfold fmul
  simp only [isNaN_of_finite ha, isNaN_of_finite hb, isInf_of_finite ha, isInf_of_finite hb, Bool.or_self, Bool.false_eq_true,
    if_false]
  rw [magBits_packSign _ (by omega)]
  exact this

/-- A quotient by a divisor other than zero whose exact magnitude is at most a grid point has at most that magnitude (R12). -/
theorem magBits_fdiv_le {a b : F32} {m : Nat} (ha : isFinite a = true) (hb : isFinite b = true) (h0 : 0 < magUnits b)
    (h : magUnits a * unitsPerOne ≤ gridUnits m * magUnits b) (hm : m ≤ 2139095040) : magBits (fdiv a b) ≤ m := by
  have := roundMag_le_of_le h0 h hm
  unfold fdiv
  simp only [isNaN_of_finite ha, isNaN_of_finite hb, isInf_of_finite ha, isInf_of_finite hb, Bool.or_self, Bool.false_eq_true,
    if_false, Nat.ne_of_gt h0]
  rw [magBits_packSign _ (by omega)]
  exact this

theorem magBits_ofInt_nat_le {k e : Nat} (m : Nat) (hg : gridUnits m = 2 ^ (149 + e)) (h : k ≤ 2 ^ e) (hm : m ≤ 2139095040) :
    magBits (ofInt (k : Int)) ≤ m :=
  magBits_ofInt_le (by
    rw [hg, Int.natAbs_natCast, unitsPerOne, Nat.pow_add, Nat.mul_comm]; exact Nat.mul_le_mul_left _ h) hm

/-- Two values of magnitude at most 1.0, mixed at a weight of magnitude at most 4.0. -/
theorem mix_finite {a b w : F32} (ha : magBits a ≤ 0x3F800000) (hb : magBits b ≤ 0x3F800000) (hw : magBits w ≤ 0x40800000) :
    isFinite (fadd a (fmul w (fsub b a))) = true := by
  have fin : ∀ {x : F32} (n : Nat), magBits x ≤ n → n < 2139095040 → isFinite x = true := fun n h hn => isFinite_of_le h hn
  have g1 : gridUnits 0x3F800000 = 2 ^ 149 := by decide
  have g2 : gridUnits 0x40000000 = 2 ^ 150 := by decide
  have g4 : gridUnits 0x40800000 = 2 ^ 151 := by decide
  have g8 : gridUnits 0x41000000 = 2 ^ 152 := by decide
  have g16 : gridUnits 0x41800000 = 2 ^ 153 := by decide
  have ua := magUnits_le ha
  have ub := magUnits_le hb
  have uw := magUnits_le hw
  rw [g1] at ua ub
  rw [g4] at uw
  have fa := fin _ ha (by norm_num)
  have bd : magBits (fsub b a) ≤ 0x40000000 :=
    magBits_fsub_le (fin _ hb (by norm_num)) fa (by rw [g2]; omega) (by norm_num)
  have ud := magUnits_le bd
  rw [g2] at ud
  have bm : magBits (fmul w (fsub b a)) ≤ 0x41000000 :=
    magBits_fmul_le (fin _ hw (by norm_num)) (fin _ bd (by norm_num)) (by
      rw [g8]
      exact (Nat.mul_le_mul uw ud).trans (by norm_num [unitsPerOne])) (by norm_num)
  have um := magUnits_le bm
  rw [g8] at um
  exact fin 0x41800000 (magBits_fadd_le fa (fin _ bm (by norm_num)) (by rw [g16]; omega) (by norm_num)) (by norm_num)

end Sys2Proof.Machine
end

