-- ==== Sys2Proof/Laws/Bank.lean ====
section
/-! SUPPORT. The bank: the ideal values have a magnitude of at most 1, R187's requirement can be met, and the stored bank meets
it. -/

namespace Sys2Proof.Machine

/-- A table's samples are the values it was made of. -/
@[simp] theorem tableAt_tabulate (f : Nat → F32) {i : Nat} (h : i < 2048) : tableAt (tabulate f) i = f i := by
  simp [tableAt, tabulate, h]

/-- No value of a table exceeds the table's peak (R186). -/
theorem abs_le_tablePeak (x : Nat → ℝ) {i : Nat} (h : i < 2048) : |x i| ≤ tablePeak x :=
  Finset.le_sup' (fun i => |x i|) (Finset.mem_range.2 h)

/-- The peak is the magnitude of one of the values (R186). -/
theorem exists_tablePeak (x : Nat → ℝ) : ∃ i, i < 2048 ∧ |x i| = tablePeak x := by
  obtain ⟨i, hi, e⟩ := Finset.exists_mem_eq_sup' (s := Finset.range 2048) ⟨0, by simp⟩ fun i => |x i|
  exact ⟨i, Finset.mem_range.1 hi, e.symm⟩

/-- A normalised value has a magnitude of at most 1 (R186). -/
theorem idealValue_abs_le (P : Params) (sr : F32) (k : Kind) (n : Key) {i : Nat} (h : i < 2048) :
    |idealValue P sr k n i| ≤ 1 := by
  have h1 := abs_le_tablePeak (idealReal k n.toNat sr) h
  have h0 : 0 ≤ max (tablePeak (idealReal k n.toNat sr)) (toRat P.peakFloor : ℝ) :=
    le_max_of_le_left ((abs_nonneg _).trans h1)
  unfold idealValue
  rw [abs_div, abs_of_nonneg h0]
  exact div_le_one_of_le₀ (h1.trans (le_max_left _ _)) h0

/-- Every real of magnitude at most 1 has a binary32 within 2^-24. -/
theorem exists_near {y : ℝ} (h : |y| ≤ 1) : ∃ x : F32, isFinite x = true ∧ |(toRat x : ℝ) - y| ≤ 1 / 2 ^ 24 := by
  have hb := abs_le.1 h
  have hlo : (-16777216 : Int) ≤ ⌊y * 16777216⌋ := Int.le_floor.2 (by push_cast; linarith)
  have hhi : ⌊y * 16777216⌋ ≤ (16777216 : Int) := by
    have : (⌊y * 16777216⌋ : ℝ) ≤ 16777216 := (Int.floor_le _).trans (by linarith)
    exact_mod_cast this
  obtain ⟨x, hx, hv⟩ := exists_finite ⌊y * 16777216⌋ 125 (by omega) (by
    calc (⌊y * 16777216⌋).natAbs * 2 ^ 125 ≤ 16777216 * 2 ^ 125 := Nat.mul_le_mul_right _ (by omega)
      _ < 8388608 * 2 ^ 254 := by norm_num)
  have hv' : (toRat x : ℝ) = (⌊y * 16777216⌋ : ℝ) / 16777216 := by
    rw [hv]; push_cast; norm_num; ring
  have h1 := Int.floor_le (y * 16777216)
  have h2 := Int.lt_floor_add_one (y * 16777216)
  refine ⟨x, hx, ?_⟩
  rw [hv', abs_le]
  constructor
  · have : (⌊y * 16777216⌋ : ℝ) / 16777216 ≥ (y * 16777216 - 1) / 16777216 := by gcongr; linarith
    norm_num; linarith
  · have : (⌊y * 16777216⌋ : ℝ) / 16777216 ≤ (y * 16777216) / 16777216 := by gcongr
    norm_num; linarith

/-- R187 can be met: from 2^-24 on, GEN_TOL admits a genRound. -/
theorem exists_storedBank {P : Params} (h : 1 / 2 ^ 24 ≤ toRat P.genTol) : ∃ b, IsStoredBank P b := by
  have key : ∀ y : ℝ, ∃ x : F32, |y| ≤ 1 → isFinite x = true ∧ |(toRat x : ℝ) - y| ≤ 1 / 2 ^ 24 := fun y => by
    by_cases hy : |y| ≤ 1
    · obtain ⟨x, hx⟩ := exists_near hy; exact ⟨x, fun _ => hx⟩
    · exact ⟨f0, fun h => absurd h hy⟩
  choose g hg using key
  refine ⟨fun sr k n => tabulate fun i => g (idealValue P sr k n i), g, fun sr k n i hi => ?_, fun sr k n i hi => ?_⟩
  · obtain ⟨a, b⟩ := hg _ (idealValue_abs_le P sr k n hi)
    have : (((1 / 2 ^ 24 : ℚ)) : ℝ) ≤ (toRat P.genTol : ℝ) := Rat.cast_le.2 h
    push_cast at this
    exact ⟨a, b.trans this⟩
  · exact tableAt_tabulate _ hi

/-- The stored bank is one R187 admits. -/
theorem storedBank_isStoredBank {P : Params} (h : 1 / 2 ^ 24 ≤ toRat P.genTol) : IsStoredBank P (storedBank P) :=
  Subtype.property (@Config.storedBank (StoredBank P) ⟨Config.noValue (storedBank_nonempty P) 0⟩) (exists_storedBank h)

end Sys2Proof.Machine
end

