-- ==== Sys2Proof/Laws/Decode.lean ====
section
/-! SUPPORT. The fields of a word the encoder writes, and what the decoder does with a word list, each said once. -/

namespace Sys2Proof

/-- Every opcode is a byte (R145). -/
theorem opcode_code_lt (o : Opcode) : o.code < 256 := by cases o <;> decide

/-- The opcode map is one to one (R145). -/
theorem ofCode_code (o : Opcode) : Opcode.ofCode o.code = some o := by cases o <;> rfl

/-- Only an opcode's own code names it. -/
theorem code_of_ofCode {n : Nat} {o : Opcode} (h : Opcode.ofCode n = some o) : n = o.code := by
  have small : ∀ k : Fin 256, (Opcode.ofCode k).all (fun o => decide ((k : Nat) = o.code)) = true := by decide +kernel
  by_cases hn : n < 256
  · simpa [h] using small ⟨n, hn⟩
  · exfalso
    have : Opcode.ofCode n = none := by
      unfold Opcode.ofCode
      repeat rw [if_neg (by omega)]
    rw [this] at h; cases h

/-! ## Fields of an encoded word 0 (R141) -/

theorem word0_toNat {op ch a b : Nat} (hop : op < 256) (h : ch * 65536 + a * 256 + b < 16777216) :
    (word0 op ch a b).toNat = op * 16777216 + ch * 65536 + a * 256 + b := by
  unfold word0
  rw [BitVec.toNat_ofNat]
  omega

theorem word0_fieldOP {op ch a b : Nat} (hop : op < 256) (h : ch * 65536 + a * 256 + b < 16777216) :
    fieldOP (word0 op ch a b) = op := by
  unfold fieldOP; rw [word0_toNat hop h]; omega

theorem word0_fieldCH {op ch a b : Nat} (hop : op < 256) (hch : ch < 256) (ha : a < 256) (hb : b < 256) :
    fieldCH (word0 op ch a b) = ch := by
  unfold fieldCH; rw [word0_toNat hop (by omega)]; omega

theorem word0_fieldCH_d16 {op ch d : Nat} (hop : op < 256) (hch : ch < 256) (hd : d < 65536) :
    fieldCH (word0 op ch 0 d) = ch := by
  unfold fieldCH; rw [word0_toNat hop (by omega)]; omega

theorem word0_fieldA {op ch a b : Nat} (hop : op < 256) (hch : ch < 256) (ha : a < 256) (hb : b < 256) :
    fieldA (word0 op ch a b) = a := by
  unfold fieldA; rw [word0_toNat hop (by omega)]; omega

theorem word0_fieldB {op ch a b : Nat} (hop : op < 256) (hch : ch < 256) (ha : a < 256) (hb : b < 256) :
    fieldB (word0 op ch a b) = b := by
  unfold fieldB; rw [word0_toNat hop (by omega)]; omega

theorem word0_fieldD16 {op ch d : Nat} (hop : op < 256) (hch : ch < 256) (hd : d < 65536) :
    fieldD16 (word0 op ch 0 d) = d := by
  unfold fieldD16; rw [word0_toNat hop (by omega)]; omega

/-- A word of the opcode's code names the opcode. -/
theorem opcodeOf_word0 (o : Opcode) {ch a b : Nat} (h : ch * 65536 + a * 256 + b < 16777216) :
    opcodeOf (word0 o.code ch a b) = some o := by
  unfold opcodeOf; rw [word0_fieldOP (opcode_code_lt o) h, ofCode_code]

theorem u32Word_toNat {n : Nat} (h : n < 4294967296) : (u32Word n).toNat = n := by
  unfold u32Word; rw [BitVec.toNat_ofNat]; omega

/-! ## The decoder -/

/-- A word list whose first word has an assigned opcode: the arguments the opcode needs are taken, or it is
incomplete (R140, R145). -/
theorem decode_assigned {w : Word} {op : Opcode} (args : List Word) (h : opcodeOf w = some op) :
    decode (w :: args) =
      if args.length < op.nargs then .error (.incomplete op args.length)
      else .ok (assemble op (w :: args.take op.nargs), args.drop op.nargs) := by
  simp only [decode, h]

/-- A word list whose first word has no assigned opcode (R147). -/
theorem decode_unassigned {w : Word} (args : List Word) (h : opcodeOf w = none) :
    decode (w :: args) = .error (.unassigned (fieldOP w)) := by
  simp only [decode, h]

/-- What a successful decoding is. -/
theorem decode_ok {ws rest : List Word} {i : Instr} (h : decode ws = .ok (i, rest)) :
    ∃ w args op, ws = w :: args ∧ opcodeOf w = some op ∧ op.nargs ≤ args.length ∧
      i = assemble op (w :: args.take op.nargs) ∧ rest = args.drop op.nargs := by
  cases ws with
  | nil => simp [decode] at h
  | cons w args =>
    cases ho : opcodeOf w with
    | none => rw [decode_unassigned args ho] at h; simp at h
    | some op =>
      rw [decode_assigned args ho] at h
      split at h
      · simp at h
      · next hn =>
        simp only [Except.ok.injEq, Prod.mk.injEq] at h
        exact ⟨w, args, op, rfl, ho, by omega, h.1.symm, h.2.symm⟩

end Sys2Proof
end

