-- ==== Sys2Proof/Laws/State.lean ====
section
/-! SUPPORT. The state's small lemmas: one per field per named update, and reading lanes after writing them. -/

namespace Sys2Proof.Machine

/-! ## One lemma per field per update -/

@[simp] theorem setChan_cfg (s : State) (c : Nat) (x : Channel) : (s.setChan c x).cfg = s.cfg := rfl
@[simp] theorem setChan_sr (s : State) (c : Nat) (x : Channel) : (s.setChan c x).sr = s.sr := rfl
@[simp] theorem setChan_bankSr (s : State) (c : Nat) (x : Channel) : (s.setChan c x).bankSr = s.bankSr := rfl
@[simp] theorem setChan_wave (s : State) (c : Nat) (x : Channel) : (s.setChan c x).wave = s.wave := rfl
@[simp] theorem setChan_custom (s : State) (c : Nat) (x : Channel) : (s.setChan c x).custom = s.custom := rfl
@[simp] theorem setChan_regions (s : State) (c : Nat) (x : Channel) : (s.setChan c x).regions = s.regions := rfl
@[simp] theorem setChan_stream (s : State) (c : Nat) (x : Channel) : (s.setChan c x).stream = s.stream := rfl
@[simp] theorem setChan_dec (s : State) (c : Nat) (x : Channel) : (s.setChan c x).dec = s.dec := rfl
@[simp] theorem setChan_cmdq (s : State) (c : Nat) (x : Channel) : (s.setChan c x).cmdq = s.cmdq := rfl
@[simp] theorem setChan_respq (s : State) (c : Nat) (x : Channel) : (s.setChan c x).respq = s.respq := rfl
@[simp] theorem setChan_lanes (s : State) (c : Nat) (x : Channel) : (s.setChan c x).lanes = s.lanes.set c { s.lane c with chan := x } := rfl
@[simp] theorem setChan_payload (s : State) (c : Nat) (x : Channel) : (s.setChan c x).payload = s.payload := rfl
@[simp] theorem setChan_work (s : State) (c : Nat) (x : Channel) : (s.setChan c x).work = s.work := rfl
@[simp] theorem setChan_turns (s : State) (c : Nat) (x : Channel) : (s.setChan c x).turns = s.turns := rfl
@[simp] theorem setChan_host (s : State) (c : Nat) (x : Channel) : (s.setChan c x).host = s.host := rfl
@[simp] theorem setChan_draws (s : State) (c : Nat) (x : Channel) : (s.setChan c x).draws = s.draws := rfl
@[simp] theorem setChan_drawNo (s : State) (c : Nat) (x : Channel) : (s.setChan c x).drawNo = s.drawNo := rfl
@[simp] theorem setChan_outs (s : State) (c : Nat) (x : Channel) : (s.setChan c x).outs = s.outs := rfl
@[simp] theorem setChan_popped (s : State) (c : Nat) (x : Channel) : (s.setChan c x).popped = s.popped := rfl
@[simp] theorem setChan_calls (s : State) (c : Nat) (x : Channel) : (s.setChan c x).calls = s.calls := rfl

@[simp] theorem setVoice_cfg (s : State) (c : Nat) (x : Voice) : (s.setVoice c x).cfg = s.cfg := rfl
@[simp] theorem setVoice_sr (s : State) (c : Nat) (x : Voice) : (s.setVoice c x).sr = s.sr := rfl
@[simp] theorem setVoice_bankSr (s : State) (c : Nat) (x : Voice) : (s.setVoice c x).bankSr = s.bankSr := rfl
@[simp] theorem setVoice_wave (s : State) (c : Nat) (x : Voice) : (s.setVoice c x).wave = s.wave := rfl
@[simp] theorem setVoice_custom (s : State) (c : Nat) (x : Voice) : (s.setVoice c x).custom = s.custom := rfl
@[simp] theorem setVoice_regions (s : State) (c : Nat) (x : Voice) : (s.setVoice c x).regions = s.regions := rfl
@[simp] theorem setVoice_stream (s : State) (c : Nat) (x : Voice) : (s.setVoice c x).stream = s.stream := rfl
@[simp] theorem setVoice_dec (s : State) (c : Nat) (x : Voice) : (s.setVoice c x).dec = s.dec := rfl
@[simp] theorem setVoice_cmdq (s : State) (c : Nat) (x : Voice) : (s.setVoice c x).cmdq = s.cmdq := rfl
@[simp] theorem setVoice_respq (s : State) (c : Nat) (x : Voice) : (s.setVoice c x).respq = s.respq := rfl
@[simp] theorem setVoice_lanes (s : State) (c : Nat) (x : Voice) : (s.setVoice c x).lanes = s.lanes.set c { s.lane c with voice := x } := rfl
@[simp] theorem setVoice_payload (s : State) (c : Nat) (x : Voice) : (s.setVoice c x).payload = s.payload := rfl
@[simp] theorem setVoice_work (s : State) (c : Nat) (x : Voice) : (s.setVoice c x).work = s.work := rfl
@[simp] theorem setVoice_turns (s : State) (c : Nat) (x : Voice) : (s.setVoice c x).turns = s.turns := rfl
@[simp] theorem setVoice_host (s : State) (c : Nat) (x : Voice) : (s.setVoice c x).host = s.host := rfl
@[simp] theorem setVoice_draws (s : State) (c : Nat) (x : Voice) : (s.setVoice c x).draws = s.draws := rfl
@[simp] theorem setVoice_drawNo (s : State) (c : Nat) (x : Voice) : (s.setVoice c x).drawNo = s.drawNo := rfl
@[simp] theorem setVoice_outs (s : State) (c : Nat) (x : Voice) : (s.setVoice c x).outs = s.outs := rfl
@[simp] theorem setVoice_popped (s : State) (c : Nat) (x : Voice) : (s.setVoice c x).popped = s.popped := rfl
@[simp] theorem setVoice_calls (s : State) (c : Nat) (x : Voice) : (s.setVoice c x).calls = s.calls := rfl

@[simp] theorem issue_cfg (ops : List WriteOp) (s : State) : (issue ops s).cfg = s.cfg := rfl
@[simp] theorem issue_sr (ops : List WriteOp) (s : State) : (issue ops s).sr = s.sr := rfl
@[simp] theorem issue_bankSr (ops : List WriteOp) (s : State) : (issue ops s).bankSr = s.bankSr := rfl
@[simp] theorem issue_wave (ops : List WriteOp) (s : State) : (issue ops s).wave = s.wave := rfl
@[simp] theorem issue_custom (ops : List WriteOp) (s : State) : (issue ops s).custom = s.custom := rfl
@[simp] theorem issue_regions (ops : List WriteOp) (s : State) : (issue ops s).regions = s.regions := rfl
@[simp] theorem issue_stream (ops : List WriteOp) (s : State) : (issue ops s).stream = s.stream := rfl
@[simp] theorem issue_dec (ops : List WriteOp) (s : State) : (issue ops s).dec = s.dec := rfl
@[simp] theorem issue_cmdq (ops : List WriteOp) (s : State) : (issue ops s).cmdq = s.cmdq := rfl
@[simp] theorem issue_respq (ops : List WriteOp) (s : State) : (issue ops s).respq = s.respq := rfl
@[simp] theorem issue_lanes (ops : List WriteOp) (s : State) : (issue ops s).lanes = s.lanes := rfl
@[simp] theorem issue_payload (ops : List WriteOp) (s : State) : (issue ops s).payload = s.payload := rfl
@[simp] theorem issue_work (ops : List WriteOp) (s : State) : (issue ops s).work = ops := rfl
@[simp] theorem issue_turns (ops : List WriteOp) (s : State) : (issue ops s).turns = s.turns := rfl
@[simp] theorem issue_host (ops : List WriteOp) (s : State) : (issue ops s).host = s.host := rfl
@[simp] theorem issue_draws (ops : List WriteOp) (s : State) : (issue ops s).draws = s.draws := rfl
@[simp] theorem issue_drawNo (ops : List WriteOp) (s : State) : (issue ops s).drawNo = s.drawNo := rfl
@[simp] theorem issue_outs (ops : List WriteOp) (s : State) : (issue ops s).outs = s.outs := rfl
@[simp] theorem issue_popped (ops : List WriteOp) (s : State) : (issue ops s).popped = s.popped := rfl
@[simp] theorem issue_calls (ops : List WriteOp) (s : State) : (issue ops s).calls = s.calls := rfl

@[simp] theorem pushResp_cfg (s : State) (w : Word) : (pushResp s w).cfg = s.cfg := rfl
@[simp] theorem pushResp_sr (s : State) (w : Word) : (pushResp s w).sr = s.sr := rfl
@[simp] theorem pushResp_bankSr (s : State) (w : Word) : (pushResp s w).bankSr = s.bankSr := rfl
@[simp] theorem pushResp_wave (s : State) (w : Word) : (pushResp s w).wave = s.wave := rfl
@[simp] theorem pushResp_custom (s : State) (w : Word) : (pushResp s w).custom = s.custom := rfl
@[simp] theorem pushResp_regions (s : State) (w : Word) : (pushResp s w).regions = s.regions := rfl
@[simp] theorem pushResp_stream (s : State) (w : Word) : (pushResp s w).stream = s.stream := rfl
@[simp] theorem pushResp_dec (s : State) (w : Word) : (pushResp s w).dec = s.dec := rfl
@[simp] theorem pushResp_cmdq (s : State) (w : Word) : (pushResp s w).cmdq = s.cmdq := rfl
@[simp] theorem pushResp_respq (s : State) (w : Word) : (pushResp s w).respq = s.respq ++ [w] := rfl
@[simp] theorem pushResp_lanes (s : State) (w : Word) : (pushResp s w).lanes = s.lanes := rfl
@[simp] theorem pushResp_payload (s : State) (w : Word) : (pushResp s w).payload = s.payload := rfl
@[simp] theorem pushResp_work (s : State) (w : Word) : (pushResp s w).work = s.work := rfl
@[simp] theorem pushResp_turns (s : State) (w : Word) : (pushResp s w).turns = s.turns := rfl
@[simp] theorem pushResp_host (s : State) (w : Word) : (pushResp s w).host = s.host := rfl
@[simp] theorem pushResp_draws (s : State) (w : Word) : (pushResp s w).draws = s.draws := rfl
@[simp] theorem pushResp_drawNo (s : State) (w : Word) : (pushResp s w).drawNo = s.drawNo := rfl
@[simp] theorem pushResp_outs (s : State) (w : Word) : (pushResp s w).outs = s.outs := rfl
@[simp] theorem pushResp_popped (s : State) (w : Word) : (pushResp s w).popped = s.popped := rfl
@[simp] theorem pushResp_calls (s : State) (w : Word) : (pushResp s w).calls = s.calls := rfl

@[simp] theorem generate_cfg (sr : F32) (s : State) : (generate sr s).cfg = s.cfg := rfl
@[simp] theorem generate_sr (sr : F32) (s : State) : (generate sr s).sr = s.sr := rfl
@[simp] theorem generate_bankSr (sr : F32) (s : State) : (generate sr s).bankSr = sr := rfl
@[simp] theorem generate_wave (sr : F32) (s : State) : (generate sr s).wave = s.wave := rfl
@[simp] theorem generate_custom (sr : F32) (s : State) : (generate sr s).custom = s.custom := rfl
@[simp] theorem generate_regions (sr : F32) (s : State) : (generate sr s).regions = s.regions := rfl
@[simp] theorem generate_stream (sr : F32) (s : State) : (generate sr s).stream = s.stream := rfl
@[simp] theorem generate_dec (sr : F32) (s : State) : (generate sr s).dec = s.dec := rfl
@[simp] theorem generate_cmdq (sr : F32) (s : State) : (generate sr s).cmdq = s.cmdq := rfl
@[simp] theorem generate_respq (sr : F32) (s : State) : (generate sr s).respq = s.respq := rfl
@[simp] theorem generate_lanes (sr : F32) (s : State) : (generate sr s).lanes = s.lanes := rfl
@[simp] theorem generate_payload (sr : F32) (s : State) : (generate sr s).payload = s.payload := rfl
@[simp] theorem generate_work (sr : F32) (s : State) : (generate sr s).work = s.work := rfl
@[simp] theorem generate_turns (sr : F32) (s : State) : (generate sr s).turns = s.turns := rfl
@[simp] theorem generate_host (sr : F32) (s : State) : (generate sr s).host = s.host := rfl
@[simp] theorem generate_draws (sr : F32) (s : State) : (generate sr s).draws = s.draws := rfl
@[simp] theorem generate_drawNo (sr : F32) (s : State) : (generate sr s).drawNo = s.drawNo := rfl
@[simp] theorem generate_outs (sr : F32) (s : State) : (generate sr s).outs = s.outs := rfl
@[simp] theorem generate_popped (sr : F32) (s : State) : (generate sr s).popped = s.popped := rfl
@[simp] theorem generate_calls (sr : F32) (s : State) : (generate sr s).calls = s.calls := rfl

@[simp] theorem driverOpen_cfg (s : State) : (driverOpen s).cfg = s.cfg := rfl
@[simp] theorem driverOpen_sr (s : State) : (driverOpen s).sr = s.sr := rfl
@[simp] theorem driverOpen_bankSr (s : State) : (driverOpen s).bankSr = s.bankSr := rfl
@[simp] theorem driverOpen_wave (s : State) : (driverOpen s).wave = s.wave := rfl
@[simp] theorem driverOpen_custom (s : State) : (driverOpen s).custom = s.custom := rfl
@[simp] theorem driverOpen_regions (s : State) : (driverOpen s).regions = s.regions := rfl
@[simp] theorem driverOpen_stream (s : State) : (driverOpen s).stream = s.stream := rfl
@[simp] theorem driverOpen_dec (s : State) : (driverOpen s).dec = s.dec := rfl
@[simp] theorem driverOpen_cmdq (s : State) : (driverOpen s).cmdq = s.cmdq := rfl
@[simp] theorem driverOpen_respq (s : State) : (driverOpen s).respq = s.respq := rfl
@[simp] theorem driverOpen_lanes (s : State) : (driverOpen s).lanes = s.lanes := rfl
@[simp] theorem driverOpen_payload (s : State) : (driverOpen s).payload = s.payload := rfl
@[simp] theorem driverOpen_work (s : State) : (driverOpen s).work = s.work := rfl
@[simp] theorem driverOpen_turns (s : State) : (driverOpen s).turns = s.turns := rfl
@[simp] theorem driverOpen_host (s : State) : (driverOpen s).host = s.host := rfl
@[simp] theorem driverOpen_draws (s : State) : (driverOpen s).draws = s.draws.tail := rfl
@[simp] theorem driverOpen_drawNo (s : State) : (driverOpen s).drawNo = (if s.draws.isEmpty then s.drawNo + 1 else s.drawNo) := rfl
@[simp] theorem driverOpen_outs (s : State) : (driverOpen s).outs = s.outs := rfl
@[simp] theorem driverOpen_popped (s : State) : (driverOpen s).popped = s.popped := rfl
@[simp] theorem driverOpen_calls (s : State) : (driverOpen s).calls = s.calls ++ [.driverOpen] := rfl

@[simp] theorem driverClose_cfg (s : State) : (driverClose s).cfg = s.cfg := rfl
@[simp] theorem driverClose_sr (s : State) : (driverClose s).sr = s.sr := rfl
@[simp] theorem driverClose_bankSr (s : State) : (driverClose s).bankSr = s.bankSr := rfl
@[simp] theorem driverClose_wave (s : State) : (driverClose s).wave = s.wave := rfl
@[simp] theorem driverClose_custom (s : State) : (driverClose s).custom = s.custom := rfl
@[simp] theorem driverClose_regions (s : State) : (driverClose s).regions = s.regions := rfl
@[simp] theorem driverClose_stream (s : State) : (driverClose s).stream = s.stream := rfl
@[simp] theorem driverClose_dec (s : State) : (driverClose s).dec = s.dec := rfl
@[simp] theorem driverClose_cmdq (s : State) : (driverClose s).cmdq = s.cmdq := rfl
@[simp] theorem driverClose_respq (s : State) : (driverClose s).respq = s.respq := rfl
@[simp] theorem driverClose_lanes (s : State) : (driverClose s).lanes = s.lanes := rfl
@[simp] theorem driverClose_payload (s : State) : (driverClose s).payload = s.payload := rfl
@[simp] theorem driverClose_work (s : State) : (driverClose s).work = s.work := rfl
@[simp] theorem driverClose_turns (s : State) : (driverClose s).turns = s.turns := rfl
@[simp] theorem driverClose_host (s : State) : (driverClose s).host = s.host := rfl
@[simp] theorem driverClose_draws (s : State) : (driverClose s).draws = s.draws := rfl
@[simp] theorem driverClose_drawNo (s : State) : (driverClose s).drawNo = s.drawNo := rfl
@[simp] theorem driverClose_outs (s : State) : (driverClose s).outs = s.outs := rfl
@[simp] theorem driverClose_popped (s : State) : (driverClose s).popped = s.popped := rfl
@[simp] theorem driverClose_calls (s : State) : (driverClose s).calls = s.calls ++ [.driverClose] := rfl

@[simp] theorem tickWith_cfg (L : Lib) (d : Bool) (s : State) : (tickWith L d s).cfg = s.cfg := rfl
@[simp] theorem tickWith_sr (L : Lib) (d : Bool) (s : State) : (tickWith L d s).sr = s.sr := rfl
@[simp] theorem tickWith_bankSr (L : Lib) (d : Bool) (s : State) : (tickWith L d s).bankSr = s.bankSr := rfl
@[simp] theorem tickWith_wave (L : Lib) (d : Bool) (s : State) : (tickWith L d s).wave = s.wave := rfl
@[simp] theorem tickWith_custom (L : Lib) (d : Bool) (s : State) : (tickWith L d s).custom = s.custom := rfl
@[simp] theorem tickWith_regions (L : Lib) (d : Bool) (s : State) : (tickWith L d s).regions = s.regions := rfl
@[simp] theorem tickWith_stream (L : Lib) (d : Bool) (s : State) : (tickWith L d s).stream = s.stream := rfl
@[simp] theorem tickWith_dec (L : Lib) (d : Bool) (s : State) : (tickWith L d s).dec = s.dec := rfl
@[simp] theorem tickWith_cmdq (L : Lib) (d : Bool) (s : State) : (tickWith L d s).cmdq = s.cmdq := rfl
@[simp] theorem tickWith_respq (L : Lib) (d : Bool) (s : State) : (tickWith L d s).respq = s.respq := rfl
@[simp] theorem tickWith_lanes (L : Lib) (d : Bool) (s : State) : (tickWith L d s).lanes = (tickResult L s d).1 := rfl
@[simp] theorem tickWith_payload (L : Lib) (d : Bool) (s : State) : (tickWith L d s).payload = s.payload := rfl
@[simp] theorem tickWith_work (L : Lib) (d : Bool) (s : State) : (tickWith L d s).work = s.work := rfl
@[simp] theorem tickWith_turns (L : Lib) (d : Bool) (s : State) : (tickWith L d s).turns = s.turns := rfl
@[simp] theorem tickWith_host (L : Lib) (d : Bool) (s : State) : (tickWith L d s).host = s.host := rfl
@[simp] theorem tickWith_draws (L : Lib) (d : Bool) (s : State) : (tickWith L d s).draws = s.draws := rfl
@[simp] theorem tickWith_drawNo (L : Lib) (d : Bool) (s : State) : (tickWith L d s).drawNo = s.drawNo := rfl
@[simp] theorem tickWith_outs (L : Lib) (d : Bool) (s : State) : (tickWith L d s).outs = s.outs ++ [(tickResult L s d).2] := rfl
@[simp] theorem tickWith_popped (L : Lib) (d : Bool) (s : State) : (tickWith L d s).popped = s.popped := rfl
@[simp] theorem tickWith_calls (L : Lib) (d : Bool) (s : State) : (tickWith L d s).calls = s.calls := rfl

@[simp] theorem retire_cfg (s : State) : (retire s).cfg = s.cfg := by unfold retire; split <;> rfl
@[simp] theorem retire_sr (s : State) : (retire s).sr = s.sr := by unfold retire; split <;> rfl
@[simp] theorem retire_bankSr (s : State) : (retire s).bankSr = s.bankSr := by unfold retire; split <;> rfl
@[simp] theorem retire_wave (s : State) : (retire s).wave = s.wave := by unfold retire; split <;> rfl
@[simp] theorem retire_custom (s : State) : (retire s).custom = s.custom := by unfold retire; split <;> rfl
@[simp] theorem retire_regions (s : State) : (retire s).regions = s.regions := by unfold retire; split <;> rfl
@[simp] theorem retire_stream (s : State) : (retire s).stream = s.stream := by unfold retire; split <;> rfl
@[simp] theorem retire_cmdq (s : State) : (retire s).cmdq = s.cmdq := by unfold retire; split <;> rfl
@[simp] theorem retire_respq (s : State) : (retire s).respq = s.respq := by unfold retire; split <;> rfl
@[simp] theorem retire_lanes (s : State) : (retire s).lanes = s.lanes := by unfold retire; split <;> rfl
@[simp] theorem retire_payload (s : State) : (retire s).payload = s.payload := by unfold retire; split <;> rfl
@[simp] theorem retire_work (s : State) : (retire s).work = s.work := by unfold retire; split <;> rfl
@[simp] theorem retire_turns (s : State) : (retire s).turns = s.turns := by unfold retire; split <;> rfl
@[simp] theorem retire_host (s : State) : (retire s).host = s.host := by unfold retire; split <;> rfl
@[simp] theorem retire_draws (s : State) : (retire s).draws = s.draws := by unfold retire; split <;> rfl
@[simp] theorem retire_drawNo (s : State) : (retire s).drawNo = s.drawNo := by unfold retire; split <;> rfl
@[simp] theorem retire_outs (s : State) : (retire s).outs = s.outs := by unfold retire; split <;> rfl
@[simp] theorem retire_popped (s : State) : (retire s).popped = s.popped := by unfold retire; split <;> rfl
@[simp] theorem retire_calls (s : State) : (retire s).calls = s.calls := by unfold retire; split <;> rfl

theorem retire_dec (s : State) : (retire s).dec = if s.work.isEmpty then .idle else s.dec := by
  unfold retire; split <;> rfl

theorem retire_of_work_nil {s : State} (h : s.work = []) : retire s = { s with dec := .idle } := by
  simp [retire, h]

theorem retire_of_work_cons {s : State} {op : WriteOp} {ops : List WriteOp} (h : s.work = op :: ops) : retire s = s := by
  simp [retire, h]

@[simp] theorem drop_eq (s : State) : drop s = s := rfl

@[simp] theorem payloadStore_cfg (s : State) (a : Nat) (b : Byte) : (payloadStore s a b).cfg = s.cfg := by unfold payloadStore; split <;> rfl
@[simp] theorem payloadStore_sr (s : State) (a : Nat) (b : Byte) : (payloadStore s a b).sr = s.sr := by unfold payloadStore; split <;> rfl
@[simp] theorem payloadStore_bankSr (s : State) (a : Nat) (b : Byte) : (payloadStore s a b).bankSr = s.bankSr := by unfold payloadStore; split <;> rfl
@[simp] theorem payloadStore_wave (s : State) (a : Nat) (b : Byte) : (payloadStore s a b).wave = s.wave := by unfold payloadStore; split <;> rfl
@[simp] theorem payloadStore_custom (s : State) (a : Nat) (b : Byte) : (payloadStore s a b).custom = s.custom := by unfold payloadStore; split <;> rfl
@[simp] theorem payloadStore_regions (s : State) (a : Nat) (b : Byte) : (payloadStore s a b).regions = s.regions := by unfold payloadStore; split <;> rfl
@[simp] theorem payloadStore_stream (s : State) (a : Nat) (b : Byte) : (payloadStore s a b).stream = s.stream := by unfold payloadStore; split <;> rfl
@[simp] theorem payloadStore_dec (s : State) (a : Nat) (b : Byte) : (payloadStore s a b).dec = s.dec := by unfold payloadStore; split <;> rfl
@[simp] theorem payloadStore_cmdq (s : State) (a : Nat) (b : Byte) : (payloadStore s a b).cmdq = s.cmdq := by unfold payloadStore; split <;> rfl
@[simp] theorem payloadStore_respq (s : State) (a : Nat) (b : Byte) : (payloadStore s a b).respq = s.respq := by unfold payloadStore; split <;> rfl
@[simp] theorem payloadStore_lanes (s : State) (a : Nat) (b : Byte) : (payloadStore s a b).lanes = s.lanes := by unfold payloadStore; split <;> rfl
@[simp] theorem payloadStore_work (s : State) (a : Nat) (b : Byte) : (payloadStore s a b).work = s.work := by unfold payloadStore; split <;> rfl
@[simp] theorem payloadStore_turns (s : State) (a : Nat) (b : Byte) : (payloadStore s a b).turns = s.turns := by unfold payloadStore; split <;> rfl
@[simp] theorem payloadStore_host (s : State) (a : Nat) (b : Byte) : (payloadStore s a b).host = s.host := by unfold payloadStore; split <;> rfl
@[simp] theorem payloadStore_draws (s : State) (a : Nat) (b : Byte) : (payloadStore s a b).draws = s.draws := by unfold payloadStore; split <;> rfl
@[simp] theorem payloadStore_drawNo (s : State) (a : Nat) (b : Byte) : (payloadStore s a b).drawNo = s.drawNo := by unfold payloadStore; split <;> rfl
@[simp] theorem payloadStore_outs (s : State) (a : Nat) (b : Byte) : (payloadStore s a b).outs = s.outs := by unfold payloadStore; split <;> rfl
@[simp] theorem payloadStore_popped (s : State) (a : Nat) (b : Byte) : (payloadStore s a b).popped = s.popped := by unfold payloadStore; split <;> rfl
@[simp] theorem payloadStore_calls (s : State) (a : Nat) (b : Byte) : (payloadStore s a b).calls = s.calls := by unfold payloadStore; split <;> rfl

theorem payloadStore_payload (s : State) (a : Nat) (b : Byte) :
    (payloadStore s a b).payload = if a < s.cfg.payloadBytes then memWrite s.payload a b else s.payload := by
  unfold payloadStore; split <;> rfl

/-! ## Lanes -/

@[simp] theorem setChan_numLanes (s : State) (c : Nat) (x : Channel) : (s.setChan c x).numLanes = s.numLanes := by
  simp [State.numLanes]

@[simp] theorem setVoice_numLanes (s : State) (c : Nat) (x : Voice) : (s.setVoice c x).numLanes = s.numLanes := by
  simp [State.numLanes]

theorem lane_of_lt {s : State} {c : Nat} (h : c < s.lanes.length) : s.lane c = s.lanes[c] := by
  simp [State.lane, List.getD, h]

theorem lane_mem {s : State} {c : Nat} (h : c < s.numLanes) : s.lane c ∈ s.lanes := by
  rw [lane_of_lt h]; exact List.getElem_mem _

theorem lane_setChan_same {s : State} {c : Nat} (x : Channel) (h : c < s.numLanes) :
    (s.setChan c x).lane c = { s.lane c with chan := x } := by
  have h' : c < s.lanes.length := h
  simp [State.lane, List.getD, h']

theorem lane_setChan_ne {s : State} {c d : Nat} (x : Channel) (h : d ≠ c) :
    (s.setChan c x).lane d = s.lane d := by
  simp [State.lane, List.getD, List.getElem?_set_ne (Ne.symm h)]

theorem lane_setVoice_same {s : State} {c : Nat} (x : Voice) (h : c < s.numLanes) :
    (s.setVoice c x).lane c = { s.lane c with voice := x } := by
  have h' : c < s.lanes.length := h
  simp [State.lane, List.getD, h']

theorem lane_setVoice_ne {s : State} {c d : Nat} (x : Voice) (h : d ≠ c) :
    (s.setVoice c x).lane d = s.lane d := by
  simp [State.lane, List.getD, List.getElem?_set_ne (Ne.symm h)]

theorem chan_setChan_same {s : State} {c : Nat} (x : Channel) (h : c < s.numLanes) : (s.setChan c x).chan c = x := by
  simp [State.chan, lane_setChan_same x h]

theorem voice_setChan {s : State} {c : Nat} (x : Channel) (h : c < s.numLanes) :
    (s.setChan c x).voice c = s.voice c := by
  simp [State.voice, lane_setChan_same x h]

theorem voice_setVoice_same {s : State} {c : Nat} (x : Voice) (h : c < s.numLanes) : (s.setVoice c x).voice c = x := by
  simp [State.voice, lane_setVoice_same x h]

theorem chan_setVoice {s : State} {c : Nat} (x : Voice) (h : c < s.numLanes) :
    (s.setVoice c x).chan c = s.chan c := by
  simp [State.chan, lane_setVoice_same x h]

/-- A channel write changes only its lane, and of the lane only the channel registers. -/
theorem setChan_onlyChannel {s : State} {c : Nat} (x : Channel) (h : c < s.numLanes) :
    OnlyChannel c s (s.setChan c x) :=
  ⟨⟨rfl, setChan_numLanes s c x, fun _ hd => lane_setChan_ne x hd, fun _ => rfl⟩, voice_setChan x h⟩

/-- A voice write changes only its lane, and of the lane only the voice. -/
theorem setVoice_onlyVoice {s : State} {c : Nat} (x : Voice) (h : c < s.numLanes) :
    OnlyVoice c s (s.setVoice c x) :=
  ⟨⟨rfl, setVoice_numLanes s c x, fun _ hd => lane_setVoice_ne x hd, fun _ => rfl⟩, chan_setVoice x h⟩

end Sys2Proof.Machine
end

