-- ==== Sys2Proof/Laws/Exec.lean ====
section
/-! SUPPORT. What a meaning, a write point, an agent and a step can do, each said once. -/

namespace Sys2Proof.Machine

/-! ## Meanings -/

/-- Every meaning answers a next state (R370). -/
theorem exec_next (i : Instr) (s : State) : ∃ t, exec i s = .next t := by
  cases i <;> exact ⟨_, rfl⟩

/-- NOTE_ON writes its group or drops (R292, R290). -/
theorem noteOn_cases (L : Lib) (c note vel : Nat) (s : State) :
    (c < s.numLanes ∧ note ≤ 127 ∧ vel ≤ 127 ∧ noteOn L c note vel s =
      s.setVoice c (startVoice L (keyOf note) (targetOf s.cfg vel) (s.chan c).cutoff (s.voice c))) ∨
    noteOn L c note vel s = s := by
  unfold noteOn
  split
  · next h =>
    simp only [channelOk, upTo127, Bool.and_eq_true, decide_eq_true_eq] at h
    exact .inl ⟨h.1.1, h.1.2, h.2, rfl⟩
  · exact .inr rfl

/-- NOTE_OFF writes its group or drops (R296, R297). -/
theorem noteOff_cases (c : Nat) (s : State) :
    (c < s.numLanes ∧ (s.voice c).active = true ∧ noteOff c s = s.setVoice c (releaseVoice (s.voice c))) ∨
    noteOff c s = s := by
  unfold noteOff
  split
  · next h =>
    split
    · next h' => exact .inl ⟨by simpa [channelOk] using h, h', rfl⟩
    · exact .inr rfl
  · exact .inr rfl

/-- START goes one of three ways (R331): an open stream, a successful open, a failed open. -/
theorem start_cases (s : State) :
    (s.stream.opened = true ∧ start s = issue [.startStream, .respond (statusWord .start false true)] s) ∨
    (s.stream.opened = false ∧ openOk s.cfg (nextDraw s) = true ∧
      start s = issue (openOps s.bankSr (nextDraw s).sr) (driverOpen s)) ∨
    (s.stream.opened = false ∧ openOk s.cfg (nextDraw s) = false ∧
      start s = issue [.respond (statusWord .start false false)] (driverOpen s)) := by
  unfold start
  split
  · next h => exact .inl ⟨h, rfl⟩
  · next h =>
    have h' : s.stream.opened = false := by simpa using h
    split
    · next h2 => exact .inr (.inl ⟨h', h2, rfl⟩)
    · next h2 => exact .inr (.inr ⟨h', by simpa using h2, rfl⟩)

/-- REGISTER_SAMPLE goes on to its publish or answers status 0 (R336). -/
theorem registerSample_cases (root lo hi addr len naddr nlen : Nat) (s : State) :
    (registerOk root lo hi naddr nlen s = true ∧ registerSample root lo hi addr len naddr nlen s =
      issue [.publishRegion (keyOf root) (keyOf lo) (keyOf hi) addr len naddr nlen [] []] s) ∨
    (registerOk root lo hi naddr nlen s = false ∧ registerSample root lo hi addr len naddr nlen s =
      issue [.respond (statusWord .registerSample false false)] s) := by
  unfold registerSample
  split
  · next h => exact .inl ⟨h, rfl⟩
  · next h => exact .inr ⟨by simpa using h, rfl⟩

/-! ## Write points -/

/-- The processor at a write point: it holds, or performs it (R150, R154). -/
theorem workStep_cases (L : Lib) (s : State) :
    (s.work = [] ∧ workStep L s = s) ∨
    (∃ op rest, s.work = op :: rest ∧
      ((holds op s = true ∧ workStep L s = s) ∨
       (holds op s = false ∧ workStep L s = applyOp L op { s with work := rest }))) := by
  unfold workStep
  cases h : s.work with
  | nil => exact .inl ⟨rfl, rfl⟩
  | cons op rest =>
    refine .inr ⟨op, rest, rfl, ?_⟩
    by_cases h' : holds op s = true
    · exact .inl ⟨h', by simp [h']⟩
    · exact .inr ⟨by simpa using h', by simp [h']⟩

/-- Only a respond holds, and only while RESPQ is full (R150). -/
theorem holds_iff (op : WriteOp) (s : State) :
    holds op s = true ↔ (∃ w, op = .respond w) ∧ s.cfg.respDepth ≤ s.respq.length := by
  cases op <;> simp [holds, respRoom]

theorem workStep_respond {L : Lib} {s : State} {w : Word} {rest : List WriteOp} (h : s.work = .respond w :: rest)
    (room : s.respq.length < s.cfg.respDepth) :
    workStep L s = { s with work := rest, respq := s.respq ++ [w] } := by
  simp [workStep, h, holds, respRoom, room, applyOp, pushResp]

/-- A write point that is no respond is performed. -/
theorem workStep_write {L : Lib} {s : State} {op : WriteOp} {rest : List WriteOp} (h : s.work = op :: rest)
    (hop : ∀ w, op ≠ .respond w) : workStep L s = applyOp L op { s with work := rest } := by
  have : holds op s = false := by
    cases op <;> first | rfl | exact absurd rfl (hop _)
  simp [workStep, h, this]

/-- A write point leaves the parameters, the payload memory, the queues of words, the scripts and the outputs alone,
except that a respond pushes to RESPQ. -/
theorem applyOp_frame (L : Lib) (op : WriteOp) (s : State) :
    (applyOp L op s).cfg = s.cfg ∧ (applyOp L op s).payload = s.payload ∧ (applyOp L op s).cmdq = s.cmdq ∧
    (applyOp L op s).dec = s.dec ∧ (applyOp L op s).turns = s.turns ∧ (applyOp L op s).host = s.host ∧
    (applyOp L op s).draws = s.draws ∧ (applyOp L op s).outs = s.outs ∧ (applyOp L op s).popped = s.popped ∧
    (applyOp L op s).calls = s.calls ∧ (applyOp L op s).numLanes = s.numLanes := by
  cases op <;> simp [applyOp, publishCustom, publishRegion, State.numLanes]

theorem runWork_succ (L : Lib) (n : Nat) (s : State) : runWork L (n + 1) s = runWork L n (workStep L s) := rfl

/-! ## Agents -/

/-- What the command processor's step can do (R154). -/
theorem processorStep_cases (s : State) :
    (∃ op rest, s.work = op :: rest ∧ processorStep s = .next (retire (workStep lib s))) ∨
    (s.work = [] ∧ s.cmdq = [] ∧ processorStep s = .next s) ∨
    (∃ w q d, s.work = [] ∧ s.cmdq = w :: q ∧ acceptWord s.dec w = (d, none) ∧
      processorStep s = .next { s with cmdq := q, dec := d }) ∨
    (∃ w q d i t, s.work = [] ∧ s.cmdq = w :: q ∧ acceptWord s.dec w = (d, some i) ∧
      exec i { s with cmdq := q, dec := d } = .next t ∧ processorStep s = .next (retire t)) := by
  cases hw : s.work with
  | cons op rest => exact .inl ⟨op, rest, rfl, by simp [processorStep, hw]⟩
  | nil =>
    refine .inr ?_
    cases hq : s.cmdq with
    | nil => exact .inl ⟨rfl, rfl, by simp [processorStep, hw, hq]⟩
    | cons w q =>
      refine .inr ?_
      rcases ha : acceptWord s.dec w with ⟨d, _ | i⟩
      · exact .inl ⟨w, q, d, rfl, rfl, ha, by simp [processorStep, hw, hq, ha]⟩
      · obtain ⟨t, ht⟩ := exec_next i { s with cmdq := q, dec := d }
        refine .inr ⟨w, q, d, i, t, rfl, rfl, ha, ?_, ?_⟩
        · rw [← ht, ← hw]
        · simp only [processorStep, hw, hq, ha]
          rw [← hw, ht]; rfl

/-- What the host's step can do (R40, R372). -/
theorem hostStep_cases (s : State) :
    hostStep s = s ∨
    (∃ w rest, s.host = .push w :: rest ∧ s.cmdq.length < s.cfg.cmdDepth ∧
      hostStep s = { s with cmdq := s.cmdq ++ [w], host := rest }) ∨
    (∃ w q rest, s.host = .pop :: rest ∧ s.respq = w :: q ∧
      hostStep s = { s with respq := q, popped := s.popped ++ [w], host := rest }) ∨
    (∃ a b x y rest, s.host = .store a b x y :: rest ∧
      hostStep s = payloadStore { s with work := takeBefore s a x y s.work, host := rest } a b) := by
  unfold hostStep
  cases hh : s.host with
  | nil => exact .inl rfl
  | cons act rest =>
    cases act with
    | push w =>
      dsimp only
      split
      · next h => exact .inr (.inl ⟨w, rest, rfl, h, rfl⟩)
      · exact .inl rfl
    | pop =>
      dsimp only
      cases hr : s.respq with
      | nil => exact .inl rfl
      | cons w q => exact .inr (.inr (.inl ⟨w, q, rest, rfl, rfl, rfl⟩))
    | store a b x y => exact .inr (.inr (.inr ⟨a, b, x, y, rest, rfl, rfl⟩))

/-- A host store changes no write point's kind and number. -/
theorem takeBefore_length (s : State) (a : Nat) (x y : Bool) (ops : List WriteOp) :
    (takeBefore s a x y ops).length = ops.length := by
  cases ops with
  | nil => rfl
  | cons op rest => cases op <;> rfl

theorem takeBefore_isEmpty (s : State) (a : Nat) (x y : Bool) (ops : List WriteOp) :
    (takeBefore s a x y ops).isEmpty = ops.isEmpty := by
  cases ops with
  | nil => rfl
  | cons op rest => cases op <;> rfl

/-! ## The step -/

/-- The step is the step of the agent whose turn it is. -/
theorem step_cases (s : State) :
    (s.turns = [] ∧ step s = processorStep s) ∨
    (∃ ts, s.turns = .processor :: ts ∧ step s = processorStep { s with turns := ts }) ∨
    (∃ d ts, s.turns = .tick d :: ts ∧ step s = .next (tick d { s with turns := ts })) ∨
    (∃ ts, s.turns = .host :: ts ∧ step s = .next (hostStep { s with turns := ts })) := by
  unfold step
  cases h : s.turns with
  | nil => exact .inl ⟨rfl, rfl⟩
  | cons t ts =>
    refine .inr ?_
    cases t with
    | processor => exact .inl ⟨ts, rfl, rfl⟩
    | tick d => exact .inr (.inl ⟨d, ts, rfl, rfl⟩)
    | host => exact .inr (.inr ⟨ts, rfl, rfl⟩)

/-- Where the command processor moves, the step is its step. -/
theorem step_processor {s : State} (h : processorMoves s) :
    step s = processorStep { s with turns := s.turns.tail } := by
  rcases h with h | ⟨ts, h⟩
  · obtain ⟨cfg, sr, bankSr, wave, custom, regions, stream, dec, cmdq, respq, lanes, payload, work, turns, rest⟩ := s
    subst h
    rfl
  · simp only [step, h, agentStep, List.tail_cons]

/-! ## The tick -/

/-- A tick leaves every channel register set as it was (R242). -/
theorem laneStep_chan (L : Lib) (P : Params) (g : Snapshot) (l : Lane) : (laneStep L P g l).1.chan = l.chan := by
  unfold laneStep; split <;> rfl

/-- An inactive voice keeps every field and contributes nothing (R242). -/
theorem laneStep_inactive (L : Lib) (P : Params) (g : Snapshot) (l : Lane) (h : l.voice.active = false) :
    laneStep L P g l = (l, none) := by
  simp [laneStep, h]

/-- The lanes after a tick: each one's own step, or all as they were in silence (R240, R242). -/
theorem tickResult_lanes (L : Lib) (s : State) (d : Bool) :
    (tickResult L s d).1 =
      if renders s d then s.lanes.map (fun l => (laneStep L s.cfg (snapshotOf s) l).1) else s.lanes := by
  unfold tickResult; split <;> simp [List.map_map, Function.comp_def]

@[simp] theorem tickResult_lanes_length (L : Lib) (s : State) (d : Bool) :
    (tickResult L s d).1.length = s.lanes.length := by
  rw [tickResult_lanes]; split <;> simp

end Sys2Proof.Machine
end

