-- ==== Sys2Proof/Laws/Fallback.lean ====
section
/-! SUPPORT. The fallback sine (R230): the fixed-point series is within 2^-60 of the sine. -/

namespace Sys2Proof.Machine

/-- The series of `sineSeries` in real arithmetic: `τ` is the current term, `q` the squared angle. -/
noncomputable def realSeries (q : ℝ) : Nat → Nat → ℝ → ℝ
  | 0, _, _ => 0
  | fuel + 1, k, τ => (if k % 2 = 0 then τ else -τ) + realSeries q fuel (k + 1) (τ * q / ((2 * k + 2) * (2 * k + 3)))

/-- The fixed-point series differs from the real one by at most the first term's error, once a term. -/
theorem sineSeries_error {x2 : Nat} {q E : ℝ} (hq0 : 0 ≤ q) (hq : q ≤ 5 / 2) (hx : |(x2 : ℝ) / 2 ^ 120 - q| ≤ 1 / 2 ^ 65)
    (hE : 2 ^ 55 ≤ E) : ∀ (fuel k term : Nat) (τ : ℝ), 0 ≤ τ → τ ≤ 2 ^ 121 → |(term : ℝ) - τ| ≤ E →
      |((sineSeries x2 fuel k term : Int) : ℝ) - realSeries q fuel k τ| ≤ fuel * E
  | 0, _, _, _, _, _, _ => by simp [sineSeries, realSeries]
  | fuel + 1, k, term, τ, h0, h1, he => by
    have ha : (6 : ℝ) ≤ (2 * k + 2) * (2 * k + 3) := by
      have : (0 : ℝ) ≤ k := Nat.cast_nonneg k
      nlinarith
    have hE0 : 0 ≤ E := le_trans (by norm_num) hE
    set a : ℝ := (2 * k + 2) * (2 * k + 3) with hadef
    have ha0 : 0 < a := by linarith
    have n0 : 0 ≤ τ * q / a := by positivity
    have n1 : τ * q / a ≤ 2 ^ 121 := by
      rw [div_le_iff₀ ha0]
      calc τ * q ≤ 2 ^ 121 * (5 / 2) := by gcongr
        _ ≤ 2 ^ 121 * a := by gcongr; linarith
    have hr0 : (0 : ℝ) ≤ (x2 : ℝ) / 2 ^ 120 := by positivity
    have hr1 : (x2 : ℝ) / 2 ^ 120 ≤ 5 / 2 + 1 / 2 ^ 65 := by have := (abs_le.1 hx).2; linarith
    have f1 : |(term : ℝ) * ((x2 : ℝ) / 2 ^ 120) - τ * q| ≤ E * (5 / 2 + 1 / 2 ^ 65) + 2 ^ 56 := by
      have : (term : ℝ) * ((x2 : ℝ) / 2 ^ 120) - τ * q =
          ((term : ℝ) - τ) * ((x2 : ℝ) / 2 ^ 120) + τ * ((x2 : ℝ) / 2 ^ 120 - q) := by ring
      rw [this]
      refine (abs_add_le _ _).trans (add_le_add ?_ ?_)
      · rw [abs_mul, abs_of_nonneg hr0]; gcongr
      · rw [abs_mul, abs_of_nonneg h0]
        calc τ * |(x2 : ℝ) / 2 ^ 120 - q| ≤ 2 ^ 121 * (1 / 2 ^ 65) := by gcongr
          _ = 2 ^ 56 := by norm_num
    have f2 : |((term * x2 / 2 ^ 120 / ((2 * k + 2) * (2 * k + 3)) : ℕ) : ℝ) -
        (term : ℝ) * ((x2 : ℝ) / 2 ^ 120) / a| ≤ 1 := by
      rw [Nat.div_div_eq_div_mul]
      have hpos : 0 < 2 ^ 120 * ((2 * k + 2) * (2 * k + 3)) := by positivity
      have e : (term : ℝ) * ((x2 : ℝ) / 2 ^ 120) / a =
          ((term * x2 : ℕ) : ℝ) / ((2 ^ 120 * ((2 * k + 2) * (2 * k + 3)) : ℕ) : ℝ) := by
        push_cast; rw [← hadef]; field_simp; norm_num
      rw [e, abs_le]
      have l := Nat.cast_div_le (α := ℝ) (m := term * x2) (n := 2 ^ 120 * ((2 * k + 2) * (2 * k + 3)))
      have u : ((term * x2 : ℕ) : ℝ) / ((2 ^ 120 * ((2 * k + 2) * (2 * k + 3)) : ℕ) : ℝ) <
          ((term * x2 / (2 ^ 120 * ((2 * k + 2) * (2 * k + 3))) : ℕ) : ℝ) + 1 := by
        rw [div_lt_iff₀ (by exact_mod_cast hpos)]
        have := Nat.lt_div_mul_add (a := term * x2) hpos
        have h2 : term * x2 < (term * x2 / (2 ^ 120 * ((2 * k + 2) * (2 * k + 3))) + 1) *
            (2 ^ 120 * ((2 * k + 2) * (2 * k + 3))) := by rw [Nat.add_one_mul]; exact this
        exact_mod_cast h2
      constructor <;> linarith
    have f3 : |((term * x2 / 2 ^ 120 / ((2 * k + 2) * (2 * k + 3)) : ℕ) : ℝ) - τ * q / a| ≤ E := by
      have : ((term * x2 / 2 ^ 120 / ((2 * k + 2) * (2 * k + 3)) : ℕ) : ℝ) - τ * q / a =
          (((term * x2 / 2 ^ 120 / ((2 * k + 2) * (2 * k + 3)) : ℕ) : ℝ) - (term : ℝ) * ((x2 : ℝ) / 2 ^ 120) / a) +
            ((term : ℝ) * ((x2 : ℝ) / 2 ^ 120) - τ * q) / a := by ring
      rw [this]
      refine (abs_add_le _ _).trans ?_
      have f4 : |((term : ℝ) * ((x2 : ℝ) / 2 ^ 120) - τ * q) / a| ≤ (E * (5 / 2 + 1 / 2 ^ 65) + 2 ^ 56) / 6 := by
        rw [abs_div, abs_of_pos ha0]; gcongr
      refine (add_le_add f2 f4).trans ?_
      norm_num at hE ⊢
      linarith
    have ih := sineSeries_error hq0 hq hx hE fuel (k + 1) _ _ n0 n1 f3
    have es : ((sineSeries x2 (fuel + 1) k term : Int) : ℝ) - realSeries q (fuel + 1) k τ =
        (if k % 2 = 0 then (term : ℝ) - τ else -((term : ℝ) - τ)) +
          (((sineSeries x2 fuel (k + 1) (term * x2 / 2 ^ 120 / ((2 * k + 2) * (2 * k + 3))) : Int) : ℝ) -
            realSeries q fuel (k + 1) (τ * q / a)) := by
      simp only [sineSeries, realSeries]
      split <;> push_cast <;> ring
    rw [es]
    refine (abs_add_le _ _).trans ?_
    have : |if k % 2 = 0 then (term : ℝ) - τ else -((term : ℝ) - τ)| ≤ E := by
      split
      · exact he
      · rw [abs_neg]; exact he
    push_cast
    linarith

/-- The real series of 24 terms is the partial sum of the sine's Taylor series. -/
theorem realSeries_eq (x : ℝ) : ∀ (n k : Nat),
    realSeries (x * x) n k (x ^ (2 * k + 1) / (2 * k + 1).factorial) =
      ∑ i ∈ Finset.range n, (-1) ^ (k + i) * (x ^ (2 * (k + i) + 1) / (2 * (k + i) + 1).factorial)
  | 0, k => by simp [realSeries]
  | n + 1, k => by
    have e : x ^ (2 * k + 1) / ((2 * k + 1).factorial : ℝ) * (x * x) / ((2 * k + 2) * (2 * k + 3)) =
        x ^ (2 * (k + 1) + 1) / ((2 * (k + 1) + 1).factorial : ℝ) := by
      rw [show 2 * (k + 1) + 1 = 2 * k + 1 + 1 + 1 by ring, Nat.factorial_succ (2 * k + 1 + 1), Nat.factorial_succ (2 * k + 1)]
      push_cast
      have : ((2 * k + 1).factorial : ℝ) ≠ 0 := by exact_mod_cast Nat.factorial_ne_zero _
      field_simp
      ring
    rw [realSeries, e, realSeries_eq x n (k + 1), Finset.sum_range_succ', add_comm]
    congr 1
    · refine Finset.sum_congr rfl fun i _ => ?_
      rw [show k + 1 + i = k + (i + 1) by ring]
    · rcases Nat.mod_two_eq_zero_or_one k with h | h
      · simp [h, Even.neg_one_pow (Nat.even_iff.2 h)]
      · simp [h, Odd.neg_one_pow (Nat.odd_iff.2 h)]

/-- The imaginary part of the first 2n terms of exp(ix) is the first n terms of the sine's series. -/
theorem expSum_im (x : ℝ) : ∀ n : Nat,
    (∑ m ∈ Finset.range (2 * n), ((x : ℂ) * Complex.I) ^ m / (m.factorial : ℂ)).im =
      ∑ i ∈ Finset.range n, (-1) ^ i * (x ^ (2 * i + 1) / ((2 * i + 1).factorial : ℝ))
  | 0 => by simp
  | n + 1 => by
    have p : ((x : ℂ) * Complex.I) ^ (2 * n) = (((-1) ^ n * x ^ (2 * n) : ℝ) : ℂ) := by
      rw [mul_pow, pow_mul Complex.I, Complex.I_sq]; push_cast; ring
    have e0 : (((x : ℂ) * Complex.I) ^ (2 * n) / ((2 * n).factorial : ℂ)).im = 0 := by
      rw [p, ← Complex.ofReal_natCast, ← Complex.ofReal_div, Complex.ofReal_im]
    have e1 : (((x : ℂ) * Complex.I) ^ (2 * n + 1) / ((2 * n + 1).factorial : ℂ)).im =
        (-1) ^ n * (x ^ (2 * n + 1) / ((2 * n + 1).factorial : ℝ)) := by
      have : ((x : ℂ) * Complex.I) ^ (2 * n + 1) / ((2 * n + 1).factorial : ℂ) =
          (((-1) ^ n * (x ^ (2 * n + 1) / ((2 * n + 1).factorial : ℝ)) : ℝ) : ℂ) * Complex.I := by
        rw [pow_succ, p]; push_cast; ring
      rw [this, Complex.im_ofReal_mul, Complex.I_im, mul_one]
    rw [show 2 * (n + 1) = 2 * n + 1 + 1 by ring, Finset.sum_range_succ, Finset.sum_range_succ, Complex.add_im,
      Complex.add_im, expSum_im x n, e0, e1, Finset.sum_range_succ, add_zero]

/-- 24 terms give the sine of an angle up to 2 to within 2^-70. -/
theorem sin_taylor {x : ℝ} (h0 : 0 ≤ x) (h1 : x ≤ 2) :
    |Real.sin x - ∑ i ∈ Finset.range 24, (-1) ^ i * (x ^ (2 * i + 1) / ((2 * i + 1).factorial : ℝ))| ≤ 1 / 2 ^ 70 := by
  have hn : ‖(x : ℂ) * Complex.I‖ = x := by simp [abs_of_nonneg h0]
  have hb := Complex.exp_bound' (x := (x : ℂ) * Complex.I) (n := 48) (by rw [hn]; norm_num; linarith)
  rw [hn] at hb
  have him : (Complex.exp ((x : ℂ) * Complex.I) - ∑ m ∈ Finset.range 48, ((x : ℂ) * Complex.I) ^ m / (m.factorial : ℂ)).im =
      Real.sin x - ∑ i ∈ Finset.range 24, (-1) ^ i * (x ^ (2 * i + 1) / ((2 * i + 1).factorial : ℝ)) := by
    rw [Complex.sub_im, Complex.exp_ofReal_mul_I_im, show 48 = 2 * 24 by norm_num, expSum_im]
  rw [← him]
  refine (Complex.abs_im_le_norm _).trans (hb.trans ?_)
  calc x ^ 48 / ((48 : ℕ).factorial : ℝ) * 2 ≤ 2 ^ 48 / ((48 : ℕ).factorial : ℝ) * 2 := by gcongr
    _ ≤ 1 / 2 ^ 70 := by norm_num [Nat.factorial]

/-- The real series is linear in its first term. -/
theorem realSeries_mul (q c : ℝ) : ∀ (n k : Nat) (τ : ℝ), realSeries q n k (c * τ) = c * realSeries q n k τ
  | 0, _, _ => by simp [realSeries]
  | n + 1, k, τ => by
    rw [realSeries, realSeries, show c * τ * q / ((2 * (k : ℝ) + 2) * (2 * k + 3)) =
      c * (τ * q / ((2 * k + 2) * (2 * k + 3))) by ring, realSeries_mul q c n]
    split <;> ring

/-- The fixed-point sine of the first quadrant is within 2^-60 of the sine. -/
theorem sineFixed_error {j : Nat} (hj : j ≤ 512) :
    |(sineFixed j : ℝ) / 2 ^ 120 - Real.sin (2 * Real.pi * j / 2048)| ≤ 1 / 2 ^ 60 := by
  set x : ℝ := 2 * Real.pi * j / 2048 with hx
  have hjr : (j : ℝ) ≤ 512 := by exact_mod_cast hj
  have hj0 : (0 : ℝ) ≤ j := Nat.cast_nonneg j
  have p1 := Real.pi_gt_d20
  have p2 := Real.pi_lt_d20
  have x0 : 0 ≤ x := by have := Real.pi_pos; positivity
  have x1 : x ≤ 158 / 100 := by
    rw [hx, div_le_iff₀ (by norm_num)]
    calc 2 * Real.pi * j ≤ 2 * 3.15 * 512 := by gcongr; linarith
      _ ≤ _ := by norm_num
  obtain ⟨X, hX⟩ : ∃ X, X = piFixed * j / 1024 := ⟨_, rfl⟩
  have eX : |(X : ℝ) / 2 ^ 120 - x| ≤ 1 / 2 ^ 67 + 1 / 2 ^ 120 := by
    have l : (X : ℝ) ≤ (piFixed : ℝ) * j / 1024 := by
      have := Nat.cast_div_le (α := ℝ) (m := piFixed * j) (n := 1024)
      rw [← hX] at this; push_cast at this; exact this
    have u : (piFixed : ℝ) * j / 1024 ≤ X + 1 := by
      rw [div_le_iff₀ (by norm_num)]
      have : piFixed * j < (X + 1) * 1024 := by omega
      exact_mod_cast this.le
    have d : |(piFixed : ℝ) / 2 ^ 120 - Real.pi| ≤ 1 / 2 ^ 66 := by
      rw [abs_le]; unfold piFixed
      norm_num at p1 p2 ⊢
      constructor <;> linarith
    have e : (piFixed : ℝ) * j / 1024 / 2 ^ 120 - x = ((piFixed : ℝ) / 2 ^ 120 - Real.pi) * (j / 1024) := by
      rw [hx]; ring
    have d2 : |((piFixed : ℝ) / 2 ^ 120 - Real.pi) * (j / 1024)| ≤ 1 / 2 ^ 67 := by
      rw [abs_mul, abs_of_nonneg (by positivity : (0 : ℝ) ≤ j / 1024)]
      calc _ ≤ (1 / 2 ^ 66 : ℝ) * (512 / 1024) := by gcongr
        _ = 1 / 2 ^ 67 := by norm_num
    rw [← e] at d2
    have d3 := abs_le.1 d2
    rw [abs_le]
    constructor
    · have : ((piFixed : ℝ) * j / 1024 - 1) / 2 ^ 120 ≤ X / 2 ^ 120 := by gcongr; linarith
      have e2 : ((piFixed : ℝ) * j / 1024 - 1) / 2 ^ 120 = (piFixed : ℝ) * j / 1024 / 2 ^ 120 - 1 / 2 ^ 120 := by ring
      rw [e2] at this
      linarith [d3.1]
    · have : (X : ℝ) / 2 ^ 120 ≤ (piFixed : ℝ) * j / 1024 / 2 ^ 120 := by gcongr
      have : (0 : ℝ) ≤ 1 / 2 ^ 120 := by positivity
      linarith [d3.2]
  have X0 : (0 : ℝ) ≤ (X : ℝ) / 2 ^ 120 := by positivity
  have X1 : (X : ℝ) / 2 ^ 120 ≤ 159 / 100 := by
    have := (abs_le.1 eX).2; norm_num at this ⊢; linarith
  have eQ : |((X * X / 2 ^ 120 : ℕ) : ℝ) / 2 ^ 120 - x * x| ≤ 1 / 2 ^ 65 := by
    have l : ((X * X / 2 ^ 120 : ℕ) : ℝ) ≤ (X : ℝ) * X / 2 ^ 120 := by
      have := Nat.cast_div_le (α := ℝ) (m := X * X) (n := 2 ^ 120)
      rwa [Nat.cast_mul, Nat.cast_pow, Nat.cast_ofNat] at this
    have u : (X : ℝ) * X / 2 ^ 120 ≤ ((X * X / 2 ^ 120 : ℕ) : ℝ) + 1 := by
      rw [div_le_iff₀ (by norm_num)]
      have : X * X ≤ (X * X / 2 ^ 120 + 1) * 2 ^ 120 := by omega
      exact_mod_cast this
    have s : |(X : ℝ) / 2 ^ 120 * ((X : ℝ) / 2 ^ 120) - x * x| ≤ (1 / 2 ^ 67 + 1 / 2 ^ 120) * (159 / 100 + 158 / 100) := by
      have : (X : ℝ) / 2 ^ 120 * ((X : ℝ) / 2 ^ 120) - x * x =
          ((X : ℝ) / 2 ^ 120 - x) * ((X : ℝ) / 2 ^ 120 + x) := by ring
      rw [this, abs_mul, abs_of_nonneg (by positivity : (0 : ℝ) ≤ (X : ℝ) / 2 ^ 120 + x)]
      gcongr
    have s' := abs_le.1 s
    have l' : ((X * X / 2 ^ 120 : ℕ) : ℝ) / 2 ^ 120 ≤ (X : ℝ) / 2 ^ 120 * ((X : ℝ) / 2 ^ 120) := by
      calc _ ≤ ((X : ℝ) * X / 2 ^ 120) / 2 ^ 120 := by gcongr
        _ = _ := by ring
    have u' : (X : ℝ) / 2 ^ 120 * ((X : ℝ) / 2 ^ 120) ≤ ((X * X / 2 ^ 120 : ℕ) : ℝ) / 2 ^ 120 + 1 / 2 ^ 120 := by
      calc _ = ((X : ℝ) * X / 2 ^ 120) / 2 ^ 120 := by ring
        _ ≤ (((X * X / 2 ^ 120 : ℕ) : ℝ) + 1) / 2 ^ 120 := by gcongr
        _ = _ := by ring
    rw [abs_le]
    generalize ((X * X / 2 ^ 120 : ℕ) : ℝ) / 2 ^ 120 = a at *
    generalize (X : ℝ) / 2 ^ 120 * ((X : ℝ) / 2 ^ 120) = b at *
    norm_num at s' u' ⊢
    constructor <;> linarith [s'.1, s'.2]
  have eT : |(X : ℝ) - 2 ^ 120 * x| ≤ 2 ^ 55 := by
    have : (X : ℝ) - 2 ^ 120 * x = 2 ^ 120 * ((X : ℝ) / 2 ^ 120 - x) := by ring
    rw [this, abs_mul, abs_of_pos (by positivity : (0 : ℝ) < 2 ^ 120)]
    calc (2 : ℝ) ^ 120 * |(X : ℝ) / 2 ^ 120 - x| ≤ 2 ^ 120 * (1 / 2 ^ 67 + 1 / 2 ^ 120) := by gcongr
      _ ≤ 2 ^ 55 := by norm_num
  have hq : x * x ≤ 5 / 2 := by nlinarith
  have ht : 2 ^ 120 * x ≤ 2 ^ 121 := by
    calc (2 : ℝ) ^ 120 * x ≤ 2 ^ 120 * 2 := by gcongr; linarith
      _ = 2 ^ 121 := by norm_num
  have main := sineSeries_error (x2 := X * X / 2 ^ 120) (mul_nonneg x0 x0) hq eQ (le_refl ((2 : ℝ) ^ 55)) 24 0 X
    (2 ^ 120 * x) (mul_nonneg (by norm_num) x0) ht eT
  have eR := realSeries_eq x 24 0
  simp only [Nat.mul_zero, zero_add, pow_one, Nat.factorial_one, Nat.cast_one, div_one] at eR
  rw [realSeries_mul, eR] at main
  have t := sin_taylor x0 (by linarith)
  generalize hS : ∑ i ∈ Finset.range 24, (-1) ^ i * (x ^ (2 * i + 1) / ((2 * i + 1).factorial : ℝ)) = S at *
  have hs0 : 0 ≤ Real.sin x := Real.sin_nonneg_of_nonneg_of_le_pi x0 (by linarith)
  have hf : sineFixed j = (sineSeries (X * X / 2 ^ 120) 24 0 X).toNat := by rw [hX]; rfl
  obtain ⟨z, hz⟩ : ∃ z, z = sineSeries (X * X / 2 ^ 120) 24 0 X := ⟨_, rfl⟩
  rw [← hz] at main hf
  have key : |(z : ℝ) / 2 ^ 120 - Real.sin x| ≤ 1 / 2 ^ 60 := by
    have e : (z : ℝ) / 2 ^ 120 - Real.sin x = ((z : ℝ) - 2 ^ 120 * S) / 2 ^ 120 - (Real.sin x - S) := by ring
    rw [e]
    refine (abs_sub _ _).trans ?_
    have : |((z : ℝ) - 2 ^ 120 * S) / 2 ^ 120| ≤ ((24 : ℕ) : ℝ) * 2 ^ 55 / 2 ^ 120 := by
      rw [abs_div, abs_of_pos (by positivity : (0 : ℝ) < 2 ^ 120)]; gcongr
    refine (add_le_add this t).trans ?_
    norm_num
  rw [hf]
  have hmax : ((z.toNat : ℕ) : ℝ) = max (z : ℝ) 0 := by
    rw [← Int.cast_natCast, Int.toNat_eq_max]; push_cast; rfl
  rw [hmax]
  rcases le_total (z : ℝ) 0 with h | h
  · rw [max_eq_right h]
    refine le_trans ?_ key
    have : (z : ℝ) / 2 ^ 120 ≤ 0 := div_nonpos_of_nonpos_of_nonneg h (by positivity)
    rw [zero_div, abs_of_nonpos (by linarith), abs_of_nonpos (by linarith)]
    linarith
  · rw [max_eq_left h]; exact key

end Sys2Proof.Machine
end

