-- ==== Sys2Proof/Laws/Library.lean ====
section
/-! SUPPORT. What the machine's library can answer (R13, R151, R396), said once a function, and the two range
predicates in exact arithmetic. -/

namespace Sys2Proof.Machine

/-! ## Ranges -/

theorem isFinite_f0 : isFinite f0 = true := by decide
theorem isFinite_f1 : isFinite f1 = true := by decide

theorem toRat_f0 : toRat f0 = 0 := by
  have : valUnits f0 = 0 := by decide
  unfold toRat; rw [this]; simp

theorem toRat_f1 : toRat f1 = 1 := by
  have : valUnits f1 = 2 ^ 149 := by decide
  unfold toRat; rw [this]; norm_num

/-- A value in [0.0, 1.0] is a finite one whose exact value is. -/
theorem inUnit_iff {x : F32} : inUnit x = true ↔ isFinite x = true ∧ 0 ≤ toRat x ∧ toRat x ≤ 1 := by
  unfold inUnit
  rw [Bool.and_eq_true]
  constructor
  · rintro ⟨a, b⟩
    have f := isFinite_of_between isFinite_f0 isFinite_f1 a b
    rw [fle_iff isFinite_f0 f, toRat_f0] at a
    rw [fle_iff f isFinite_f1, toRat_f1] at b
    exact ⟨f, a, b⟩
  · rintro ⟨f, a, b⟩
    rw [fle_iff isFinite_f0 f, fle_iff f isFinite_f1, toRat_f0, toRat_f1]
    exact ⟨a, b⟩

/-- A positive finite value is a finite one whose exact value is positive. -/
theorem positiveFinite_iff {x : F32} : positiveFinite x = true ↔ isFinite x = true ∧ 0 < toRat x := by
  unfold positiveFinite
  rw [Bool.and_eq_true]
  constructor
  · rintro ⟨a, b⟩
    rw [flt_iff isFinite_f0 a, toRat_f0] at b
    exact ⟨a, b⟩
  · rintro ⟨a, b⟩
    rw [flt_iff isFinite_f0 a, toRat_f0]
    exact ⟨a, b⟩

/-! ## The four functions -/

/-- R13's third assumption. -/
theorem fexp_inUnit {x : F32} (h : fle x f0 = true) : inUnit (lib.fexp x) = true := by
  show inUnit (admitExp Config.rawExp x) = true
  unfold admitExp
  split
  · decide
  · next hc => simpa [inUnit, h] using hc

/-- A function that meets the assumption is admitted as it is. -/
theorem admitExp_of_admitted {raw : F32 → F32} (h : ∀ x, fle x f0 = true → inUnit (raw x) = true) : admitExp raw = raw := by
  funext x
  unfold admitExp
  split
  · next hc =>
    rw [Bool.and_eq_true, Bool.not_eq_true'] at hc
    have := h x hc.1
    rw [inUnit, hc.2] at this
    exact absurd this (by decide)
  · rfl

/-- R13's second assumption. -/
@[simp] theorem fexp2_zero : lib.fexp2 f0 = f1 := rfl

/-- A function that meets the assumption is admitted as it is. -/
theorem admitExp2_of_admitted {raw : F32 → F32} (h : raw f0 = f1) : admitExp2 raw = raw := by
  funext x
  unfold admitExp2
  split
  · next hx => rw [hx, h]
  · rfl

/-! ## Names -/

/-- A placeholder name is never empty (R151), and takes at most `ceil(NAME_MAX / 4)` data words (R396). -/
theorem placeholderName_length (nameMax i : Nat) :
    1 ≤ (lib.placeholderName nameMax i).length ∧
      (1 ≤ nameMax → (lib.placeholderName nameMax i).length ≤ 4 * ((nameMax + 3) / 4)) := by
  show 1 ≤ (admitName Config.rawPlaceholderName nameMax i).length ∧
    (_ → (admitName Config.rawPlaceholderName nameMax i).length ≤ _)
  unfold admitName
  simp only
  split
  · exact ⟨le_rfl, fun h => by simp only [List.length_singleton]; omega⟩
  · next h =>
    refine ⟨?_, fun _ => List.length_take_le _ _⟩
    rw [List.isEmpty_iff] at h
    exact List.length_pos_of_ne_nil h

/-- A name's record is its length and then its data words (R151). -/
@[simp] theorem nameRecord_length (nm : List Byte) : (nameRecord nm).length = 1 + (nm.length + 3) / 4 := by
  simp [nameRecord, Nat.add_comm]

end Sys2Proof.Machine
end

