-- ==== Sys2Proof/Laws/Memory.lean ====
section
/-! SUPPORT. Payload memory: reading after writing, and that every operation keeps the canonical form (R110). -/

namespace Sys2Proof.Machine

theorem memWfFrom_mono {lo lo' : Nat} (h : lo' ≤ lo) : ∀ {m : Memory}, memWfFrom lo m = true → memWfFrom lo' m = true
  | [], _ => rfl
  | (a, b) :: t, hm => by
    simp only [memWfFrom, Bool.and_eq_true, decide_eq_true_eq] at hm ⊢
    exact ⟨⟨by omega, hm.1.2⟩, hm.2⟩

/-- An address below the form's lower bound is not listed. -/
theorem memRead_below : ∀ {m : Memory} {lo a : Nat}, memWfFrom lo m = true → a < lo → memRead m a = unlistedByte
  | [], _, _, _, _ => rfl
  | (a0, b0) :: t, lo, a, hm, h => by
    simp only [memWfFrom, Bool.and_eq_true, decide_eq_true_eq] at hm
    have : a ≠ a0 := by omega
    simp only [memRead, this, if_false]
    exact memRead_below hm.2 (by omega)

theorem memRead_memWrite_same : ∀ {m : Memory} {lo : Nat} (a : Nat) (b : Byte), memWfFrom lo m = true →
    memRead (memWrite m a b) a = b
  | [], _, a, b, _ => by
    by_cases hb : b = unlistedByte <;> simp [memWrite, memRead, hb]
  | (a0, b0) :: t, lo, a, b, hm => by
    have hm' := hm
    simp only [memWfFrom, Bool.and_eq_true, decide_eq_true_eq] at hm
    unfold memWrite
    split
    · next hlt =>
      split
      · next hb =>
        have : a ≠ a0 := by omega
        simp only [memRead, this, if_false, hb]
        exact memRead_below hm.2 (by omega)
      · simp [memRead]
    · split
      · next heq =>
        subst heq
        split
        · next hb => rw [hb]; exact memRead_below hm.2 (by omega)
        · simp [memRead]
      · next hne =>
        simp only [memRead, hne, if_false]
        exact memRead_memWrite_same a b hm.2

theorem memRead_memWrite_ne : ∀ {m : Memory} {a a' : Nat} (b : Byte), a' ≠ a →
    memRead (memWrite m a b) a' = memRead m a'
  | [], a, a', b, h => by
    by_cases hb : b = unlistedByte <;> simp [memWrite, memRead, hb, h]
  | (a0, b0) :: t, a, a', b, h => by
    unfold memWrite
    split
    · split <;> simp [memRead, h]
    · split
      · next heq => subst heq; split <;> simp [memRead, h]
      · simp only [memRead]; rw [memRead_memWrite_ne b h]

theorem memWrite_wfFrom : ∀ {m : Memory} {lo a : Nat} (b : Byte), memWfFrom lo m = true → lo ≤ a →
    memWfFrom lo (memWrite m a b) = true
  | [], lo, a, b, _, h => by
    by_cases hb : b = unlistedByte <;> simp [memWrite, memWfFrom, hb, h]
  | (a0, b0) :: t, lo, a, b, hm, h => by
    have hm' := hm
    simp only [memWfFrom, Bool.and_eq_true, decide_eq_true_eq] at hm
    unfold memWrite
    split
    · split
      · exact hm'
      · next hlt hb =>
        simp only [memWfFrom, Bool.and_eq_true, decide_eq_true_eq]
        exact ⟨⟨h, hb⟩, ⟨by omega, hm.1.2⟩, hm.2⟩
    · split
      · next heq =>
        split
        · exact memWfFrom_mono (by omega) hm.2
        · next hb =>
          subst heq
          simp only [memWfFrom, Bool.and_eq_true, decide_eq_true_eq]
          exact ⟨⟨h, hb⟩, hm.2⟩
      · simp only [memWfFrom, Bool.and_eq_true, decide_eq_true_eq]
        exact ⟨hm.1, memWrite_wfFrom b hm.2 (by omega)⟩

/-- A store keeps the canonical form. -/
theorem memWrite_wf {m : Memory} (a : Nat) (b : Byte) (h : Memory.wf m = true) : Memory.wf (memWrite m a b) = true :=
  memWrite_wfFrom b h (Nat.zero_le a)

/-- A store below a bound lists no address at or above it. -/
theorem memWrite_below {bound : Nat} : ∀ {m : Memory} {a : Nat} (b : Byte), memBelow bound m = true → a < bound →
    memBelow bound (memWrite m a b) = true
  | [], a, b, _, h => by
    by_cases hb : b = unlistedByte <;> simp [memWrite, memBelow, hb, h]
  | (a0, b0) :: t, a, b, hm, h => by
    simp only [memBelow, List.all_cons, Bool.and_eq_true, decide_eq_true_eq] at hm ⊢
    have ih : (memWrite t a b).all (fun c => decide (c.1 < bound)) = true := memWrite_below (m := t) b hm.2 h
    unfold memWrite
    split
    · split <;> simp only [List.all_cons, Bool.and_eq_true, decide_eq_true_eq]
      · exact hm
      · exact ⟨h, hm⟩
    · split
      · split
        · exact hm.2
        · simp only [List.all_cons, Bool.and_eq_true, decide_eq_true_eq]; exact ⟨h, hm.2⟩
      · simp only [List.all_cons, Bool.and_eq_true, decide_eq_true_eq]; exact ⟨hm.1, ih⟩

/-- A host store keeps the canonical form and the bound. -/
theorem payloadStore_wf {s : State} (a : Nat) (b : Byte) (h : Memory.wf s.payload = true) :
    Memory.wf (payloadStore s a b).payload = true := by
  unfold payloadStore; split
  · exact memWrite_wf a b h
  · exact h

theorem payloadStore_below {s : State} (a : Nat) (b : Byte) (h : memBelow s.cfg.payloadBytes s.payload = true) :
    memBelow s.cfg.payloadBytes (payloadStore s a b).payload = true := by
  unfold payloadStore; split
  · next ha => exact memWrite_below b h ha
  · exact h

/-- The memory of the reset state is canonical. -/
theorem reset_payload_wf : Memory.wf State.reset.payload = true := rfl

/-- A byte is taken once: the first value stays. -/
theorem takeByte_lookup (taken : List Host.Cell) (a : Nat) (b : Byte) :
    (takeByte taken a b).lookup a = some ((taken.lookup a).getD b) := by
  unfold takeByte
  cases h : taken.lookup a with
  | none => simp
  | some x => simp [h]

end Sys2Proof.Machine
end

