-- ==== Sys2Proof/Laws/PerInstr.lean ====
section
/-! SUPPORT. Statements about every instruction as syntax, one lemma per constructor. -/

namespace Sys2Proof.Laws

/-- R140, R145: the encoding of an instruction is its word 0 and the argument words its opcode needs, and word 0 carries
the opcode's code in its top byte. -/
def EncodedLength.Statement (i : Instr) : Prop :=
  (encode i).length = 1 + i.opcode.nargs ∧
    (i.wellFormed = true → fieldOP (argWord (encode i) 0) = i.opcode.code)

namespace EncodedLength

theorem start : Statement .start := ⟨rfl, fun _ => by decide⟩
theorem stop : Statement .stop := ⟨rfl, fun _ => by decide⟩
theorem close : Statement .close := ⟨rfl, fun _ => by decide⟩
theorem listSampleNames : Statement .listSampleNames := ⟨rfl, fun _ => by decide⟩

theorem setWaveform (id : Nat) : Statement (.setWaveform id) := by
  refine ⟨rfl, fun h => word0_fieldOP (opcode_code_lt _) ?_⟩
  simp [Instr.wellFormed, fits8] at h; omega

theorem setFilterCutoff (c : Nat) (hz : F32) : Statement (.setFilterCutoff c hz) := by
  refine ⟨rfl, fun h => word0_fieldOP (opcode_code_lt _) ?_⟩
  simp [Instr.wellFormed, fits8] at h; omega

theorem setEnvelope (c : Nat) (atk dec sus rel : F32) : Statement (.setEnvelope c atk dec sus rel) := by
  refine ⟨rfl, fun h => word0_fieldOP (opcode_code_lt _) ?_⟩
  simp [Instr.wellFormed, fits8] at h; omega

theorem loadWavetable (addr len : Nat) : Statement (.loadWavetable addr len) :=
  ⟨rfl, fun _ => word0_fieldOP (opcode_code_lt _) (by decide)⟩

theorem registerSample (root lo hi addr len naddr nlen : Nat) :
    Statement (.registerSample root lo hi addr len naddr nlen) := by
  refine ⟨rfl, fun h => word0_fieldOP (opcode_code_lt _) ?_⟩
  simp [Instr.wellFormed, fits8] at h; omega

theorem unregisterSample (index : Nat) : Statement (.unregisterSample index) := by
  refine ⟨rfl, fun h => word0_fieldOP (opcode_code_lt _) ?_⟩
  simp [Instr.wellFormed, fits16] at h; omega

theorem noteOff (c note : Nat) : Statement (.noteOff c note) := by
  refine ⟨rfl, fun h => word0_fieldOP (opcode_code_lt _) ?_⟩
  simp [Instr.wellFormed, fits8] at h; omega

theorem noteOn (c note vel : Nat) : Statement (.noteOn c note vel) := by
  refine ⟨rfl, fun h => word0_fieldOP (opcode_code_lt _) ?_⟩
  simp [Instr.wellFormed, fits8] at h; omega

theorem controlChange (c cc value : Nat) : Statement (.controlChange c cc value) := by
  refine ⟨rfl, fun h => word0_fieldOP (opcode_code_lt _) ?_⟩
  simp [Instr.wellFormed, fits8] at h; omega

theorem channelPressure (c value : Nat) : Statement (.channelPressure c value) := by
  refine ⟨rfl, fun h => word0_fieldOP (opcode_code_lt _) ?_⟩
  simp [Instr.wellFormed, fits8] at h; omega

theorem pitchBend (c value : Nat) : Statement (.pitchBend c value) := by
  refine ⟨rfl, fun h => word0_fieldOP (opcode_code_lt _) ?_⟩
  simp [Instr.wellFormed, fits8, fits16] at h; omega

end EncodedLength

end Sys2Proof.Laws
end

