-- ==== Sys2Proof/Tests/Slice0.lean ====
section
/-! SUPPORT. Tests: expected values come from the spec's own tables and vectors (30_encoding.md R156, 44 R309, 95_test_vectors.md),
named in each comment; then one witness for the hypotheses of each statement. -/

namespace Sys2Proof.Tests

open Sys2Proof Sys2Proof.Machine

/-! ## WellFormed: an operand that does not fit its field is refused -/

theorem test_wf_byte_operand : (Instr.setWaveform 256).wellFormed = false := by decide
theorem test_wf_channel_of_cutoff : (Instr.setFilterCutoff 256 0#32).wellFormed = false := by decide
theorem test_wf_channel_of_envelope : (Instr.setEnvelope 256 0#32 0#32 0#32 0#32).wellFormed = false := by decide
theorem test_wf_address : (Instr.loadWavetable 4294967296 0).wellFormed = false := by decide
theorem test_wf_length : (Instr.loadWavetable 0 4294967296).wellFormed = false := by decide
theorem test_wf_register_keys : (Instr.registerSample 256 0 0 0 0 0 0).wellFormed = false ∧
    (Instr.registerSample 0 256 0 0 0 0 0).wellFormed = false ∧
    (Instr.registerSample 0 0 256 0 0 0 0).wellFormed = false := by decide
theorem test_wf_register_words : (Instr.registerSample 0 0 0 4294967296 0 0 0).wellFormed = false ∧
    (Instr.registerSample 0 0 0 0 4294967296 0 0).wellFormed = false ∧
    (Instr.registerSample 0 0 0 0 0 4294967296 0).wellFormed = false ∧
    (Instr.registerSample 0 0 0 0 0 0 4294967296).wellFormed = false := by decide
theorem test_wf_index : (Instr.unregisterSample 65536).wellFormed = false := by decide
theorem test_wf_note_off : (Instr.noteOff 256 0).wellFormed = false ∧ (Instr.noteOff 0 256).wellFormed = false := by
  decide
theorem test_wf_note_on : (Instr.noteOn 256 0 0).wellFormed = false ∧ (Instr.noteOn 0 256 0).wellFormed = false ∧
    (Instr.noteOn 0 0 256).wellFormed = false := by decide
theorem test_wf_control_change : (Instr.controlChange 256 0 0).wellFormed = false ∧
    (Instr.controlChange 0 256 0).wellFormed = false ∧ (Instr.controlChange 0 0 256).wellFormed = false := by decide
theorem test_wf_pressure : (Instr.channelPressure 256 0).wellFormed = false ∧
    (Instr.channelPressure 0 256).wellFormed = false := by decide
theorem test_wf_bend : (Instr.pitchBend 256 0).wellFormed = false ∧ (Instr.pitchBend 0 65536).wellFormed = false := by
  decide

/-! ## Decoding: words written out bit by bit from R142's formats and R145's opcodes -/

/-- F_NONE 0x10, ignored bits set. -/
theorem test_decode_start : decode [0b00010000111111111111111111111111#32] = .ok (.start, []) := by decide
/-- F_NONE 0x11. -/
theorem test_decode_stop : decode [0b00010001000000000000000000000000#32] = .ok (.stop, []) := by decide
/-- F_NONE 0x12. -/
theorem test_decode_close : decode [0b00010010000000000000000000000000#32] = .ok (.close, []) := by decide
/-- F_B 0x20: b = 3, ignored bits set. -/
theorem test_decode_set_waveform : decode [0b00100000111111111111111100000011#32] = .ok (.setWaveform 3, []) := by decide
/-- F_CW1 0x21: c = 5, one binary32 word (R305's 1000.0); the word after it is left. -/
theorem test_decode_set_filter_cutoff :
    decode [0b00100001000001010000000000000000#32, 0x447A0000#32, 0x11000000#32] =
      .ok (.setFilterCutoff 5 0x447A0000#32, [0x11000000#32]) := by decide
/-- F_CW4 0x22: R306's worked example on channel 2. -/
theorem test_decode_set_envelope :
    decode [0b00100010000000100000000000000000#32, 0x40A00000#32, 0x42480000#32, 0x3F4CCCCD#32, 0x42C80000#32] =
      .ok (.setEnvelope 2 0x40A00000#32 0x42480000#32 0x3F4CCCCD#32 0x42C80000#32, []) := by decide
/-- F_W2 0x30 (E-7's words). -/
theorem test_decode_load_wavetable :
    decode [0b00110000000000000000000000000000#32, 0xFFFFFFF0#32, 0x20#32] =
      .ok (.loadWavetable 4294967280 32, []) := by decide
/-- F_RLH4 0x31: ROOT 60, LO 48, HI 72. -/
theorem test_decode_register_sample :
    decode [0b00110001001111000011000001001000#32, 0#32, 48#32, 64#32, 4#32] =
      .ok (.registerSample 60 48 72 0 48 64 4, []) := by decide
/-- F_D 0x32: D16 = 0x8001. -/
theorem test_decode_unregister_sample :
    decode [0b00110010111111111000000000000001#32] = .ok (.unregisterSample 32769, []) := by decide
/-- F_NONE 0x33. -/
theorem test_decode_list_sample_names :
    decode [0b00110011000000000000000000000000#32] = .ok (.listSampleNames, []) := by decide
/-- F_CAB 0x80: c = 7, the note 69 kept as syntax. -/
theorem test_decode_note_off : decode [0b10000000000001110100010100000000#32] = .ok (.noteOff 7 69, []) := by decide
/-- F_CAB 0x90: R292's worked example. -/
theorem test_decode_note_on : decode [0b10010000000000000100010101111111#32] = .ok (.noteOn 0 69 127, []) := by decide
/-- F_CAB 0xB0: R304's worked example. -/
theorem test_decode_control_change :
    decode [0b10110000000000100100101001111111#32] = .ok (.controlChange 2 74 127, []) := by decide
/-- F_CAB 0xD0: A = 0xFF ignored (R309). -/
theorem test_decode_channel_pressure :
    decode [0b11010000000000001111111101000000#32] = .ok (.channelPressure 0 64, []) := by decide
/-- F_CD 0xE0: R300's worked example. -/
theorem test_decode_pitch_bend :
    decode [0b11100000000000000011111111111111#32] = .ok (.pitchBend 0 16383, []) := by decide
/-- E-1, E-2: unassigned opcodes. -/
theorem test_decode_unassigned :
    decode [0x00000000#32] = .error (.unassigned 0) ∧ decode [0xFFFFFFFF#32] = .error (.unassigned 255) := by decide
/-- Too few argument words; no word. -/
theorem test_decode_incomplete :
    decode [0x22000000#32, 0#32] = .error (.incomplete .setEnvelope 1) ∧ decode [] = .error .noWord := by decide
/-- R156: the assembler's words, 0 in every ignored bit. -/
theorem test_encode_words :
    encode (.noteOff 3 69) = [0x80034500#32] ∧ encode (.channelPressure 1 64) = [0xD0010040#32] ∧
    encode (.pitchBend 2 8192) = [0xE0022000#32] ∧ encode (.unregisterSample 258) = [0x32000102#32] := by decide
/-- The opcode table's bits: word 0 first. -/
theorem test_decode_table_word :
    decodeTableWord 32 0x22070000 = some (.setEnvelope 7 0#32 0#32 0#32 0#32) ∧
    decodeTableWord 64 0x447A000021000000 = some (.setFilterCutoff 0 0x447A0000#32) ∧
    decodeTableWord 32 0x00000001 = none := by decide

/-! ## Execution -/

/-- The state an outcome goes on in. -/
def nextOf (o : Host.Outcome State Fault Refusal) : State :=
  match o with
  | .next s => s
  | .fault _ => State.reset
  | .refused _ => State.reset

/-- A small block: two channels, FIFOs of two words, 64 bytes of payload, two regions at most. -/
def tiny : State :=
  State.resetWith { Params.default with numChannels := 2, cmdDepth := 2, respDepth := 2, payloadBytes := 64, rMax := 2 }

/-- A sounding voice: note 69 in Sustain. -/
def sounding : Voice :=
  { Voice.reset with
    note := 69, baseFreq := 0x43DC0000#32, amp := 0x3E4CCCCD#32, target := 0x3E4CCCCD#32, stage := .sustain
    level := 0x3F4CCCCD#32, active := true, fcut := 0x469C4000#32 }

/-- `tiny` with voice 1 sounding and the stream playing. -/
def playing : State := { tiny.setVoice 1 sounding with stream := { opened := true, playing := true } }

/-- An empty region with the given range. -/
def regionOf (lo hi : Key) : Region :=
  { root := 60, lo := lo, hi := hi, rootFreq := 0x4382D012#32, name := [], band := Vector.replicate 11 zeroTable }

/-- A library with the values that R-1's first tick uses of the reference functions, read off R-2 (tcoef(5.0)), R-11
(alpha at 20000 Hz) and the PITCH_BEND table (value 16383); its bank is the sine, as B-1. -/
def refLib : Lib where
  fexp x := if fle x 0xBF800000#32 then fsub f1 0x3F6D5336#32 else fsub f1 0x3B884000#32
  fexp2 x := if x = f0 then f1 else 0x3F8FAC51#32
  fsin x := x
  flog2 x := x
  bank _ _ _ _ := fallback
  placeholderName := defaultPlaceholderName

/-- S-6: value 8192 gives 1.0 exactly, whatever the library. -/
theorem test_bend_centre : ((nextOf (exec (.pitchBend 1 8192) tiny)).chan 1).bend = 0x3F800000#32 := by decide
/-- The e column of the PITCH_BEND table: -0.16666667, and 0.083333336 for 12288. -/
theorem test_bend_exponent : bendExponent 0 = 0xBE2AAAAB#32 ∧ bendExponent 12288 = 0x3DAAAAAB#32 := by decide
/-- CHANNEL_PRESSURE 64 gives 0x3F010204 (R302). -/
theorem test_pressure : ((nextOf (exec (.channelPressure 1 64) tiny)).chan 1).at_ = 0x3F010204#32 := by decide
/-- CONTROL_CHANGE 74 with 64 gives 0x3F010204 and leaves the other channel (R304, R309). -/
theorem test_control_change :
    ((nextOf (exec (.controlChange 1 74 64) tiny)).chan 1).bright = 0x3F010204#32 ∧
    ((nextOf (exec (.controlChange 1 74 64) tiny)).chan 0).bright = 0#32 := by decide
/-- R309: cc 7 has no effect. -/
theorem test_control_change_other : exec (.controlChange 0 7 64) tiny = .next tiny := by rfl
/-- TARGET of velocities 1, 64, 100, 126 and 127 (95 section 5). -/
theorem test_note_on_target :
    ([1, 64, 100, 126, 127].map fun vel => ((nextOf (exec (.noteOn 1 60 vel) tiny)).voice 1).target) =
      [0x3ACE69A0#32, 0x3DCE69A0#32, 0x3E214285#32, 0x3E4B2FFA#32, 0x3E4CCCCD#32] := by decide
/-- R292: AMP is not written, LEVEL is, even on a sounding voice. -/
theorem test_note_on_retrigger :
    ((nextOf (exec (.noteOn 1 60 1) playing)).voice 1).amp = 0x3E4CCCCD#32 ∧
    ((nextOf (exec (.noteOn 1 60 1) playing)).voice 1).level = 0#32 ∧
    ((nextOf (exec (.noteOn 1 60 1) playing)).voice 1).stage = .attack := by decide
/-- R296. -/
theorem test_note_off :
    ((nextOf (exec (.noteOff 1 5) playing)).voice 1).stage = .release ∧
    ((nextOf (exec (.noteOff 1 5) playing)).voice 1).target = 0#32 ∧
    ((nextOf (exec (.noteOff 1 5) playing)).voice 1).active = true := by decide
/-- R309: CUTOFF = -3.0 is stored, a NaN is not. -/
theorem test_set_filter_cutoff :
    ((nextOf (exec (.setFilterCutoff 0 0xC0400000#32) tiny)).chan 0).cutoff = 0xC0400000#32 ∧
    ((nextOf (exec (.setFilterCutoff 0 0x7FC00000#32) tiny)).chan 0).cutoff = 0x469C4000#32 := by decide
/-- R309: SUS = clamp(1.5) = 1.0, written third. -/
theorem test_set_envelope :
    (runWork lib 4 (nextOf (exec (.setEnvelope 1 0#32 0#32 0x3FC00000#32 0#32) tiny))).chan 1 =
      { Channel.reset Params.default with atk := 0#32, dec := 0#32, sus := 0x3F800000#32, rel := 0#32 } := by decide
/-- R309: an infinite attack writes no field. -/
theorem test_set_envelope_dropped :
    exec (.setEnvelope 1 0x7F800000#32 0#32 0#32 0#32) tiny = .next tiny := by rfl
/-- R308, R309. -/
theorem test_set_waveform :
    (nextOf (exec (.setWaveform 4) tiny)).wave = .custom ∧ (nextOf (exec (.setWaveform 5) tiny)).wave = .sine := by decide
/-- P7: a failed open answers 0x10000000; a rate of 44100 then regenerates and answers 0x10000001. -/
theorem test_start :
    (runWork lib 1 (nextOf (exec .start { tiny with draws := [⟨false, 0#32⟩] }))).respq = [0x10000000#32] ∧
    (let t := runWork lib 4 (nextOf (exec .start { tiny with draws := [⟨true, 0x472C4400#32⟩] }))
     t.respq = [0x10000001#32] ∧ t.bankSr = 0x472C4400#32 ∧ t.sr = 0x472C4400#32 ∧
       t.stream = { opened := true, playing := true }) := by decide
/-- R332, R333. -/
theorem test_stop_close :
    (nextOf (exec .stop playing)).stream = { opened := true, playing := false } ∧
    (nextOf (exec .close playing)).stream = { opened := false, playing := false } ∧
    (nextOf (exec .close playing)).calls = [.driverClose] := by decide
/-- L-9 through LOAD_WAVETABLE: length 0 fails, the fallback's sample 512 is 1.0, Custom is selected, status 0x30000000. -/
theorem test_load_wavetable :
    (let t := runWork lib 3 (nextOf (exec (.loadWavetable 0 0) tiny))
     t.respq = [0x30000000#32] ∧ t.wave = .custom ∧ t.custom.valid = true) ∧
    fallbackAt 512 = 0x3F800000#32 ∧ fallbackAt 1 = 0x3B490FC6#32 ∧ fallbackAt 1536 = 0xBF800000#32 := by decide +kernel
/-- E-5: root 128 answers 0x31000000 and registers nothing. -/
theorem test_register_sample_refused :
    (let t := runWork lib 1 (nextOf (exec (.registerSample 128 48 72 0 48 0 0) tiny))
     t.respq = [0x31000000#32] ∧ t.regions = []) := by decide +kernel
/-- E-4 with 2 regions, and R338's removal of index 0. -/
theorem test_unregister_sample :
    (let s := { tiny with regions := [regionOf 1 2, regionOf 3 4] }
     (nextOf (exec (.unregisterSample 5) s)).regions.length = 2 ∧
     ((nextOf (exec (.unregisterSample 0) s)).regions.map fun r => r.lo) = [3]) := by decide
/-- R151: P3's name "Bell" is 0x6C6C6542; an unnamed region at index 0 reports "Sample 0". -/
theorem test_names_response :
    namesResponse refLib tiny.cfg [{ regionOf 0 1 with name := [0x42#8, 0x65#8, 0x6C#8, 0x6C#8] }] =
      [0x33000001#32, 4#32, 0x6C6C6542#32] ∧
    namesResponse refLib tiny.cfg [regionOf 0 1] = [0x33000001#32, 8#32, 0x706D6153#32, 0x3020656C#32] := by decide
/-- An empty list: the header alone (P3). -/
theorem test_list_sample_names :
    (runWork lib 1 (nextOf (exec .listSampleNames tiny))).respq = [0x33000000#32] := by decide

/-! ## Numbers, the bank and the tick -/

/-- S-1 and two more columns of 95 section 2. -/
theorem test_max_h : maxH 69 0x473B8000#32 = 54 ∧ maxH 0 0x473B8000#32 = 2935 ∧ maxH 127 0x473B8000#32 = 1 := by
  decide +kernel
/-- R-3: p = 0.25, 0.1 and 0.99999994 on the sine table. -/
theorem test_lerp : lerp fallbackAt 0x3E800000#32 = 0x3F800000#32 ∧ lerp fallbackAt 0x3DCCCCCD#32 = 0x3F167911#32 ∧
    lerp fallbackAt 0x3F7FFFFF#32 = 0xB4C90000#32 := by decide +kernel
/-- R-1, tick 1: PHASE, AMP, LEVEL and the output. -/
theorem test_first_tick :
    (let r := voiceStep refLib Params.default (snapshotOf tiny) (tiny.chan 0)
      (startVoice refLib 69 (targetOf Params.default 127) 0x469C4000#32 Voice.reset)
     r.2 = some 0x33C6221E#32 ∧ r.1.phase = 0x3C162FC9#32 ∧ r.1.amp = 0x3A5A0000#32 ∧ r.1.level = 0x3B884000#32 ∧
       r.1.stage = .attack) := by decide +kernel
/-- R-10: the same with aftertouch 1.0 is exactly twice as much. -/
theorem test_aftertouch_gain :
    (voiceStep refLib Params.default (snapshotOf tiny) { tiny.chan 0 with at_ := 0x3F800000#32 }
      (startVoice refLib 69 (targetOf Params.default 127) 0x469C4000#32 Voice.reset)).2 = some 0x3446221E#32 := by
  decide +kernel
/-- R-4: an increment above 1 wraps. -/
theorem test_phase_wrap : wrapPhase 0x3FC8B3A2#32 = 0x3F116744#32 := by decide
/-- The buffer W of 95 section 4. -/
def bufferW : List Nat :=
  [0x52, 0x49, 0x46, 0x46, 0x28, 0, 0, 0, 0x57, 0x41, 0x56, 0x45, 0x66, 0x6D, 0x74, 0x20, 0x10, 0, 0, 0, 1, 0, 1, 0] ++
  [0x80, 0xBB, 0, 0, 0, 0x77, 1, 0, 2, 0, 0x10, 0, 0x64, 0x61, 0x74, 0x61, 4, 0, 0, 0, 0, 0x40, 0, 0xC0]
/-- A byte list as a buffer. -/
def viewOf (bs : List Nat) (p : Nat) : Byte := BitVec.ofNat 8 (bs.getD p 0)
/-- L-1, L-2, L-4, L-5, L-6: the parse, and four ways to fail. -/
theorem test_parse :
    parseWave (viewOf bufferW) 48 = some { codec := .pcm16, channels := 1, count := 2, body := 44 } ∧
    parseWave (viewOf (bufferW.set 0 0x58)) 48 = none ∧ parseWave (viewOf (bufferW.set 34 8)) 48 = none ∧
    parseWave (viewOf bufferW) 46 = none ∧ parseWave (viewOf (bufferW.set 40 1)) 48 = none := by decide +kernel
/-- L-1 before normalisation (the peak is 0.5): r[1] = 0.4990234375, r[512] = 0.0, r[1024] = -0.5. -/
theorem test_resample :
    (let r := resampleAt (monoAt (viewOf bufferW) { codec := .pcm16, channels := 1, count := 2, body := 44 }) 2
     r 0 = 0x3F000000#32 ∧ r 1 = 0x3EFF8000#32 ∧ r 512 = 0#32 ∧ r 1024 = 0xBF000000#32) := by decide +kernel
/-- A region's sample band: BS-2's and BS-3's t give bands 6 and 5, BS-6's clamps to 10. -/
theorem test_band_index :
    (bandIndex { refLib with flog2 := fun _ => 0x3F9554AA#32 } f1 f1 = 6 ∧
     bandIndex { refLib with flog2 := fun _ => 0xBEFFFFFD#32 } f1 f1 = 5 ∧
     bandIndex { refLib with flog2 := fun _ => 0x40B2AAAB#32 } f1 f1 = 10) := by decide
/-- withFetchWord: the very next step runs the instruction. -/
theorem test_fetch_word :
    (nextOf (step (tiny.withFetchWord 32 0x20000002))).wave = .saw ∧
    ((nextOf (step (tiny.withFetchWord 64 0x447A000021000000))).chan 0).cutoff = 0x447A0000#32 := by decide
/-- R110: little-endian, and nothing beyond the memory's end. -/
theorem test_payload_read :
    payloadRead { tiny with payload := [(60, 0x52#8), (61, 0x49#8), (62, 0x46#8), (63, 0x46#8)] } 60 4 =
      some 0x46464952 ∧ payloadRead tiny 61 4 = none := by decide

/-- R247 with a coefficient of exactly 1.0 (a sample rate of 1.0, and an fexp that R13 admits): from the AMP of velocity 41 to
the TARGET of velocity 127 the rule's own arithmetic gives the value after HEADROOM, which R53 item 3 rules out (log
entry 21). -/
theorem test_follower_passes_headroom :
    targetOf Params.default 41 = 0x3D843BAB#32 ∧ targetOf Params.default 127 = Params.default.headroom ∧
    followAmp { refLib with fexp := fun _ => f0 } Params.default f1
      { sounding with amp := targetOf Params.default 41, target := targetOf Params.default 127 } =
        nextUp Params.default.headroom := by decide

/-- A float32 file of two channels whose one frame is the largest finite value twice. -/
def bufferLoud : List Nat :=
  [0x52, 0x49, 0x46, 0x46, 0x2C, 0, 0, 0, 0x57, 0x41, 0x56, 0x45, 0x66, 0x6D, 0x74, 0x20, 0x10, 0, 0, 0, 3, 0, 2, 0] ++
  [0x80, 0xBB, 0, 0, 0, 0xDC, 5, 0, 8, 0, 0x20, 0, 0x64, 0x61, 0x74, 0x61, 8, 0, 0, 0] ++
  [0xFF, 0xFF, 0x7F, 0x7F, 0xFF, 0xFF, 0x7F, 0x7F]

/-- R226, R227: the file is valid, its samples are finite, and R227's sum is infinite, which R226's "no NaN or infinity ever
enters a table" rules out; R231 says that no other input fails (log entry 8). -/
theorem test_downmix_overflows :
    parseWave (viewOf bufferLoud) 52 = some { codec := .float32, channels := 2, count := 1, body := 44 } ∧
    monoAt (viewOf bufferLoud) { codec := .float32, channels := 2, count := 1, body := 44 } 0 = 0x7F800000#32 := by
  decide +kernel

/-! ## Witnesses: a concrete state and operands that meet the hypotheses of each statement together -/

theorem witness_DecodeOfEncodeIsTheInstruction :
    (Instr.pitchBend 255 65535).wellFormed = true ∧
    (Instr.registerSample 255 255 255 4294967295 4294967295 4294967295 4294967295).wellFormed = true := by decide

theorem witness_DecodedCommandsAreWellFormedAndReencode :
    decode [0x3000FFFF#32, 7#32, 8#32, 9#32] = .ok (.loadWavetable 7 8, [9#32]) := by decide

theorem witness_IgnoredBitsMakeNoDifference :
    opcodeOf 0x20FFFF04#32 = some .setWaveform ∧ (Instr.channelPressure 255 255).wellFormed = true := by decide

/-- Both clauses: a command of one word, and one whose last word stands in CMDQ. -/
theorem witness_StepRunsTheDecodedCommand :
    (let s := { tiny with cmdq := [0x9000457F#32] }
     processorMoves s ∧ s.work = [] ∧ s.cmdq = 0x9000457F#32 :: [] ∧ s.dec = .idle ∧
       decode [0x9000457F#32] = .ok (.noteOn 0 69 127, [])) ∧
    (let s := { tiny with cmdq := [0x447A0000#32], dec := .collecting .setFilterCutoff [0x21000000#32] }
     processorMoves s ∧ s.work = [] ∧ s.cmdq = 0x447A0000#32 :: [] ∧
       s.dec = .collecting .setFilterCutoff [0x21000000#32] ∧ [0x21000000#32] ≠ [] ∧
       opcodeOf (argWord [0x21000000#32] 0) = some .setFilterCutoff ∧
       decode ([0x21000000#32] ++ [0x447A0000#32]) = .ok (.setFilterCutoff 0 0x447A0000#32, [])) :=
  ⟨⟨.inl rfl, rfl, rfl, rfl, by decide⟩, ⟨.inl rfl, rfl, rfl, rfl, by decide, by decide, by decide⟩⟩

theorem witness_DecoderCollectsAndConsumesWords :
    (processorMoves tiny ∧ tiny.work = [] ∧ tiny.cmdq = []) ∧
    (let s := { tiny with cmdq := [0xFF000000#32] }
     s.cmdq = 0xFF000000#32 :: [] ∧ s.dec = .idle ∧ opcodeOf 0xFF000000#32 = none) ∧
    (let s := { tiny with cmdq := [0x22000000#32] }
     s.dec = .idle ∧ opcodeOf 0x22000000#32 = some .setEnvelope ∧ Opcode.setEnvelope.nargs ≠ 0) ∧
    (let s := { tiny with cmdq := [0x90000000#32], dec := .collecting .setEnvelope [0x22000000#32, 0#32, 0#32] }
     s.dec = .collecting .setEnvelope [0x22000000#32, 0#32, 0#32] ∧
       [0x22000000#32, 0#32, 0#32].length < Opcode.setEnvelope.nargs) :=
  ⟨⟨.inl rfl, rfl, rfl⟩, by decide, by decide, by decide⟩

/-- A command with its last write left, and one with two. -/
theorem witness_ProcessorPerformsOneWritePointAStep :
    (let s := { tiny with turns := [.processor], work := [.writeRel 1 0#32] }
     processorMoves s ∧ holds (.writeRel 1 0#32) s = false) ∧
    (let s := { tiny with work := [.respond 0x30000001#32, .respond 0#32] }
     processorMoves s ∧ holds (.respond 0x30000001#32) s = false) :=
  ⟨⟨.inr ⟨[], rfl⟩, rfl⟩, ⟨.inl rfl, by decide⟩⟩

/-- Each clause at the boundary: CMDQ and RESPQ with one place left, and full. -/
theorem witness_FullQueuesHold :
    ({ tiny with cmdq := [0#32] }.cmdq.length < tiny.cfg.cmdDepth) ∧
    (tiny.cfg.cmdDepth ≤ { tiny with cmdq := [0#32, 0#32] }.cmdq.length) ∧
    ({ tiny with respq := [0#32] }.respq.length < tiny.cfg.respDepth) ∧
    (tiny.cfg.respDepth ≤ { tiny with respq := [0#32, 0#32] }.respq.length) ∧
    (let s := { tiny with turns := [.host], host := [.push 1#32] }
     s.turns = .host :: [] ∧ s.host = .push 1#32 :: []) := by decide

/-- A legal state in the middle of a SET_ENVELOPE, with a voice sounding. -/
def midEnvelope : State :=
  { playing with
    dec := .collecting .setEnvelope [0x22010000#32, 0#32, 0#32, 0x3FC00000#32, 0#32]
    work := [.writeSus 1 0x3FC00000#32, .writeRel 1 0#32] }

theorem witness_EveryStepKeepsTheStateLegal : Legal midEnvelope ∧ ∃ t, step midEnvelope = .next t :=
  ⟨⟨by decide, by decide, by decide, by decide, by decide, by decide, by decide, by decide, by decide, by decide⟩,
    ⟨_, rfl⟩⟩

theorem witness_EveryStepKeepsTheEnvelopeInRange : EnvelopeInRange midEnvelope ∧ ∃ t, step midEnvelope = .next t :=
  ⟨⟨by decide, by decide, by decide, by decide⟩, ⟨_, rfl⟩⟩

theorem tableInRange_zero : tableInRange zeroTable := fun i h => by
  unfold tableAt zeroTable
  rw [Vector.toArray_replicate, Array.toList_replicate, List.getD_replicate _ h]
  decide

/-- A sounding voice in a rendering tick and in a step that is no tick; and a library with the coefficients of 48000 Hz, AMP and
TARGET at HEADROOM. -/
theorem witness_EveryStepKeepsTheRegistersInRange :
    (let s := { playing with turns := [.tick true] }
     RegistersInRange (nextUp s.cfg.headroom) s ∧ ∃ t, step s = .next t) ∧
    (RegistersInRange midEnvelope.cfg.headroom midEnvelope ∧ (∀ d ts, midEnvelope.turns ≠ .tick d :: ts) ∧
      ∃ t, step midEnvelope = .next t) ∧
    ((∀ x, fle x f0 = true → inUnit (refLib.fexp x) = true) ∧ RegistersInRange playing.cfg.headroom playing ∧
      flt (tcoef refLib playing.cfg playing.cfg.ampTauRiseMs playing.sr) f1 = true ∧
      flt (tcoef refLib playing.cfg playing.cfg.ampTauFallMs playing.sr) f1 = true) ∧
    1 < playing.numLanes := by
  refine ⟨⟨⟨by decide, by decide, by decide, by decide, by decide⟩, ⟨_, rfl⟩⟩,
    ⟨⟨by decide, by decide, by decide, by decide, by decide⟩, fun d ts h => (nomatch h), ⟨_, rfl⟩⟩,
    ⟨fun x _ => ?_, ⟨by decide, by decide, by decide, by decide, by decide⟩, by decide +kernel, by decide +kernel⟩, by decide⟩
  unfold refLib
  dsimp only
  split <;> decide

/-- The position step of a file of two frames is 2^-10. -/
theorem scale_two : fdiv (ofInt ((2 : Nat) : Int)) f2048 = 0x3A800000#32 := by decide

/-- Two frames of magnitude at most 1.0 resample to finite values. -/
theorem resampleAt_two {m : Nat → F32} (h0 : magBits (m 0) ≤ 0x3F800000) (h1 : magBits (m 1) ≤ 0x3F800000) {j : Nat}
    (hj : j < 2048) : isFinite (resampleAt m 2 j) = true := by
  have hm : ∀ i, i < 2 → magBits (m i) ≤ 0x3F800000 := fun i hi => by
    obtain rfl | rfl : i = 0 ∨ i = 1 := by omega
    exacts [h0, h1]
  have g2 : gridUnits 0x40000000 = 2 ^ 150 := by decide
  have g4 : gridUnits 0x40800000 = 2 ^ 151 := by decide
  have gT : gridUnits 0x45000000 = 2 ^ 160 := by decide
  have g1 : gridUnits 0x3F800000 = 2 ^ 149 := by decide
  have us : magUnits 0x3A800000#32 = 2 ^ 139 := by decide
  have bj : magBits (ofInt (j : Int)) ≤ 0x45000000 := magBits_ofInt_nat_le (e := 11) _ gT (by omega) (by norm_num)
  have uj := magUnits_le bj
  rw [gT] at uj
  have bp : magBits (fmul (ofInt (j : Int)) 0x3A800000#32) ≤ 0x40000000 :=
    magBits_fmul_le (isFinite_of_le bj (by norm_num)) (by decide) (by
      rw [us, g2]
      exact (Nat.mul_le_mul_right _ uj).trans (by norm_num [unitsPerOne])) (by norm_num)
  have up := magUnits_le bp
  rw [g2] at up
  unfold resampleAt
  rw [scale_two]
  dsimp only
  generalize fmul (ofInt (j : Int)) 0x3A800000#32 = pos at bp up
  generalize hi' : (min (ffloor pos) (((2 : Nat) : Int) - 1)).toNat = i
  have hi : i < 2 := by omega
  have bi : magBits (ofInt (i : Int)) ≤ 0x3F800000 := magBits_ofInt_nat_le (e := 0) _ g1 (by omega) (by norm_num)
  have ui := magUnits_le bi
  rw [g1] at ui
  exact mix_finite (hm i hi) (hm _ (Nat.mod_lt _ (by norm_num)))
    (magBits_fsub_le (isFinite_of_le bp (by norm_num)) (isFinite_of_le bi (by norm_num)) (by rw [g4]; omega) (by norm_num))
/-- A sounding voice in a rendering tick; the buffer W about to be published, its bytes in the payload; a float32 file; and a
library whose fexp2 is the one of `refLib`. -/
theorem witness_EveryStepKeepsTheSoundInRange :
    (let s := { playing with turns := [.tick true] }
     SoundInRange s ∧ (∀ l ∈ s.lanes, l.voice.active = true → incrementOk s.sr l = true) ∧ nextLoadFinite s ∧
       ∃ t, step s = .next t) ∧
    (let s := { playing with
                payload := bufferW.zipIdx.filterMap fun p => if p.1 = 0 then none else some (p.2, BitVec.ofNat 8 p.1)
                work := [.publishCustom 0 48 []] }
     (∀ l ∈ s.lanes, l.voice.active = true → incrementOk s.sr l = true) ∧ nextLoadFinite s ∧ ∃ t, step s = .next t) ∧
    1 < playing.numLanes ∧ (positiveFinite tiny.cfg.peakFloor = true ∧ 16 + 48 ≤ tiny.cfg.payloadBytes) ∧
    samplesTame (viewOf (((bufferW.set 20 3).set 34 32).take 44 ++ [0, 0, 0x80, 0xBF])) 0 48 ∧ paramsOk Params.default = true ∧ rateOk Params.default 0x473B8000#32 = true ∧
    (∀ x, fle (fabs x) 0x41800000#32 = true →
      fle 0x2B800000#32 (refLib.fexp2 x) = true ∧ fle (refLib.fexp2 x) 0x53800000#32 = true) ∧
    (let l : Lane := { chan := { Channel.reset Params.default with bend := bendRatio refLib 16383 }
                       voice := { sounding with baseFreq := midiToHz refLib 127 } }
     127 ≤ 127 ∧ 16383 ≤ 16383 ∧ l.voice.baseFreq = midiToHz refLib 127 ∧ l.chan.bend = bendRatio refLib 16383) := by
  refine ⟨⟨⟨⟨by decide, by decide, by decide, by decide, by decide⟩, by decide, by decide, tableInRange_zero,
      fun _ h => (nomatch h)⟩, by decide, trivial, ⟨_, rfl⟩⟩,
    ⟨by decide, ?_, ⟨_, rfl⟩⟩, by decide, by decide, ?_, by decide, by decide, fun x _ => ?_, by decide, by decide, rfl, rfl⟩
  · intro fr h
    have e : parseWave (fun p => takenRead [] (bufferW.zipIdx.filterMap fun q =>
        if q.1 = 0 then none else some (q.2, BitVec.ofNat 8 q.1)) (0 + p)) 48 =
          some { codec := .pcm16, channels := 1, count := 2, body := 44 } := by decide +kernel
    rw [e] at h
    rw [← Option.some.inj h]
    exact fun j hj => resampleAt_two (by decide +kernel) (by decide +kernel) hj
  · intro fr h _
    have e : parseWave (fun p => viewOf (((bufferW.set 20 3).set 34 32).take 44 ++ [0, 0, 0x80, 0xBF]) (0 + p)) 48 =
        some { codec := .float32, channels := 1, count := 1, body := 44 } := by decide +kernel
    rw [e] at h
    rw [← Option.some.inj h]
    decide +kernel
  · unfold refLib
    dsimp only
    split <;> decide

theorem witness_ResetMeetsEveryInvariant : paramsOk tiny.cfg = true := by decide

theorem witness_NoStepChangesParametersOrLaneCount : ∃ t, step midEnvelope = .next t := ⟨_, rfl⟩

/-- Reads that end at the memory's last byte, a tick, and a host store to the last byte. -/
theorem witness_PayloadMemoryIsLittleEndianAndReadOnly :
    (60 + 4 ≤ tiny.cfg.payloadBytes) ∧
    ((∀ ts, { tiny with turns := [.tick true] }.turns ≠ .host :: ts) ∧
      ∃ t, step { tiny with turns := [.tick true] } = .next t) ∧
    (63 < tiny.cfg.payloadBytes ∧ Memory.wf { tiny with payload := [(63, 1#8)] }.payload = true) :=
  ⟨by decide, ⟨fun ts h => by simp at h, ⟨_, rfl⟩⟩, by decide⟩

/-- A load and a registration in progress with a host store to the last byte, read before and not. -/
theorem witness_RacingStoresAreSeenByteByByte :
    (let s := { tiny with work := [.publishCustom 0 48 [(3, 1#8)]], turns := [.host], host := [.store 63 7#8 true false] }
     s.work = .publishCustom 0 48 [(3, 1#8)] :: [] ∧ s.turns = .host :: [] ∧ s.host = .store 63 7#8 true false :: [] ∧
       63 < s.cfg.payloadBytes ∧ Memory.wf s.payload = true) ∧
    (let s := { tiny with
                work := [.publishRegion 60 0 127 0 48 60 4 [] [(63, 1#8)]]
                turns := [.host]
                host := [.store 63 7#8 false true] }
     s.work = .publishRegion 60 0 127 0 48 60 4 [] [(63, 1#8)] :: [] ∧ s.turns = .host :: [] ∧
       s.host = .store 63 7#8 false true :: [] ∧ 63 < s.cfg.payloadBytes ∧ Memory.wf s.payload = true) := by decide

/-- Both clauses at their boundaries, and the word. -/
theorem witness_NoteOnResetsItsVoice :
    fieldOP 0x9007FFFF#32 = 0x90 ∧ 7 < State.reset.numLanes ∧ 127 ≤ 127 ∧ State.reset.numLanes ≤ 8 ∧ 127 < 128 := by
  decide

theorem witness_NoteOffReleasesAnActiveVoice :
    fieldOP 0x80FFFFFF#32 = 0x80 ∧ 1 < playing.numLanes ∧ (playing.voice 1).active = true ∧
    (playing.voice 0).active = false ∧ playing.numLanes ≤ 2 := by decide

theorem witness_VelocityZeroNoteIsRetiredByItsFirstTick :
    1 < tiny.numLanes ∧ 127 ≤ 127 ∧ (tiny.voice 1).amp = 0#32 ∧ paramsOk tiny.cfg = true ∧
    flt f0 tiny.cfg.ampEps = true ∧ rateOk tiny.cfg (snapshotOf tiny).sr = true := by decide

theorem witness_PitchBendWritesTheRatio :
    fieldOP 0xE0FFFFFF#32 = 0xE0 ∧ 7 < State.reset.numLanes ∧ 16383 ≤ 16383 ∧ State.reset.numLanes ≤ 8 ∧
    16383 < 16384 := by decide

theorem witness_ChannelPressureWritesAftertouch :
    fieldOP 0xD0FFFFFF#32 = 0xD0 ∧ 7 < State.reset.numLanes ∧ 127 ≤ 127 ∧ State.reset.numLanes ≤ 8 ∧ 127 < 128 := by
  decide

/-- Both clauses. -/
theorem witness_ControlChangeWritesBrightnessOnly :
    fieldOP 0xB0FFFFFF#32 = 0xB0 ∧ 7 < State.reset.numLanes ∧ 127 ≤ 127 ∧ (74 : Nat) = 74 ∧ (75 : Nat) ≠ 74 ∧
    State.reset.numLanes ≤ 8 ∧ 127 < 128 := by decide

theorem witness_BrightnessNeverReachesTheOutput : 7 < State.reset.numLanes ∧ 127 ≤ 127 ∧ 1 < playing.numLanes := by
  decide

/-- 2^64 itself, the bound. -/
theorem witness_SetFilterCutoffStoresItsArgument :
    fieldOP 0x21FFFFFF#32 = 0x21 ∧ 7 < State.reset.numLanes ∧ isFinite 0xDF800000#32 = true ∧
    fle (fabs 0xDF800000#32) State.reset.cfg.cutoffAbsMax = true ∧ State.reset.numLanes ≤ 8 ∧
    isFinite 0x7FC00000#32 = false ∧ fle (fabs 0xDF800001#32) State.reset.cfg.cutoffAbsMax = false := by decide

/-- The largest finite time and the least negative one. -/
theorem witness_SetEnvelopeWritesFourFieldsInOrder :
    fieldOP 0x22FFFFFF#32 = 0x22 ∧ tiny.numLanes ≤ 2 ∧ isFinite 0x7F800000#32 = false ∧
    tiny.work = [] ∧ 1 < tiny.numLanes ∧ isFinite 0x7F7FFFFF#32 = true ∧ isFinite 0x80000001#32 = true ∧
    isFinite 0xBF800000#32 = true ∧ isFinite 0#32 = true := by decide

theorem witness_SetWaveformWritesTheSelector : fieldOP 0x20FFFF05#32 = 0x20 ∧ 4 < 5 := by decide

theorem witness_StopAndCloseChangeTheStreamOnly : fieldOP 0x11FFFFFF#32 = 0x11 ∧ fieldOP 0x12FFFFFF#32 = 0x12 := by
  decide

/-- Each command's first values out of range. -/
theorem witness_OutOfRangeChannelCommandsAreDropped :
    State.reset.numLanes ≤ 8 ∧ 127 < 128 ∧ 16383 < 16384 ∧ isFinite 0x7F800000#32 = false ∧
    fle (fabs 0x5F800001#32) State.reset.cfg.cutoffAbsMax = false ∧ 4 < 5 := by decide

/-- A closed block with an answer at the rate bound; one with a rate above it; an open block. -/
theorem witness_StartNegotiatesAndAnswers :
    fieldOP 0x10ABCDEF#32 = 0x10 ∧
    (let s := { tiny with draws := [⟨true, 0x49800000#32⟩] }
     s.work = [] ∧ s.respq.length < s.cfg.respDepth ∧ s.stream.opened = false ∧ (nextDraw s).ok = true ∧
       fle s.cfg.srMin (nextDraw s).sr = true ∧ fle (nextDraw s).sr s.cfg.srMax = true) ∧
    (let s := { tiny with draws := [⟨true, 0x49800001#32⟩] }
     s.stream.opened = false ∧ fle (nextDraw s).sr s.cfg.srMax = false) ∧
    (let s := { tiny with draws := [⟨true, 0x3F7FFFFF#32⟩] }
     s.stream.opened = false ∧ fle s.cfg.srMin (nextDraw s).sr = false) ∧
    (let s := { tiny with draws := [⟨false, 0x473B8000#32⟩] }
     s.stream.opened = false ∧ (nextDraw s).ok = false) ∧
    (playing.stream.opened = true ∧ playing.work = [] ∧ playing.respq.length < playing.cfg.respDepth) := by decide

/-- And the run in it does come to play. -/
theorem witness_StartWritesTheStreamLast :
    (let s := { tiny with draws := [⟨true, 0x472C4400#32⟩] }
     s.stream.opened = false ∧ s.stream.playing = false ∧ s.work = [] ∧
       (runWork lib 3 (nextOf (exec .start s))).stream.playing = true) := by decide

theorem witness_LoadWavetablePublishesThenSelects :
    fieldOP 0x30FFFFFF#32 = 0x30 ∧
    (let s := { tiny with respq := [0#32] }
     s.work = [] ∧ s.respq.length < s.cfg.respDepth) := by decide

/-- The list's last place, the last key, a name that ends at the memory's end; then each ground of refusal at its
boundary. -/
theorem witness_RegisterSampleAppendsOrRefuses :
    fieldOP 0x31803048#32 = 0x31 ∧
    (let s := { tiny with regions := [regionOf 1 2] }
     s.work = [] ∧ s.respq.length < s.cfg.respDepth ∧ 127 ≤ 127 ∧ s.regions.length < s.cfg.rMax ∧
       60 + 4 ≤ s.cfg.payloadBytes) ∧
    (let s := { tiny with regions := [regionOf 1 2, regionOf 3 4] }
     s.work = [] ∧ s.respq.length < s.cfg.respDepth ∧ 127 < 128 ∧ s.cfg.rMax ≤ s.regions.length ∧
       s.cfg.payloadBytes < 61 + 4) := by decide

/-- The last index, and the first beyond the list. -/
theorem witness_UnregisterSampleRemovesOneElement :
    (let s := { tiny with regions := [regionOf 1 2, regionOf 3 4] }
     1 < s.regions.length ∧ s.regions.length ≤ 2) ∧ fieldOP 0x32FF8001#32 = 0x32 := by decide

/-- Room in RESPQ; and a list of R_MAX regions, one name of NAME_MAX bytes. -/
theorem witness_ListSampleNamesReportsTheList :
    fieldOP 0x33FFFFFF#32 = 0x33 ∧ tiny.work = [] ∧
    tiny.respq.length + (namesResponse lib tiny.cfg tiny.regions).length ≤ tiny.cfg.respDepth ∧
    (let s := { tiny with regions := [{ regionOf 1 2 with name := List.replicate 64 0x41#8 }, regionOf 3 4] }
     1 ≤ s.cfg.nameMax ∧ s.regions.length ≤ s.cfg.rMax ∧ ∀ r ∈ s.regions, r.name.length ≤ s.cfg.nameMax) := by decide

/-- Both ways to be silent. -/
theorem witness_StoppedTickIsSilentAndChangesNothing :
    (let s := { tiny with turns := [.tick true] }
     s.turns = .tick true :: [] ∧ s.stream.playing = false) ∧
    (let s := { playing with turns := [.tick false] }
     s.turns = .tick false :: []) := by decide

/-- An active and an inactive voice. -/
theorem witness_TickTouchesOnlyActiveVoices :
    (let s := { playing with turns := [.tick true] }
     s.turns = .tick true :: [] ∧ (s.voice 0).active = false ∧ (s.voice 1).active = true) := by decide

theorem witness_TickSumsVoicesInAscendingOrder : playing.stream.playing = true ∧ 1 < playing.numLanes := by decide

/-- A silenced voice, and a released one whose level comes to RELEASE_EPS, under `refLib`. -/
theorem witness_ExtinguishChecksRetireTheVoice :
    (let v := { sounding with target := 0x80000000#32, amp := 0x38000000#32 }
     (feq v.target f0 && flt (followAmp refLib Params.default 0x473B8000#32 v) Params.default.ampEps) = true) ∧
    (let v := { sounding with stage := .release, level := 0x3727C5AC#32 }
     (feq v.target f0 && flt (followAmp refLib Params.default 0x473B8000#32 v) Params.default.ampEps) = false ∧
     v.stage = .release ∧
     fle (fclamp (fadd v.level (fmul (tcoef refLib Params.default (Channel.reset Params.default).rel 0x473B8000#32)
       (fsub f0 v.level))) f0 f1) Params.default.releaseEps = true) := by decide +kernel

/-- Each stage. -/
theorem witness_EnvelopeStagesFollowTheirLaws :
    { sounding with stage := .attack }.stage = .attack ∧ { sounding with stage := .decay }.stage = .decay ∧
    sounding.stage = .sustain ∧ { sounding with stage := .release }.stage = .release ∧ Voice.reset.stage = .idle := by
  decide

/-- A voice in Sustain, and one in Release whose new level is still above RELEASE_EPS. -/
theorem witness_SoundingVoiceFiltersItsSample :
    ∀ v ∈ [sounding, { sounding with stage := .release, target := 0#32, level := 0x37400000#32 }],
      let v3 := { v with phase := advancePhase 0x473B8000#32 (playing.chan 1) v
                         amp := followAmp refLib Params.default 0x473B8000#32 v }
      let e := stepEnvelope refLib Params.default 0x473B8000#32 (playing.chan 1) v3
      (feq v.target f0 && flt v3.amp Params.default.ampEps) = false ∧
        ¬(v.stage = .release ∧ fle e.level Params.default.releaseEps = true) := by decide +kernel

/-- Every class: custom, a region's band, and each bank kind with no region and, for Custom, no table. -/
theorem witness_SourceTableFollowsThePriority :
    (let g := { snapshotOf tiny with sel := .custom, cust := { valid := true, table := zeroTable } }
     g.sel = .custom ∧ g.cust.valid = true) ∧
    (let g := { snapshotOf tiny with sel := .saw, regs := [regionOf 9 8, regionOf 0 127] }
     g.sel ≠ .custom ∧ firstRegion g.regs 127 = some (regionOf 0 127)) ∧
    (let g := { snapshotOf tiny with sel := .custom }
     g.cust.valid = false ∧ firstRegion g.regs 69 = none) :=
  ⟨⟨rfl, rfl⟩, ⟨by decide, rfl⟩, ⟨rfl, rfl⟩⟩

/-- A huge time, a negative time, and a cutoff of zero. -/
theorem witness_CoefficientsFollowTheirLawWithinTheUnitInterval :
    paramsOk Params.default = true ∧ positiveFinite 0x3F800000#32 = true ∧ isFinite 0x7F7FFFFF#32 = true ∧
    isFinite 0xFF7FFFFF#32 = true ∧ fle f0 0x80000000#32 = true := by decide

theorem witness_AttackNeverFallsAndReleaseNeverRises :
    paramsOk Params.default = true ∧ positiveFinite 0x473B8000#32 = true ∧
    isFinite (Channel.reset Params.default).atk = true ∧ isFinite (Channel.reset Params.default).rel = true ∧
    inUnit { sounding with stage := .attack, level := f1 }.level = true ∧
    inUnit { sounding with stage := .release }.level = true ∧ isFinite (Channel.reset Params.default).dec = true ∧
    inUnit (Channel.reset Params.default).sus = true := by decide

/-- 1.0 and 3.0: a sum, a difference, a product and a quotient. -/
theorem witness_ArithmeticRoundsToNearestEven :
    isFinite f1 = true ∧ isFinite 0x40400000#32 = true ∧ toRat 0x40400000#32 ≠ 0 ∧ |((16777217 : Int) : ℚ)| < overflowBound := by
  refine ⟨by decide, by decide, ?_, ?_⟩
  · have : valUnits 0x40400000#32 ≠ 0 := by decide
    unfold toRat
    exact div_ne_zero (by exact_mod_cast this) (by norm_num)
  · norm_num [overflowBound]

theorem witness_PhaseWrapIsExactAndInRange : isFinite 0x3FC8B3A2#32 = true ∧ fle f0 0x3FC8B3A2#32 = true := by decide

/-- The largest phase below 1.0, whose index is 2047, so that i1 wraps to 0; and 0.0. -/
theorem witness_LookupInterpolatesInsideTheTable :
    (isFinite 0x3F7FFFFF#32 = true ∧ fle f0 0x3F7FFFFF#32 = true ∧ flt 0x3F7FFFFF#32 f1 = true ∧
      ((ffloor (fmul 0x3F7FFFFF#32 f2048)).toNat + 1) % 2048 = 0) ∧
    (isFinite f0 = true ∧ fle f0 f0 = true ∧ flt f0 f1 = true) ∧
    (∀ i, i < 2048 → fallbackAt i = (fun j => if j < 2048 then fallbackAt j else f1) i) :=
  ⟨by decide, by decide, fun i h => by simp [h]⟩

/-- Two regions that cover the note, and one that covers none. -/
theorem witness_FirstCoveringRegionWins :
    firstRegion [regionOf 9 8, regionOf 60 60, regionOf 0 127] 60 = some (regionOf 60 60) ∧
    (regionOf 9 8).hi.toNat < (regionOf 9 8).lo.toNat := ⟨rfl, by decide⟩

/-- The distances that select a band below, in and above the range. -/
theorem witness_BandIndexIsTheClampedNearestOctave :
    ffloor (fadd 0xC0C00000#32 fHalf) + 5 < 0 ∧ 10 < ffloor (fadd 0x40B2AAAB#32 fHalf) + 5 ∧
    0 ≤ ffloor (fadd 0xC0A00000#32 fHalf) + 5 ∧ ffloor (fadd 0xC0A00000#32 fHalf) + 5 ≤ 10 := by decide

theorem witness_BandsAreTwoOnePolePasses : 10 ≤ 10 := by decide

/-- A buffer whose fmt chunk has 8 bytes, and the float32 one of L-10, whose first sample is a NaN. -/
def bufferShortFmt : List Nat :=
  bufferW.take 16 ++ [8, 0, 0, 0, 1, 0, 1, 0, 0x80, 0xBB, 0, 0, 0x64, 0x61, 0x74, 0x61, 4, 0, 0, 0, 0, 0x40, 0, 0xC0]
def bufferNaN : List Nat := ((bufferW.set 20 3).set 34 32).take 44 ++ [0, 0, 0xC0, 0x7F]

/-- Each ground of failure on its own, in the order of the statement; then the success of L-1 at the memory's end. -/
theorem witness_LoaderAnswersItsTableOrTheFallback :
    (load tiny.cfg (viewOf bufferW) 17 48).2 = false ∧ tiny.cfg.payloadBytes < 17 + 48 ∧ 11 < 12 ∧
    leBytes (viewOf (bufferW.set 0 0x58)) 0 4 ≠ 0x46464952 ∧ leBytes (viewOf (bufferW.set 8 0x58)) 8 4 ≠ 0x45564157 ∧
    (let w := chunkWalk (viewOf (bufferW.set 36 0x58)) 48 48 12 none none
     w.1 = some ⟨20, 16⟩ ∧ w.2 = none) ∧
    chunkWalk (viewOf bufferShortFmt) 40 40 12 none none = (some ⟨20, 8⟩, some ⟨36, 4⟩) ∧
    (∀ B ∈ [viewOf bufferW, viewOf (bufferW.set 34 8), viewOf (bufferW.set 22 0), viewOf (bufferW.set 22 3), viewOf bufferNaN],
      chunkWalk B 48 48 12 none none = (some ⟨20, 16⟩, some ⟨44, 4⟩)) ∧
    (leBytes (viewOf (bufferW.set 34 8)) 34 2 = 8) ∧ leBytes (viewOf (bufferW.set 22 0)) 22 2 = 0 ∧
    (leBytes (viewOf (bufferW.set 22 3)) 22 2 = 3 ∧ 4 < 2 * 3) ∧ 4 < 4 * 2 ∧
    (leBytes (viewOf bufferNaN) 20 2 = 3 ∧ leBytes (viewOf bufferNaN) 34 2 = 32 ∧ 0 < 4 / (1 * 4) * 1 ∧
      isFinite (BitVec.ofNat 32 (leBytes (viewOf bufferNaN) (44 + 4 * 0) 4)) = false) ∧
    (16 + 48 ≤ tiny.cfg.payloadBytes ∧ 16 ≤ 16 ∧ leBytes (viewOf bufferW) 20 2 = 1 ∧ leBytes (viewOf bufferW) 22 2 = 1 ∧
      leBytes (viewOf bufferW) 34 2 = 16 ∧ 2 * 1 ≤ 4) ∧
    parseWave (viewOf bufferW) 48 = some { codec := .pcm16, channels := 1, count := 2, body := 44 } := by decide +kernel

/-- The buffer W: a PCM buffer of two frames; a float32 buffer of one frame; and the buffer of L-10. -/
theorem witness_PlainWaveBufferParses :
    (let B := viewOf bufferW
     leBytes B 0 4 = 0x46464952 ∧ leBytes B 8 4 = 0x45564157 ∧ leBytes B 12 4 = 0x20746D66 ∧ leBytes B 16 4 = 16 ∧
     leBytes B 20 2 = 1 ∧ leBytes B 22 2 = 1 ∧ leBytes B 34 2 = 16 ∧ leBytes B 36 4 = 0x61746164 ∧ leBytes B 40 4 = 4 ∧
     44 + 4 ≤ 48 ∧ 2 * 1 ≤ 4) ∧
    (let B := viewOf (((bufferW.set 20 3).set 34 32).take 44 ++ [0, 0, 0x80, 0xBF])
     leBytes B 20 2 = 3 ∧ leBytes B 34 2 = 32 ∧ 4 * 1 ≤ 4 ∧
     ∀ k, k < 4 / (1 * 4) * 1 → isFinite (BitVec.ofNat 32 (leBytes B (44 + 4 * k) 4)) = true) ∧
    (let B := viewOf bufferNaN
     leBytes B 20 2 = 3 ∧ leBytes B 34 2 = 32 ∧ 4 * 1 ≤ 4 ∧
       ∃ k, k < 4 / (1 * 4) * 1 ∧ isFinite (BitVec.ofNat 32 (leBytes B (44 + 4 * k) 4)) = false) ∧
    (¬((3 : Nat) = 1 ∧ (16 : Nat) = 16) ∧ ¬((3 : Nat) = 3 ∧ (16 : Nat) = 32)) ∧ 3 < 2 * 2 ∧ 4 < 4 * 2 := by decide +kernel

/-- The silent table, and the table of ones, whose peak is 1.0. -/
theorem witness_NormalisedTableHasUnitPeak :
    positiveFinite Params.default.peakFloor = true ∧
    (∀ i, i < 2048 → isFinite (tableAt zeroTable i) = true) ∧ (∀ i, i < 2048 → feq (tableAt zeroTable i) f0 = true) ∧
    (let r : Table := Vector.replicate 2048 f1
     (∀ i, i < 2048 → isFinite (tableAt r i) = true) ∧
       fle Params.default.peakFloor ((List.range 2048).foldl (fun p j => fmax p (fabs (tableAt r j))) f0) = true) := by
  have at_ : ∀ (x : F32) (i : Nat), i < 2048 → tableAt (Vector.replicate 2048 x) i = x := fun x i h => by
    unfold tableAt
    rw [Vector.toArray_replicate, Array.toList_replicate, List.getD_replicate _ h]
  have fold : ∀ (l : List Nat) (acc : F32), acc = f0 ∨ acc = f1 → l ≠ [] → (∀ j ∈ l, j < 2048) →
      l.foldl (fun p j => fmax p (fabs (tableAt (Vector.replicate 2048 f1) j))) acc = f1 := by
    intro l
    induction l with
    | nil => intro _ _ h; exact absurd rfl h
    | cons j l ih =>
      intro acc ha _ hl
      have e : fmax acc (fabs (tableAt (Vector.replicate 2048 f1) j)) = f1 := by
        rw [at_ _ _ (hl j (List.mem_cons_self ..))]
        rcases ha with rfl | rfl <;> decide
      rw [List.foldl_cons, e]
      by_cases hn : l = []
      · rw [hn]; rfl
      · exact ih f1 (.inr rfl) hn fun k hk => hl k (List.mem_cons_of_mem _ hk)
  refine ⟨by decide, fun i h => ?_, fun i h => ?_, fun i h => ?_, ?_⟩
  · rw [zeroTable, at_ _ i h]; decide
  · rw [zeroTable, at_ _ i h]; decide
  · rw [at_ _ i h]; decide
  · rw [fold _ _ (.inl rfl) (by simp) fun j hj => List.mem_range.1 hj]; decide

theorem witness_HarmonicLimitIsTheExactFloor : 127 ≤ 127 ∧ positiveFinite 0x473B8000#32 = true := by decide

/-- The rate after reset: note 127 has the harmonic limit 1, note 120 has 2. -/
theorem witness_StoredBankRoundsTheIdealTables :
    paramsOk Params.default = true ∧ maxH (127 : Key).toNat 0x473B8000#32 = 1 ∧
    maxH (120 : Key).toNat 0x473B8000#32 = 2 := by decide +kernel

/-- The lowest harmonic above a limit of 54, and the highest. -/
theorem witness_GeneratedTablesHaveUnitPeakAndNoHighHarmonics :
    paramsOk Params.default = true ∧ maxH (69 : Key).toNat 0x473B8000#32 < 55 ∧ 55 ≤ 1024 ∧
    maxH (69 : Key).toNat 0x473B8000#32 < 1024 := by decide +kernel

end Sys2Proof.Tests
end

section
/-! Rounding as nearest-even (R12): what `roundMag` picks, and where it overflows. -/

namespace Sys2Proof.Machine

/-! ## The grid -/

/-- A grid point is a significand below 2^24 shifted, and the next one is one significand more: by a shift of 0 or of a full
significand. -/
theorem gridUnits_decomp (m : Nat) : ∃ q sh, q < 16777216 ∧ (sh = 0 ∨ 8388608 ≤ q) ∧ m = sh * 8388608 + q ∧
    gridUnits m = q * 2 ^ sh ∧ gridUnits (m + 1) = (q + 1) * 2 ^ sh := by
  have key : ∀ q sh, q < 16777216 → (sh = 0 ∨ 8388608 ≤ q) → m = sh * 8388608 + q →
      gridUnits m = q * 2 ^ sh ∧ gridUnits (m + 1) = (q + 1) * 2 ^ sh := fun q sh hq hs e => by
    rw [e, Nat.add_assoc]
    exact ⟨gridUnits_shift sh q (by omega) hs, gridUnits_shift sh (q + 1) (by omega) (by omega)⟩
  by_cases h : m < 8388608
  · exact ⟨m, 0, by omega, .inl rfl, by omega, key m 0 (by omega) (.inl rfl) (by omega)⟩
  · exact ⟨m % 8388608 + 8388608, m / 8388608 - 1, by omega, .inr (by omega), by omega,
      key _ _ (by omega) (.inr (by omega)) (by omega)⟩

/-- Infinity's pattern stands, on the grid, for 2^128. -/
theorem gridUnits_inf : gridUnits 2139095040 = 16777216 * 2 ^ 253 :=
  (gridUnits_shift 254 8388608 (by omega) (.inr le_rfl)).trans (by rw [Nat.pow_succ]; omega)

theorem gridUnits_max : gridUnits 2139095039 = 16777215 * 2 ^ 253 :=
  gridUnits_shift 253 16777215 (by omega) (.inr (by omega))

/-! ## What rounding picks -/

/-- Below the middle of a grid step the lower end is picked. -/
theorem roundMag_le_of_lt_mid {num den p : Nat} (hd : 0 < den) (hp : p ≤ 2139095040)
    (h : 2 * num < (gridUnits p + gridUnits (p + 1)) * den) : roundMag num den ≤ p := by
  obtain ⟨p', h1, -, h3⟩ := roundMag_bracket num den hd
  have hle : p' ≤ p := by
    by_contra hc
    have : gridUnits p + gridUnits (p + 1) ≤ 2 * gridUnits p' := by
      have a := gridUnits_strictMono.monotone (show p + 1 ≤ p' by omega)
      have b := gridUnits_lt_succ p
      omega
    have := Nat.mul_le_mul_right den this
    rw [Nat.mul_assoc] at this
    omega
  rw [h3]
  rcases Nat.lt_or_ge p' p with hlt | hge
  · split <;> [omega; split <;> omega]
  · obtain rfl : p' = p := by omega
    rw [if_pos h]; omega

/-- The nearer end of a step is nearer than everything outside the step. -/
theorem abs_le_of_bracket {x y v w c : ℤ} (hx : x ≤ v) (hy : v ≤ y) (hw : w ≤ x ∨ y ≤ w)
    (hc : c = x ∧ 2 * v ≤ x + y ∨ c = y ∧ x + y ≤ 2 * v) :
    |c - v| ≤ |w - v| ∧ (|w - v| = |c - v| → w ≠ c → x + y = 2 * v) := by
  rcases hc with ⟨rfl, hc⟩ | ⟨rfl, hc⟩ <;> rcases hw with hw | hw
  all_goals constructor <;> grind

/-- Unless it overflows, `roundMag` picks a grid point no other grid point is nearer than; of two equally near ones it picks the
even one (R12). -/
theorem roundMag_nearest {num den : Nat} (hd : 0 < den) (hfin : roundMag num den < 2139095040) (m : Nat) :
    |(gridUnits (roundMag num den) * den : ℤ) - num| ≤ |(gridUnits m * den : ℤ) - num| ∧
    (|(gridUnits m * den : ℤ) - num| = |(gridUnits (roundMag num den) * den : ℤ) - num| → m ≠ roundMag num den →
      roundMag num den % 2 = 0) := by
  obtain ⟨p, h1, h2, h3⟩ := roundMag_bracket num den hd
  have le_iff : ∀ a b : Nat, (gridUnits a * den : ℤ) ≤ gridUnits b * den ↔ a ≤ b := fun a b => by
    rw [← gridUnits_strictMono.le_iff_le (a := a) (b := b), ← Nat.mul_le_mul_right_iff hd]; exact_mod_cast Iff.rfl
  have hside : (gridUnits m * den : ℤ) ≤ gridUnits p * den ∨ (gridUnits (p + 1) * den : ℤ) ≤ gridUnits m * den := by
    rw [le_iff, le_iff]; omega
  have hne : m ≠ roundMag num den → (gridUnits m * den : ℤ) ≠ gridUnits (roundMag num den) * den := fun hm he =>
    hm (le_antisymm ((le_iff _ _).1 he.le) ((le_iff _ _).1 he.ge))
  zify at h1 h2
  have hmid : (roundMag num den = p ∧ (2 * num : ℤ) ≤ gridUnits p * den + gridUnits (p + 1) * den ∨
      roundMag num den = p + 1 ∧ (gridUnits p * den + gridUnits (p + 1) * den : ℤ) ≤ 2 * num) ∧
      ((gridUnits p * den + gridUnits (p + 1) * den : ℤ) = 2 * num → roundMag num den % 2 = 0) := by
    rw [Nat.add_mul] at h3
    zify at h3 hfin ⊢
    split at h3
    · omega
    · split at h3 <;> omega
  have key := abs_le_of_bracket (c := gridUnits (roundMag num den) * den) h1 h2.le hside
    (hmid.1.imp (fun h => ⟨by rw [h.1], h.2⟩) (fun h => ⟨by rw [h.1], h.2⟩))
  exact ⟨key.1, fun he hm => hmid.2 (key.2 he (hne hm))⟩

/-! ## Nearest-even in exact arithmetic -/

theorem abs_toRat (x : F32) : |toRat x| = (gridUnits (magBits x) : ℚ) / (unitsPerOne : ℚ) := by
  rw [toRat_abs, magUnits_eq]

theorem toRat_of_not_isNeg {x : F32} (h : isNeg x = false) : toRat x = |toRat x| := by
  rw [toRat_eq, h, if_neg (by simp), one_mul, abs_of_nonneg (by positivity)]

theorem toRat_of_isNeg {x : F32} (h : isNeg x = true) : toRat x = -|toRat x| := by
  rw [abs_toRat, toRat_eq, h, if_pos rfl, neg_one_mul]

/-- A rounded value has the sign of the exact one, so its error is the error of its magnitude. -/
theorem RoundOf.abs_sub {q : ℚ} {r : F32} (h : RoundOf q r) : |toRat r - q| = abs (|toRat r| - |q|) := by
  obtain ⟨neg, num, den, -, rfl, -, hn, hp⟩ := h
  have hneg := isNeg_packSign neg (m := roundMag num den) (by have := roundMag_le num den; omega)
  generalize packSign neg (roundMag num den) = r at *
  rcases lt_trichotomy q 0 with hq | rfl | hq
  · rw [toRat_of_isNeg (hneg.trans (hn hq)), abs_neg, abs_abs, abs_of_neg hq, ← abs_neg]
    congr 1; ring
  · simp
  · rw [toRat_of_not_isNeg (hneg.trans (hp hq)), abs_abs, abs_of_pos hq]

/-- A finite rounded value is the nearest one, ties to even (R12). -/
theorem RoundOf.nearestEven {q : ℚ} {r : F32} (h : RoundOf q r) (hf : isFinite r = true) : IsNearestEven q r := by
  refine ⟨hf, fun x hx => ?_⟩
  have h' := h
  obtain ⟨neg, num, den, hd, hr, hv, -, -⟩ := h'
  have hmag : Machine.magBits r = roundMag num den := by
    rw [hr, magBits_packSign neg (by have := roundMag_le num den; omega)]
  have hnear := roundMag_nearest hd (by rw [← hmag]; exact (isFinite_iff r).1 hf) (Machine.magBits x)
  rw [← hmag] at hnear
  have hscale : (0 : ℚ) < (den : ℚ) * (unitsPerOne : ℚ) := by positivity
  have hdist : ∀ y : F32, abs (|toRat y| - |q|) =
      ((|(gridUnits (Machine.magBits y) * den : ℤ) - num| : ℤ) : ℚ) / ((den : ℚ) * (unitsPerOne : ℚ)) := fun y => by
    rw [abs_toRat, hv, eq_div_iff hscale.ne', ← abs_of_pos hscale, ← abs_mul, abs_of_pos hscale]
    push_cast
    congr 1
    field_simp
  have hxq : abs (|toRat x| - |q|) ≤ |toRat x - q| := abs_abs_sub_abs_le (toRat x) q
  have hmain : |toRat r - q| ≤ abs (|toRat x| - |q|) := by
    rw [h.abs_sub, hdist, hdist, div_le_div_iff_of_pos_right hscale]
    exact_mod_cast hnear.1
  refine ⟨hmain.trans hxq, fun he hne => ?_⟩
  by_cases hm : Machine.magBits x = Machine.magBits r
  · have habs : |toRat x| = |toRat r| := by rw [abs_toRat, abs_toRat, hm]
    have hx' : toRat x = -toRat r := (abs_eq_abs.1 habs).resolve_left hne
    rw [hx'] at he hne
    have hq : q = 0 := by
      rcases abs_eq_abs.1 he with hs | hs
      · exact absurd (by linarith) hne
      · linarith
    rw [hq, ← toRat_f0] at h
    have := (h.exact isFinite_f0).2
    rw [this, toRat_f0, neg_zero] at hne
    exact absurd rfl hne
  · have e := hdist x
    rw [le_antisymm (hxq.trans he.le) hmain, h.abs_sub, hdist r, div_left_inj' hscale.ne'] at e
    have := hnear.2 (by exact_mod_cast e.symm) hm
    unfold Machine.magBits at this
    omega

/-! ## Overflow -/

/-- R12's bound in units: the middle between the greatest finite value and 2^128. -/
theorem overflowBound_units :
    2 * (overflowBound * (unitsPerOne : ℚ)) = (gridUnits 2139095039 + gridUnits (2139095039 + 1) : ℕ) := by
  rw [gridUnits_max, gridUnits_inf, overflowBound]
  norm_num

/-- Below the bound the result is finite. -/
theorem RoundOf.isFinite_of_lt {q : ℚ} {r : F32} (h : RoundOf q r) (hq : |q| < overflowBound) : isFinite r = true := by
  obtain ⟨neg, num, den, hd, rfl, hv, -, -⟩ := h
  have hscale : (0 : ℚ) < (den : ℚ) := by exact_mod_cast hd
  have hmid : 2 * num < (gridUnits 2139095039 + gridUnits (2139095039 + 1)) * den := by
    rw [hv, div_lt_iff₀ (by positivity)] at hq
    have : (2 * num : ℚ) < 2 * (overflowBound * (unitsPerOne : ℚ)) * den := by linarith
    rw [overflowBound_units] at this
    exact_mod_cast this
  have := roundMag_le_of_lt_mid hd (by omega) hmid
  rw [isFinite_iff, magBits_packSign neg (by omega)]
  omega

/-- From the bound on the magnitude is infinity's. -/
theorem roundMag_overflow {num den : Nat} (hd : 0 < den)
    (h : (gridUnits 2139095039 + gridUnits (2139095039 + 1)) * den ≤ 2 * num) : roundMag num den = 2139095040 := by
  obtain ⟨p, -, h2, h3⟩ := roundMag_bracket num den hd
  have hp : 2139095039 ≤ p := by
    by_contra hc
    have a : gridUnits (p + 1) ≤ gridUnits 2139095039 := gridUnits_strictMono.monotone (by omega)
    have b := gridUnits_lt_succ 2139095039
    have := Nat.mul_le_mul_right den (show 2 * gridUnits (p + 1) ≤ gridUnits 2139095039 + gridUnits (2139095039 + 1) by omega)
    rw [Nat.mul_assoc] at this
    omega
  rw [h3]
  rcases Nat.eq_or_lt_of_le hp with rfl | hlt
  · rw [if_neg (by omega)]
    split <;> omega
  · split <;> [omega; split <;> omega]

theorem roundMag_of_overflowBound {q : ℚ} {num den : Nat} (hd : 0 < den)
    (hv : |q| = (num : ℚ) / ((den : ℚ) * (unitsPerOne : ℚ))) (hq : overflowBound ≤ |q|) : roundMag num den = 2139095040 := by
  have hscale : (0 : ℚ) < (den : ℚ) := by exact_mod_cast hd
  refine roundMag_overflow hd ?_
  rw [hv, le_div_iff₀ (by positivity)] at hq
  have : 2 * (overflowBound * (unitsPerOne : ℚ)) * den ≤ (2 * num : ℚ) := by linarith
  rw [overflowBound_units] at this
  exact_mod_cast this

theorem overflowBound_pos : 0 < overflowBound := by norm_num [overflowBound]

/-- From the bound on the result is the infinity of its sign. -/
theorem RoundOf.eq_inf {q : ℚ} {r : F32} (h : RoundOf q r) (hq : overflowBound ≤ q) : r = 0x7F800000#32 := by
  have hpos := overflowBound_pos.trans_le hq
  obtain ⟨neg, num, den, hd, rfl, hv, -, hp⟩ := h
  rw [hp hpos, roundMag_of_overflowBound hd hv (hq.trans (le_abs_self q))]
  rfl

theorem RoundOf.eq_neg_inf {q : ℚ} {r : F32} (h : RoundOf q r) (hq : q ≤ -overflowBound) : r = 0xFF800000#32 := by
  have hneg : q < 0 := hq.trans_lt (neg_neg_of_pos overflowBound_pos)
  obtain ⟨neg, num, den, hd, rfl, hv, hn, -⟩ := h
  rw [hn hneg, roundMag_of_overflowBound hd hv (by rw [abs_of_neg hneg]; linarith)]
  rfl

/-- Settles O48: each operation rounds its exact result (`RoundOf`), and `RoundOf` is nearest-even with R12's overflow. -/
theorem arithmeticRoundsToNearestEven : Obligations.ArithmeticRoundsToNearestEven := by
  unfold Obligations.ArithmeticRoundsToNearestEven
  refine ⟨fun a b ha hb q r hop => ?_, fun k hk => (roundOf_ofInt k).nearestEven ((roundOf_ofInt k).isFinite_of_lt hk)⟩
  have h : RoundOf q r := by
    rcases hop with ⟨rfl, rfl⟩ | ⟨rfl, rfl⟩ | ⟨rfl, rfl⟩ | ⟨h0, rfl, rfl⟩
    · exact roundOf_fadd ha hb
    · exact roundOf_fsub ha hb
    · exact roundOf_fmul ha hb
    · exact roundOf_fdiv ha hb h0
  exact ⟨fun hq => h.nearestEven (h.isFinite_of_lt hq), h.eq_inf, h.eq_neg_inf⟩

end Sys2Proof.Machine
end

section
/-! SUPPORT. Exact results, the relative error of one rounding, and bounds on what the block's smoothing step
`x + k * (t - x)` gives. -/

namespace Sys2Proof.Machine

/-! ## Exact results -/

theorem toRat_mul_units {x : F32} : toRat x * (unitsPerOne : ℚ) = (valUnits x : ℚ) := by
  unfold toRat; field_simp

/-- A value is an integer of at most 24 bits shifted. -/
theorem valUnits_decomp (x : F32) : ∃ (k : ℤ) (e : ℕ), k.natAbs ≤ 16777216 ∧ valUnits x = k * 2 ^ e := by
  obtain ⟨q, sh, hq, -, -, hg, -⟩ := gridUnits_decomp (magBits x)
  rw [valUnits_eq, hg]
  cases isNeg x
  · exact ⟨q, sh, by omega, by simp⟩
  · exact ⟨-q, sh, by omega, by simp⟩

/-- A binary32 value for an integer of units of at most 24 significant bits, in range. -/
theorem exists_toRat_eq {k : ℤ} {e : ℕ} (hk : k.natAbs ≤ 16777216) {q : ℚ} (hq : q * (unitsPerOne : ℚ) = k * 2 ^ e)
    (hr : |q| < 2 ^ 128) : ∃ x : F32, isFinite x = true ∧ toRat x = q := by
  have hunits : (0 : ℚ) < (unitsPerOne : ℚ) := by norm_num
  have hrange : k.natAbs * 2 ^ e < 8388608 * 2 ^ 254 := by
    have : |q * (unitsPerOne : ℚ)| < 8388608 * 2 ^ 254 := by
      rw [abs_mul, abs_of_pos hunits]
      calc |q| * (unitsPerOne : ℚ) < 2 ^ 128 * (unitsPerOne : ℚ) := by gcongr
        _ = 8388608 * 2 ^ 254 := by norm_num
    rw [hq, abs_mul, abs_of_pos (by positivity : (0 : ℚ) < 2 ^ e), ← Int.cast_abs, Int.abs_eq_natAbs,
      Int.cast_natCast] at this
    exact_mod_cast this
  obtain ⟨x, hx, hv⟩ := exists_finite k e hk hrange
  exact ⟨x, hx, by rw [hv, ← hq]; field_simp⟩

/-- A value times a power of two is exact, in range. -/
theorem exists_scaled (x : F32) (n : ℕ) (h : |toRat x * 2 ^ n| < 2 ^ 128) :
    ∃ y : F32, isFinite y = true ∧ toRat y = toRat x * 2 ^ n := by
  obtain ⟨k, e, hk, hv⟩ := valUnits_decomp x
  refine exists_toRat_eq (k := k) (e := e + n) hk ?_ h
  rw [mul_right_comm, toRat_mul_units, hv]
  push_cast
  ring

/-- A rounded result whose exact value some finite pattern has is exact. -/
theorem RoundOf.exact_of_exists {q : ℚ} {r : F32} (h : RoundOf q r) (hq : ∃ x : F32, isFinite x = true ∧ toRat x = q) :
    isFinite r = true ∧ toRat r = q := by
  obtain ⟨x, hx, rfl⟩ := hq
  exact h.exact hx

/-- `floor` of a finite value is the floor of its exact value. -/
theorem ffloor_eq {x : F32} (h : isFinite x = true) : ffloor x = ⌊toRat x⌋ := by
  rw [ffloor, if_pos h, toRat]
  exact (Rat.floor_intCast_div_natCast _ _).symm

/-- The whole part of a finite value that is not negative converts back exactly, and taking it off is exact (R14, R243). -/
theorem fsub_floor_exact {x : F32} (hx : isFinite x = true) (h0 : 0 ≤ toRat x) :
    (isFinite (ofInt ⌊toRat x⌋) = true ∧ toRat (ofInt ⌊toRat x⌋) = (⌊toRat x⌋ : ℚ)) ∧
    isFinite (fsub x (ofInt ⌊toRat x⌋)) = true ∧ toRat (fsub x (ofInt ⌊toRat x⌋)) = Int.fract (toRat x) := by
  have hunits := toRat_mul_units (x := x)
  obtain ⟨k, e, hk, hv⟩ := valUnits_decomp x
  rw [hv] at hunits
  push_cast at hunits
  have hfract_lt : |Int.fract (toRat x)| < 2 ^ 128 := by
    rw [abs_of_nonneg (Int.fract_nonneg _)]
    exact (Int.fract_lt_one _).trans (by norm_num)
  have hparts : (∃ y : F32, isFinite y = true ∧ toRat y = (⌊toRat x⌋ : ℚ)) ∧
      ∃ y : F32, isFinite y = true ∧ toRat y = Int.fract (toRat x) := by
    rcases Nat.lt_or_ge e 149 with he | he
    · obtain ⟨n, rfl⟩ : ∃ n : ℕ, k = n := Int.eq_ofNat_of_zero_le (by
        have : (0 : ℚ) ≤ k * 2 ^ e := hunits ▸ by positivity
        exact_mod_cast nonneg_of_mul_nonneg_left this (by positivity))
      have hsplit : (2 : ℚ) ^ 149 = 2 ^ e * ((2 ^ (149 - e) : ℕ) : ℚ) := by
        push_cast; rw [← pow_add, Nat.add_sub_cancel' he.le]
      have hd : (0 : ℚ) < ((2 ^ (149 - e) : ℕ) : ℚ) := by positivity
      generalize 2 ^ (149 - e) = d at hsplit hd
      have hval : toRat x = ((n : ℤ) : ℚ) / (d : ℚ) := by
        rw [hsplit] at hunits
        rw [eq_div_iff hd.ne']
        have : (2 : ℚ) ^ e ≠ 0 := by positivity
        exact mul_right_cancel₀ this (by linarith)
      have hfloor : ⌊toRat x⌋ = ((n / d : ℕ) : ℤ) := by rw [hval, Rat.floor_intCast_div_natCast]; rfl
      have hn : n ≤ 16777216 := by omega
      refine ⟨⟨_, ofInt_exact _ ?_⟩, exists_toRat_eq (k := ((n % d : ℕ) : ℤ)) (e := e) ?_ ?_ hfract_lt⟩
      · rw [hfloor, Int.natAbs_natCast]; exact (Nat.div_le_self n d).trans hn
      · rw [Int.natAbs_natCast]; exact (Nat.mod_le n d).trans hn
      · have hdiv : (n : ℚ) = d * (n / d : ℕ) + (n % d : ℕ) := by exact_mod_cast (Nat.div_add_mod n d).symm
        rw [Int.fract, hfloor, hval]
        rw [show (unitsPerOne : ℚ) = 2 ^ e * d by rw [← hsplit]; norm_num, Int.cast_natCast, Int.cast_natCast,
          Int.cast_natCast]
        field_simp
        linarith
    · obtain ⟨j, rfl⟩ : ∃ j, e = 149 + j := ⟨e - 149, by omega⟩
      have hint : toRat x = ((k * 2 ^ j : ℤ) : ℚ) := by
        rw [pow_add] at hunits
        push_cast at hunits ⊢
        have : (2 : ℚ) ^ 149 ≠ 0 := by positivity
        field_simp at hunits
        linarith
      have hfloor : (⌊toRat x⌋ : ℚ) = toRat x := by rw [hint, Int.floor_intCast]
      exact ⟨⟨x, hx, hfloor.symm⟩, f0, isFinite_f0, by rw [toRat_f0, Int.fract, hfloor, sub_self]⟩
  have hf := (roundOf_ofInt ⌊toRat x⌋).exact_of_exists hparts.1
  have hs := roundOf_fsub hx hf.1
  rw [hf.2, ← Int.fract] at hs
  exact ⟨hf, hs.exact_of_exists hparts.2⟩

/-! ## The error of one rounding -/

/-- Rounding errs by at most 2^-24 of the exact magnitude where that is an integer of units, or no subnormal (R12). -/
theorem roundMag_error {num den : Nat} (hd : 0 < den) (hfin : roundMag num den < 2139095040)
    (h : den ∣ num ∨ 8388608 * den ≤ num) :
    16777216 * |(gridUnits (roundMag num den) * den : ℤ) - num| ≤ num := by
  obtain ⟨p, h1, h2, -⟩ := roundMag_bracket num den hd
  obtain ⟨q, sh, hq, hs, hp, hg, hg1⟩ := gridUnits_decomp p
  by_cases hfull : 8388608 ≤ q
  · have n1 := (roundMag_nearest hd hfin p).1
    have n2 := (roundMag_nearest hd hfin (p + 1)).1
    zify at h1 h2 hg hg1
    rw [abs_of_nonpos (a := (gridUnits p * den : ℤ) - num) (by linarith)] at n1
    rw [abs_of_nonneg (a := (gridUnits (p + 1) * den : ℤ) - num) (by linarith)] at n2
    rw [hg] at h1 n1
    rw [hg1] at h2 n2
    have hstep : (8388608 * (2 ^ sh * den) : ℤ) ≤ num := by
      have : (8388608 * (2 ^ sh * den) : ℤ) ≤ q * (2 ^ sh * den) := by gcongr; exact_mod_cast hfull
      linarith
    linarith
  · obtain rfl : sh = 0 := by omega
    rw [pow_zero, mul_one] at hg hg1
    have hexact : num = gridUnits p * den := by
      rcases h with ⟨n, rfl⟩ | h
      · rw [hg, mul_comm den n] at h1
        rw [hg1, mul_comm den n] at h2
        have a := Nat.le_of_mul_le_mul_right h1 hd
        have b := Nat.lt_of_mul_lt_mul_right h2
        rw [hg, mul_comm den n, show n = q by omega]
      · rw [hg1] at h2
        have := Nat.lt_of_mul_lt_mul_right (h.trans_lt h2)
        omega
    rw [roundMag_grid hd hexact (by omega), hexact]
    simpa using mul_nonneg (Int.natCast_nonneg (gridUnits p)) (Int.natCast_nonneg den)

/-- The fraction that `RoundOf` rounds is whole where the exact value is an integer of units. -/
theorem num_eq_of_units {q : ℚ} {n : ℤ} {num den : ℕ} (hd : 0 < den)
    (hv : |q| = (num : ℚ) / ((den : ℚ) * (unitsPerOne : ℚ))) (hn : q * (unitsPerOne : ℚ) = n) : num = n.natAbs * den := by
  have hden : (0 : ℚ) < (den : ℚ) := by exact_mod_cast hd
  have hunits : (0 : ℚ) < (unitsPerOne : ℚ) := by norm_num
  generalize (unitsPerOne : ℚ) = u at *
  have habs : |q| * u = (n.natAbs : ℚ) := by
    rw [← abs_of_pos hunits, ← abs_mul, hn, ← Int.cast_abs, Int.abs_eq_natAbs, Int.cast_natCast]
  have : (num : ℚ) = n.natAbs * den := by rw [← habs, hv]; field_simp
  exact_mod_cast this

/-- Rounding errs by at most 2^-24 of the exact value where that is an integer of units, or no subnormal (R12). -/
theorem RoundOf.abs_error_le {q : ℚ} {r : F32} (h : RoundOf q r) (hf : isFinite r = true)
    (hq : (∃ n : ℤ, q * (unitsPerOne : ℚ) = n) ∨ 8388608 ≤ |q| * (unitsPerOne : ℚ)) : |toRat r - q| ≤ |q| / 16777216 := by
  have herr := h.abs_sub
  rw [abs_toRat] at herr
  obtain ⟨neg, num, den, hd, rfl, hv, -, -⟩ := h
  have hle := roundMag_le num den
  rw [magBits_packSign neg (by omega)] at herr
  have hfin : roundMag num den < 2139095040 := by rwa [isFinite_iff, magBits_packSign neg (by omega)] at hf
  have hden : (0 : ℚ) < (den : ℚ) := by exact_mod_cast hd
  have hunits : (0 : ℚ) < (unitsPerOne : ℚ) := by norm_num
  have hcond : den ∣ num ∨ 8388608 * den ≤ num := by
    rcases hq with ⟨n, hn⟩ | hq
    · exact .inl ⟨n.natAbs, by rw [num_eq_of_units hd hv hn, mul_comm]⟩
    · have : (8388608 * den : ℚ) ≤ num := by
        have hnum : (num : ℚ) = |q| * (unitsPerOne : ℚ) * den := by rw [hv]; field_simp
        rw [hnum]; gcongr
      exact .inr (by exact_mod_cast this)
  have key : (16777216 * |(gridUnits (roundMag num den) * den : ℚ) - num| : ℚ) ≤ num := by
    have h := (Int.cast_le (R := ℚ)).2 (roundMag_error hd hfin hcond)
    rwa [Int.cast_mul, Int.cast_abs, Int.cast_sub, Int.cast_mul, Int.cast_natCast, Int.cast_natCast, Int.cast_natCast,
      Int.cast_ofNat] at h
  generalize (unitsPerOne : ℚ) = u at *
  have e : (gridUnits (roundMag num den) : ℚ) / u - num / (den * u) =
      (gridUnits (roundMag num den) * den - num) / (den * u) := by field_simp
  rw [herr, hv, e, abs_div, abs_of_pos (by positivity : (0 : ℚ) < den * u), div_right_comm,
    div_le_div_iff_of_pos_right (by positivity), le_div_iff₀ (by norm_num)]
  linarith

end Sys2Proof.Machine
end

section
/-! SUPPORT. Ranges in exact arithmetic: the coefficients (R15, R201, R255), the smoothing step `x + k * (t - x)` that the
envelope, the follower, the filters and the interpolations share, and the clamp (R12). -/

namespace Sys2Proof.Machine

/-! ## Ranges -/

/-- A finite value of magnitude at most `b`. -/
def Within (b : ℚ) (x : F32) : Prop := isFinite x = true ∧ |toRat x| ≤ b

theorem toRat_of_units {x : F32} {v : ℤ} (h : valUnits x = v) : toRat x = v / 2 ^ 149 := by
  rw [toRat, h]; norm_num

theorem isFinite_f2 : isFinite f2 = true := by decide

theorem toRat_f2 : toRat f2 = 2 := by
  rw [toRat_of_units (v := 2 ^ 150) (by decide)]; norm_num

theorem fle_trans {a b c : F32} (h1 : fle a b = true) (h2 : fle b c = true) : fle a c = true := by
  simp only [fle, Bool.and_eq_true, Bool.not_eq_true', decide_eq_true_eq] at h1 h2 ⊢
  exact ⟨⟨h1.1.1, h2.1.2⟩, h1.2.trans h2.2⟩

/-- Being between finite bounds, in exact arithmetic. -/
theorem between_iff {a b x : F32} (ha : isFinite a = true) (hb : isFinite b = true) :
    (fle a x = true ∧ fle x b = true) ↔ isFinite x = true ∧ toRat a ≤ toRat x ∧ toRat x ≤ toRat b := by
  constructor
  · rintro ⟨h1, h2⟩
    have hx := isFinite_of_between ha hb h1 h2
    exact ⟨hx, (fle_iff ha hx).1 h1, (fle_iff hx hb).1 h2⟩
  · rintro ⟨hx, h1, h2⟩
    exact ⟨(fle_iff ha hx).2 h1, (fle_iff hx hb).2 h2⟩

/-- A rounded value lies between finite bounds that its exact value lies between, in exact arithmetic (R258). -/
theorem RoundOf.toRat_between {a b r : F32} {q : ℚ} (h : RoundOf q r) (ha : isFinite a = true) (hb : isFinite b = true)
    (h1 : toRat a ≤ q) (h2 : q ≤ toRat b) : isFinite r = true ∧ toRat a ≤ toRat r ∧ toRat r ≤ toRat b :=
  have ⟨k1, k2, _⟩ := h.between ha hb h1 h2
  (between_iff ha hb).1 ⟨k1, k2⟩

/-- `0.0 <= x`, by the pattern: no NaN, and no minus sign but that of -0.0. -/
theorem fle_f0_iff {x : F32} : fle f0 x = true ↔ isNaN x = false ∧ (isNeg x = false ∨ magBits x = 0) := by
  simp only [fle, orderKey_eq, show isNaN f0 = false by decide, show isNeg f0 = false by decide,
    show magBits f0 = 0 by decide, Bool.not_false, Bool.true_and, Bool.and_eq_true, Bool.not_eq_true',
    decide_eq_true_eq]
  cases isNeg x <;> simp

/-- A bound on `abs` is a bound on the exact magnitude. -/
theorem within_iff {b x : F32} (hb : isFinite b = true) : fle (fabs x) b = true ↔ Within (toRat b) x := by
  constructor
  · intro h
    have hn : isNaN (fabs x) = false := by
      simp only [fle, Bool.and_eq_true, Bool.not_eq_true'] at h
      exact h.1.1
    obtain ⟨hf, -, hle⟩ := (between_iff isFinite_f0 hb).1 ⟨fle_f0_iff.2 ⟨hn, .inl (isNeg_fabs x)⟩, h⟩
    exact ⟨isFinite_fabs x ▸ hf, toRat_fabs x ▸ hle⟩
  · rintro ⟨hx, h⟩
    rw [fle_iff (isFinite_fabs x ▸ hx) hb, toRat_fabs]
    exact h

theorem Within.mono {b b' : ℚ} {x : F32} (h : Within b x) (hb : b ≤ b') : Within b' x := ⟨h.1, h.2.trans hb⟩

theorem isFinite_of_inUnit {x : F32} (h : inUnit x = true) : isFinite x = true := (inUnit_iff.1 h).1

theorem within_of_inUnit {x : F32} (h : inUnit x = true) : Within 1 x := by
  obtain ⟨hf, h0, h1⟩ := inUnit_iff.1 h
  exact ⟨hf, by rwa [abs_of_nonneg h0]⟩

/-- A result whose exact value is within a finite value's is within it (R258). -/
theorem RoundOf.within {q : ℚ} {r c : F32} (h : RoundOf q r) (hc : isFinite c = true) (hq : |q| ≤ toRat c) :
    Within (toRat c) r := by
  have hneg : isFinite (fneg c) = true := by rwa [isFinite_fneg]
  rw [abs_le, ← toRat_fneg] at hq
  obtain ⟨hf, hr⟩ := h.toRat_between hneg hc hq.1 hq.2
  rw [toRat_fneg] at hr
  exact ⟨hf, abs_le.2 hr⟩

theorem fmul_within {a b c : F32} {x y : ℚ} (ha : Within x a) (hb : Within y b) (hc : isFinite c = true) (h : x * y ≤ toRat c) :
    Within (toRat c) (fmul a b) :=
  (roundOf_fmul ha.1 hb.1).within hc (by
    rw [abs_mul]; exact (mul_le_mul ha.2 hb.2 (abs_nonneg _) ((abs_nonneg _).trans ha.2)).trans h)

theorem fadd_within {a b c : F32} {x y : ℚ} (ha : Within x a) (hb : Within y b) (hc : isFinite c = true) (h : x + y ≤ toRat c) :
    Within (toRat c) (fadd a b) :=
  (roundOf_fadd ha.1 hb.1).within hc ((abs_add_le _ _).trans ((add_le_add ha.2 hb.2).trans h))

/-- Twice a value is a value, in range. -/
theorem exists_double (x : F32) (h : |toRat x| < 2 ^ 127) : ∃ y : F32, isFinite y = true ∧ toRat y = 2 * toRat x := by
  obtain ⟨y, hy, hv⟩ := exists_scaled x 1 (by rw [abs_mul, pow_one, abs_two]; linarith)
  exact ⟨y, hy, by rw [hv]; ring⟩

/-! ## The smoothing step -/

/-- A product with a coefficient in [0.0, 1.0] lies between 0 and the other factor. -/
theorem fmul_unit_between {k d : F32} (hk : inUnit k = true) (hd : isFinite d = true) :
    isFinite (fmul k d) = true ∧ min 0 (toRat d) ≤ toRat (fmul k d) ∧ toRat (fmul k d) ≤ max 0 (toRat d) := by
  obtain ⟨hkf, hk0, hk1⟩ := inUnit_iff.1 hk
  have hr := roundOf_fmul hkf hd
  rcases le_total 0 (toRat d) with h | h
  · rw [min_eq_left h, max_eq_right h, ← toRat_f0]
    exact hr.toRat_between isFinite_f0 hd (by rw [toRat_f0]; positivity) (mul_le_of_le_one_left h hk1)
  · rw [min_eq_right h, max_eq_left h, ← toRat_f0]
    exact hr.toRat_between hd isFinite_f0 (by nlinarith) (by rw [toRat_f0]; nlinarith)

/-- `x + k * (t - x)` stays between bounds that `x` and `x` plus the rounded difference lie between. -/
theorem follow_between {x t k lo hi : F32} (hx : isFinite x = true) (hd : isFinite (fsub t x) = true) (hk : inUnit k = true)
    (hlo : isFinite lo = true) (hhi : isFinite hi = true) (hlx : toRat lo ≤ toRat x) (hxh : toRat x ≤ toRat hi)
    (hld : toRat lo ≤ toRat x + toRat (fsub t x)) (hdh : toRat x + toRat (fsub t x) ≤ toRat hi) :
    isFinite (fadd x (fmul k (fsub t x))) = true ∧ toRat lo ≤ toRat (fadd x (fmul k (fsub t x))) ∧
      toRat (fadd x (fmul k (fsub t x))) ≤ toRat hi := by
  obtain ⟨hp, hp0, hp1⟩ := fmul_unit_between hk hd
  have hlow : toRat lo ≤ toRat x + toRat (fmul k (fsub t x)) := by
    rcases min_cases 0 (toRat (fsub t x)) with h | h <;> linarith
  have hhigh : toRat x + toRat (fmul k (fsub t x)) ≤ toRat hi := by
    rcases max_cases 0 (toRat (fsub t x)) with h | h <;> linarith
  exact (roundOf_fadd hx hp).toRat_between hlo hhi hlow hhigh

/-- A difference errs by at most 2^-24 of its exact value. -/
theorem fsub_error {a b : F32} (ha : isFinite a = true) (hb : isFinite b = true) (hr : |toRat a - toRat b| < overflowBound) :
    isFinite (fsub a b) = true ∧ |toRat (fsub a b) - (toRat a - toRat b)| ≤ |toRat a - toRat b| / 16777216 := by
  have h := roundOf_fsub ha hb
  have hf := h.isFinite_of_lt hr
  refine ⟨hf, h.abs_error_le hf (.inl ⟨valUnits a - valUnits b, ?_⟩)⟩
  rw [sub_mul, toRat_mul_units, toRat_mul_units]; push_cast; rfl

theorem two_pow_lt_overflowBound : (2 : ℚ) ^ 127 < overflowBound := by norm_num [overflowBound]

/-- Smoothing towards targets within 3/4 of a bound stays within the bound: the bound absorbs the rounding of the difference. -/
theorem follow_within {x t k : F32} {b : ℚ} {c : F32} (hc : isFinite c = true) (hcb : toRat c ≤ 2 ^ 126)
    (hx : Within (toRat c) x) (ht : Within b t) (hb : 4 * b ≤ 3 * toRat c) (hk : inUnit k = true) :
    Within (toRat c) (fadd x (fmul k (fsub t x))) := by
  obtain ⟨hxf, hxb⟩ := hx
  obtain ⟨htf, htb⟩ := ht
  have hdiff : |toRat t - toRat x| ≤ b + toRat c := (abs_sub _ _).trans (add_le_add htb hxb)
  have hc0 : 0 ≤ toRat c := (abs_nonneg _).trans hxb
  obtain ⟨hdf, hde⟩ := fsub_error htf hxf (lt_of_le_of_lt hdiff (by have := two_pow_lt_overflowBound; linarith))
  rw [abs_le] at hxb htb hde
  have hneg : toRat (fneg c) = -toRat c := toRat_fneg c
  have := follow_between (lo := fneg c) (hi := c) hxf hdf hk (by rwa [isFinite_fneg]) hc (by rw [hneg]; exact hxb.1) hxb.2
    (by rw [hneg]; linarith [hde.1, htb.1]) (by linarith [hde.2, htb.2])
  rw [hneg] at this
  exact ⟨this.1, abs_le.2 this.2⟩

/-! ## Coefficients -/

/-- `1.0 - e` for e in [0.0, 1.0]. -/
theorem fsub_one_inUnit {e : F32} (h : inUnit e = true) : inUnit (fsub f1 e) = true := by
  obtain ⟨hf, h0, h1⟩ := inUnit_iff.1 h
  obtain ⟨a, b, -⟩ := (roundOf_fsub isFinite_f1 hf).between isFinite_f0 isFinite_f1 (by rw [toRat_f0, toRat_f1]; linarith)
    (by rw [toRat_f1]; linarith)
  rw [inUnit, a, b]; rfl

/-- A rounded value that is not negative is at least 0.0. -/
theorem RoundOf.nonneg {q : ℚ} {r : F32} (h : RoundOf q r) (hq : 0 ≤ q) : fle f0 r = true := by
  have := (RoundOf.refl isFinite_f0).mono h (by rwa [toRat_f0])
  simp [fle, h.not_nan, this, show isNaN f0 = false by decide]

theorem fle_fneg_f0 {x : F32} (h : fle f0 x = true) : fle (fneg x) f0 = true := by
  obtain ⟨hn, hs⟩ := fle_f0_iff.1 h
  have hnan : isNaN (fneg x) = false := by rwa [Bool.eq_false_iff, Ne, isNaN_iff, magBits_fneg, ← isNaN_iff, ← Ne,
    ← Bool.eq_false_iff]
  simp only [fle, hnan, orderKey_eq, isNeg_fneg, magBits_fneg, show isNaN f0 = false by decide,
    show isNeg f0 = false by decide, show magBits f0 = 0 by decide]
  rcases hs with hs | hs <;> simp [hs]

theorem fle_f0_packSign {m : Nat} (h : m ≤ 2139095040) : fle f0 (packSign false m) = true :=
  fle_f0_iff.2 ⟨by rw [Bool.eq_false_iff, Ne, isNaN_iff, magBits_packSign _ (by omega)]; omega,
    .inl (isNeg_packSign _ (by omega))⟩

/-- A quotient of values with no minus sign, the dividend finite and not zero, is not negative: a divisor of zero or infinity
included. -/
theorem fdiv_nonneg {a b : F32} (ha : isFinite a = true) (ha0 : magUnits a ≠ 0) (hna : isNeg a = false)
    (hb : isNaN b = false) (hnb : isNeg b = false) : fle f0 (fdiv a b) = true := by
  unfold fdiv
  simp only [isNaN_of_finite ha, isInf_of_finite ha, hb, hna, hnb, ha0, Bool.or_self, Bool.false_eq_true, if_false,
    bne_self_eq_false]
  split
  · exact fle_f0_packSign (by omega)
  · split
    · exact fle_f0_packSign le_rfl
    · exact fle_f0_packSign (roundMag_le _ _)

/-- A quotient of a value that is not negative, infinity included, by a positive finite one is not negative. -/
theorem fdiv_nonneg_of_pos {a b : F32} (ha : fle f0 a = true) (hb : isFinite b = true) (hb0 : 0 < toRat b) :
    fle f0 (fdiv a b) = true := by
  obtain ⟨hn, hs⟩ := fle_f0_iff.1 ha
  by_cases hf : isFinite a = true
  · rw [fle_iff isFinite_f0 hf, toRat_f0] at ha
    exact (roundOf_fdiv hf hb hb0.ne').nonneg (div_nonneg ha hb0.le)
  · have hinf : isInf a = true := by
      rw [isFinite_iff] at hf
      rw [Bool.eq_false_iff, Ne, isNaN_iff] at hn
      rw [isInf_iff]; omega
    have hneg : isNeg a = false := hs.resolve_right fun h => by rw [isInf_iff, h] at hinf; omega
    unfold fdiv
    simp only [hn, isNaN_of_finite hb, hinf, isInf_of_finite hb, hneg, isNeg_of_toRat_pos hb0, Bool.or_self,
      Bool.false_eq_true, if_false, if_true, bne_self_eq_false]
    exact fle_f0_packSign le_rfl

theorem isNeg_fmul {a b : F32} (ha : isFinite a = true) (hb : isFinite b = true) :
    isNeg (fmul a b) = (isNeg a != isNeg b) := by
  have := roundMag_le (magUnits a * magUnits b) unitsPerOne
  unfold fmul
  simp only [isNaN_of_finite ha, isNaN_of_finite hb, isInf_of_finite ha, isInf_of_finite hb, Bool.or_self,
    Bool.false_eq_true, if_false]
  exact isNeg_packSign _ (by omega)

theorem isNeg_fdiv {a b : F32} (ha : isFinite a = true) (hb : isFinite b = true) (h0 : magUnits b ≠ 0) :
    isNeg (fdiv a b) = (isNeg a != isNeg b) := by
  have := roundMag_le (magUnits a * unitsPerOne) (magUnits b)
  unfold fdiv
  simp only [isNaN_of_finite ha, isNaN_of_finite hb, isInf_of_finite ha, isInf_of_finite hb, Bool.or_self,
    Bool.false_eq_true, if_false, h0]
  exact isNeg_packSign _ (by omega)

/-- `max` of finite values. -/
theorem fmax_finite {a b : F32} (ha : isFinite a = true) (hb : isFinite b = true) :
    isFinite (fmax a b) = true ∧ toRat (fmax a b) = max (toRat a) (toRat b) := by
  obtain ⟨h, h1, h2⟩ := fmax_cases (isNaN_of_finite ha) (isNaN_of_finite hb)
  have hf : isFinite (fmax a b) = true := by rcases h with h | h <;> rwa [h]
  rw [fle_iff ha hf] at h1
  rw [fle_iff hb hf] at h2
  refine ⟨hf, le_antisymm ?_ (max_le h1 h2)⟩
  rcases h with h | h <;> simp [h]

/-- `min` of finite values. -/
theorem fmin_finite {a b : F32} (ha : isFinite a = true) (hb : isFinite b = true) :
    isFinite (fmin a b) = true ∧ toRat (fmin a b) = min (toRat a) (toRat b) := by
  obtain ⟨h, h1, h2⟩ := fmin_cases (isNaN_of_finite ha) (isNaN_of_finite hb)
  have hf : isFinite (fmin a b) = true := by rcases h with h | h <;> rwa [h]
  rw [fle_iff hf ha] at h1
  rw [fle_iff hf hb] at h2
  refine ⟨hf, le_antisymm (le_min h1 h2) ?_⟩
  rcases h with h | h <;> simp [h]

/-- R13's third assumption on a library. -/
def ExpInUnit (L : Lib) : Prop := ∀ x, fle x f0 = true → inUnit (L.fexp x) = true

theorem lib_expInUnit : ExpInUnit lib := fun _ => fexp_inUnit

/-- The coefficient of a finite time constant lies in [0.0, 1.0] (R13, R15): the exponent is not positive whatever of its
steps under- or overflows. -/
theorem tcoef_inUnit {L : Lib} {P : Params} {ms sr : F32} (hL : ExpInUnit L) (hfloor : positiveFinite P.envMinMs = true)
    (hsr : positiveFinite sr = true) (hms : isFinite ms = true) : inUnit (tcoef L P ms sr) = true := by
  obtain ⟨hff, hf0⟩ := positiveFinite_iff.1 hfloor
  obtain ⟨hsf, hs0⟩ := positiveFinite_iff.1 hsr
  obtain ⟨hmf, hmv⟩ := fmax_finite hms hff
  have hm0 : 0 < toRat (fmax ms P.envMinMs) := hmv ▸ hf0.trans_le (le_max_right _ _)
  have h1000 : isFinite f1000 = true ∧ toRat f1000 = 1000 := ⟨by decide, by
    rw [toRat_of_units (v := 1000 * 2 ^ 149) (by decide)]; norm_num⟩
  have htc : isFinite (fdiv (fmax ms P.envMinMs) f1000) = true :=
    ((roundOf_fdiv hmf h1000.1 (by rw [h1000.2]; norm_num)).between isFinite_f0 hmf
      (by rw [toRat_f0, h1000.2]; positivity) (by rw [h1000.2]; linarith)).2.2
  have htcs : isNeg (fdiv (fmax ms P.envMinMs) f1000) = false := by
    rw [isNeg_fdiv hmf h1000.1 (by decide), isNeg_of_toRat_pos hm0]; rfl
  have hds : isNeg (fmul sr (fdiv (fmax ms P.envMinMs) f1000)) = false := by
    rw [isNeg_fmul hsf htc, isNeg_of_toRat_pos hs0, htcs]; rfl
  have hq := fdiv_nonneg isFinite_f1 (by decide) (by decide) (roundOf_fmul hsf htc).not_nan hds
  exact fsub_one_inUnit (hL _ (fle_fneg_f0 hq))

/-- The one-pole coefficient of a finite cutoff that is not negative lies in [0.0, 1.0] (R13, R201, R255). -/
theorem onePoleCoef_inUnit {L : Lib} {fc sr : F32} (hL : ExpInUnit L) (hsr : positiveFinite sr = true)
    (hfc : isFinite fc = true) (h0 : 0 ≤ toRat fc) : inUnit (onePoleCoef L fc sr) = true := by
  obtain ⟨hsf, hs0⟩ := positiveFinite_iff.1 hsr
  have h2pi : isFinite fTwoPi = true := by decide
  have h2pi0 : 0 ≤ toRat fTwoPi := by
    have : 0 ≤ valUnits fTwoPi := by decide
    unfold toRat; positivity
  have hprod := (roundOf_fmul h2pi hfc).nonneg (mul_nonneg h2pi0 h0)
  exact fsub_one_inUnit (hL _ (fle_fneg_f0 (fdiv_nonneg_of_pos hprod hsf hs0)))

end Sys2Proof.Machine
end

section
/-! The coefficients (R15), the envelope's direction (R258) and the table lookup (R14). -/

namespace Sys2Proof.Machine

/-! ## Coefficients (R15) -/

/-- What `paramsOk` says of each float parameter that a range rests on. -/
structure ParamsInRange (P : Params) : Prop where
  headroom : positiveFinite P.headroom = true
  headroom_le : fle P.headroom f1 = true
  ampTauRiseMs : positiveFinite P.ampTauRiseMs = true
  ampTauFallMs : positiveFinite P.ampTauFallMs = true
  cutoffK : inUnit P.cutoffK = true
  cutoffFloorHz : positiveFinite P.cutoffFloorHz = true
  envMinMs : positiveFinite P.envMinMs = true
  peakFloor : positiveFinite P.peakFloor = true
  bandEps : positiveFinite P.bandEps = true
  cutoffAbsMax : positiveFinite P.cutoffAbsMax = true
  cutoffAbsMax_le : fle P.cutoffAbsMax 0x71800000#32 = true
  defaultCutoffHz : cutoffOk P P.defaultCutoffHz = true
  srMin : fle 0x37800000#32 P.srMin = true
  srMax : isFinite P.srMax = true
  defaultSr : rateOk P P.defaultSr = true
  genTol_ge : fle 0x33800000#32 P.genTol = true
  genTol_le : fle P.genTol 0x38D1B717#32 = true

theorem paramsInRange {P : Params} (h : paramsOk P = true) : ParamsInRange P := by
  simp only [paramsOk, Bool.and_eq_true] at h
  constructor <;> simp only [h]

/-- Settles O46: the law is the definition, and each coefficient is `1.0 - e` with e in [0.0, 1.0] (R13). -/
theorem coefficientsFollowTheirLawWithinTheUnitInterval : Obligations.CoefficientsFollowTheirLawWithinTheUnitInterval := by
  unfold Obligations.CoefficientsFollowTheirLawWithinTheUnitInterval
  refine ⟨fun L P ms sr => rfl, rfl, fun P sr hP hsr => ?_⟩
  have hfloor := (paramsInRange hP).envMinMs
  refine ⟨fun ms hms => tcoef_inUnit lib_expInUnit hfloor hsr hms, fun fc hfc h0 => ?_⟩
  rw [fle_iff isFinite_f0 hfc, toRat_f0] at h0
  exact onePoleCoef_inUnit lib_expInUnit hsr hfc h0

/-! ## The envelope (R251, R258) -/

/-- The clamp to [0.0, 1.0] of a finite value (R12). -/
theorem fclamp_unit {x : F32} (hx : isFinite x = true) :
    inUnit (fclamp x f0 f1) = true ∧ toRat (fclamp x f0 f1) = min (max (toRat x) 0) 1 := by
  obtain ⟨hmf, hm⟩ := fmax_finite hx isFinite_f0
  obtain ⟨hcf, hc⟩ := fmin_finite hmf isFinite_f1
  rw [hm, toRat_f0, toRat_f1] at hc
  exact ⟨inUnit_iff.2 ⟨hcf, hc ▸ by positivity, hc ▸ min_le_right _ _⟩, hc⟩

/-- A step from a level in [0.0, 1.0] towards a target in [0.0, 1.0] is finite. -/
theorem follow_unit_finite {x t k : F32} (hx : inUnit x = true) (ht : inUnit t = true) (hk : inUnit k = true) :
    isFinite (fadd x (fmul k (fsub t x))) = true :=
  (follow_within isFinite_f2 (by rw [toRat_f2]; norm_num) ((within_of_inUnit hx).mono (by rw [toRat_f2]; norm_num))
    (within_of_inUnit ht) (by rw [toRat_f2]; norm_num) hk).1

theorem f0_inUnit : inUnit f0 = true := by decide
theorem f1_inUnit : inUnit f1 = true := by decide

section
variable {L : Lib} {P : Params} {sr : F32} {c : Channel} {v : Voice}

/-- Every stage's raw level is finite: each is a step towards a target in [0.0, 1.0], or such a target. -/
theorem rawLevel_finite (hL : ExpInUnit L) (hfloor : positiveFinite P.envMinMs = true) (hsr : positiveFinite sr = true)
    (hc : envelopeLegal c = true) (hv : inUnit v.level = true) : isFinite (rawLevel L P sr c v) = true := by
  simp only [envelopeLegal, Bool.and_eq_true] at hc
  obtain ⟨⟨⟨hatk, hdec⟩, hrel⟩, hsus⟩ := hc
  unfold rawLevel
  cases v.stage with
  | attack => exact follow_unit_finite hv f1_inUnit (tcoef_inUnit hL hfloor hsr hatk)
  | decay => exact follow_unit_finite hv hsus (tcoef_inUnit hL hfloor hsr hdec)
  | sustain => exact isFinite_of_inUnit hsus
  | release => exact follow_unit_finite hv f0_inUnit (tcoef_inUnit hL hfloor hsr hrel)
  | idle => exact isFinite_of_inUnit hv

/-- Every stage keeps the level in [0.0, 1.0] (R258). -/
theorem stepEnvelope_level_inUnit (hL : ExpInUnit L) (hfloor : positiveFinite P.envMinMs = true)
    (hsr : positiveFinite sr = true) (hc : envelopeLegal c = true) (hv : inUnit v.level = true) :
    inUnit (stepEnvelope L P sr c v).level = true :=
  (fclamp_unit (rawLevel_finite hL hfloor hsr hc hv)).1

end

/-- The difference to a target that is not below. -/
theorem fsub_of_le {x t : F32} (hx : isFinite x = true) (ht : isFinite t = true) (h0 : 0 ≤ toRat x) (h : toRat x ≤ toRat t) :
    isFinite (fsub t x) = true ∧ 0 ≤ toRat (fsub t x) ∧ toRat (fsub t x) ≤ toRat t := by
  have := (roundOf_fsub ht hx).toRat_between isFinite_f0 ht (by rw [toRat_f0]; linarith) (by linarith)
  rwa [toRat_f0] at this

/-- A step towards a target that is not below does not fall, and passes no bound that the whole difference does not pass. -/
theorem follow_rise {x t k hi : F32} (hx : isFinite x = true) (ht : isFinite t = true) (hhi : isFinite hi = true)
    (hk : inUnit k = true) (h0 : 0 ≤ toRat x) (h : toRat x ≤ toRat t) (hbound : toRat x + toRat (fsub t x) ≤ toRat hi) :
    isFinite (fadd x (fmul k (fsub t x))) = true ∧ toRat x ≤ toRat (fadd x (fmul k (fsub t x))) ∧
      toRat (fadd x (fmul k (fsub t x))) ≤ toRat hi := by
  obtain ⟨hdf, hd0, -⟩ := fsub_of_le hx ht h0 h
  exact follow_between hx hdf hk hx hhi le_rfl (by linarith) (by linarith) hbound

/-- A step towards a target that is not above, nor negative, does not rise nor fall below 0.0. -/
theorem follow_fall {x t k : F32} (hx : isFinite x = true) (ht : isFinite t = true) (hk : inUnit k = true)
    (h0 : 0 ≤ toRat t) (h : toRat t ≤ toRat x) :
    isFinite (fadd x (fmul k (fsub t x))) = true ∧ 0 ≤ toRat (fadd x (fmul k (fsub t x))) ∧
      toRat (fadd x (fmul k (fsub t x))) ≤ toRat x := by
  have hneg : isFinite (fneg x) = true := by rwa [isFinite_fneg]
  obtain ⟨hdf, h1, h2⟩ := (roundOf_fsub ht hx).toRat_between hneg isFinite_f0 (by rw [toRat_fneg]; linarith)
    (by rw [toRat_f0]; linarith)
  rw [toRat_fneg] at h1
  rw [toRat_f0] at h2
  have := follow_between hx hdf hk isFinite_f0 hx (by rw [toRat_f0]; linarith) le_rfl (by rw [toRat_f0]; linarith) (by linarith)
  rwa [toRat_f0] at this

/-- Settles O47: Attack and Release move towards 1.0 and 0.0, rounding is monotone, and the clamp keeps the order. -/
theorem attackNeverFallsAndReleaseNeverRises : Obligations.AttackNeverFallsAndReleaseNeverRises := by
  unfold Obligations.AttackNeverFallsAndReleaseNeverRises
  intro P sr c v hP hsr hatk hrel hlevel
  have hfloor := (paramsInRange hP).envMinMs
  obtain ⟨hlf, hl0, hl1⟩ := inUnit_iff.1 hlevel
  refine ⟨fun hs => ?_, fun hs => ?_, fun hdec hsus => ?_⟩
  · have hk := tcoef_inUnit lib_expInUnit hfloor hsr hatk
    have hraw : rawLevel lib P sr c v = fadd v.level (fmul (tcoef lib P c.atk sr) (fsub f1 v.level)) := by
      rw [rawLevel, hs]
    obtain ⟨hu, hv⟩ := fclamp_unit (follow_unit_finite hlevel f1_inUnit hk)
    have h1 : toRat v.level ≤ toRat f1 := by rwa [toRat_f1]
    have hd := (fsub_of_le hlf isFinite_f1 hl0 h1).2.2
    rw [toRat_f1] at hd
    have hle := (follow_rise hlf isFinite_f1 isFinite_f2 hk hl0 h1 (by rw [toRat_f2]; linarith)).2.1
    rw [stepEnvelope, hraw, fle_iff hlf (isFinite_of_inUnit hu), hv]
    exact le_min (hle.trans (le_max_left _ _)) hl1
  · have hk := tcoef_inUnit lib_expInUnit hfloor hsr hrel
    have hraw : rawLevel lib P sr c v = fadd v.level (fmul (tcoef lib P c.rel sr) (fsub f0 v.level)) := by
      rw [rawLevel, hs]
    obtain ⟨hu, hv⟩ := fclamp_unit (follow_unit_finite hlevel f0_inUnit hk)
    have hle := (follow_fall hlf isFinite_f0 hk toRat_f0.ge (by rwa [toRat_f0])).2.2
    rw [stepEnvelope, hraw, fle_iff (isFinite_of_inUnit hu) hlf, hv]
    exact (min_le_left _ _).trans (max_le hle hl0)
  · exact stepEnvelope_level_inUnit lib_expInUnit hfloor hsr (by simp [envelopeLegal, hatk, hdec, hrel, hsus]) hlevel

/-! ## The table lookup (R14) -/

theorem isFinite_f2048 : isFinite f2048 = true := by decide

theorem toRat_f2048 : toRat f2048 = 2048 := by
  rw [toRat_of_units (v := 2048 * 2 ^ 149) (by decide)]; norm_num

/-- The phase scaled by 2048 is exact. -/
theorem scalePhase_exact {p : F32} (hp : isFinite p = true) (h0 : 0 ≤ toRat p) (h1 : toRat p < 1) :
    isFinite (fmul p f2048) = true ∧ toRat (fmul p f2048) = toRat p * 2048 := by
  have h := roundOf_fmul hp isFinite_f2048
  rw [toRat_f2048] at h
  refine h.exact_of_exists ?_
  obtain ⟨y, hy, hv⟩ := exists_scaled p 11 (by rw [abs_of_nonneg (by positivity)]; linarith)
  exact ⟨y, hy, by rw [hv]; norm_num⟩

/-- The index and the fraction of a lookup at a phase in [0.0, 1.0) are the exact ones. -/
theorem lookup_exact {p : F32} (hp : isFinite p = true) (h0 : 0 ≤ toRat p) (h1 : toRat p < 1) :
    ∃ i : ℕ, i ≤ 2047 ∧ ffloor (fmul p f2048) = i ∧ (i : ℤ) = ⌊toRat p * 2048⌋ ∧
      isFinite (fsub (fmul p f2048) (ofInt i)) = true ∧
      toRat (fsub (fmul p f2048) (ofInt i)) = Int.fract (toRat p * 2048) := by
  obtain ⟨hxf, hx⟩ := scalePhase_exact hp h0 h1
  obtain ⟨-, hrf, hr⟩ := fsub_floor_exact hxf (by rw [hx]; positivity)
  rw [hx] at hrf hr
  have hfloor := ffloor_eq hxf
  rw [hx] at hfloor
  obtain ⟨i, hi⟩ := Int.eq_ofNat_of_zero_le (Int.floor_nonneg.2 (by positivity : 0 ≤ toRat p * 2048))
  have hlt : ⌊toRat p * 2048⌋ < 2048 := Int.floor_lt.2 (by push_cast; linarith)
  rw [hi] at hfloor hrf hr hlt
  exact ⟨i, by omega, hfloor, hi.symm, hrf, hr⟩

/-- No lookup reads outside the table. -/
theorem lerp_congr {T T' : Nat → F32} (h : ∀ i, i < 2048 → T i = T' i) (p : F32) : lerp T p = lerp T' p := by
  unfold lerp
  dsimp only
  rw [h _ (by omega), h _ (Nat.mod_lt _ (by omega))]

/-- Settles O50: the scaled phase, its whole part and its fraction are exact, so the index is within 0..2047. -/
theorem lookupInterpolatesInsideTheTable : Obligations.LookupInterpolatesInsideTheTable := by
  unfold Obligations.LookupInterpolatesInsideTheTable
  refine ⟨fun T p hp h0 h1 => ?_, fun T T' p h => lerp_congr h p⟩
  rw [fle_iff isFinite_f0 hp, toRat_f0] at h0
  rw [flt_iff hp isFinite_f1, toRat_f1] at h1
  obtain ⟨i, hi, hfloor, hi', hrf, hr⟩ := lookup_exact hp h0 h1
  have hfract : Int.fract (toRat p * 2048) = toRat p * 2048 - (i : ℚ) := by rw [Int.fract, ← hi']; rfl
  have hmin : (min (ffloor (fmul p f2048)) 2047).toNat = i := by rw [hfloor]; omega
  dsimp only
  rw [hfloor, Int.toNat_natCast, hr]
  refine ⟨(scalePhase_exact hp h0 h1).2, hi', hi, hfract, Int.fract_nonneg _, Int.fract_lt_one _, ?_⟩
  rw [lerp, hmin]

end Sys2Proof.Machine
end

section
/-! What one step can do to the parts of the state that R53 speaks of, said once for every agent but the render engine
(`Effect`, `step_effect`). -/

namespace Sys2Proof.Machine

/-! ## Writes to a lane -/

/-- The writes to a channel register set: the controller commands (R300 to R305) and the write points of SET_ENVELOPE (R306). -/
inductive ChanWrite (P : Params) (work : List WriteOp) (c : Channel) : Channel → Prop
  | bend (value : Nat) (h : value ≤ 16383) : ChanWrite P work c { c with bend := bendRatio lib value }
  | pressure (value : Nat) (h : value ≤ 127) : ChanWrite P work c { c with at_ := unit127 value }
  | bright (value : Nat) (h : value ≤ 127) : ChanWrite P work c { c with bright := unit127 value }
  | cutoff (hz : F32) (h : cutoffOk P hz = true) : ChanWrite P work c { c with cutoff := hz }
  | atk (i : Nat) (v : F32) (h : .writeAtk i v ∈ work) : ChanWrite P work c { c with atk := v }
  | dec (i : Nat) (v : F32) (h : .writeDec i v ∈ work) : ChanWrite P work c { c with dec := v }
  | sus (i : Nat) (v : F32) (h : .writeSus i v ∈ work) : ChanWrite P work c { c with sus := clampSustain v }
  | rel (i : Nat) (v : F32) (h : .writeRel i v ∈ work) : ChanWrite P work c { c with rel := v }

/-- The writes to a voice outside a tick: NOTE_ON (R292) and NOTE_OFF (R296). -/
inductive VoiceWrite (P : Params) (c : Channel) (v : Voice) : Voice → Prop
  | noteOn (note vel : Nat) (hn : note ≤ 127) (hv : vel ≤ 127) :
      VoiceWrite P c v (startVoice lib (keyOf note) (targetOf P vel) c.cutoff v)
  | noteOff : VoiceWrite P c v (releaseVoice v)

/-- What a step that is no tick can do to a lane. -/
inductive LaneWrite (P : Params) (work : List WriteOp) (l : Lane) : Lane → Prop
  | keep : LaneWrite P work l l
  | chan {x : Channel} (h : ChanWrite P work l.chan x) : LaneWrite P work l { l with chan := x }
  | voice {x : Voice} (h : VoiceWrite P l.chan l.voice x) : LaneWrite P work l { l with voice := x }

/-! ## Effects -/

/-- What a step that is no tick can do to the parameters, the lanes, G.SR, the write points left and the published tables. -/
structure Effect (s t : State) : Prop where
  cfg : t.cfg = s.cfg
  count : t.numLanes = s.numLanes
  lanes : ∀ c, c < s.numLanes → LaneWrite s.cfg s.work (s.lane c) (t.lane c)
  sr : t.sr = s.sr ∨ .writeSr t.sr ∈ s.work
  work : (∀ op ∈ s.work, opLegal s.cfg op = true) → ∀ op ∈ t.work, opLegal s.cfg op = true
  custom : t.custom = s.custom ∨ ∃ addr len taken rest, s.work = .publishCustom addr len taken :: rest ∧
    t.custom.table = (load s.cfg (takenRead taken s.payload) addr len).1
  regions : ∀ r ∈ t.regions, r ∈ s.regions ∨ ∃ root lo hi addr len naddr nlen ta tn rest,
    s.work = .publishRegion root lo hi addr len naddr nlen ta tn :: rest ∧
      r.band = buildBands lib s.cfg (load s.cfg (takenRead ta s.payload) addr len).1 root.toNat s.sr

/-- A step that writes none of these parts but the list of write points. -/
theorem Effect.of_work {s t : State} (hcfg : t.cfg = s.cfg) (hlanes : t.lanes = s.lanes) (hsr : t.sr = s.sr)
    (hwork : (∀ op ∈ s.work, opLegal s.cfg op = true) → ∀ op ∈ t.work, opLegal s.cfg op = true)
    (hcustom : t.custom = s.custom) (hregions : ∀ r ∈ t.regions, r ∈ s.regions) : Effect s t where
  cfg := hcfg
  count := by rw [State.numLanes, hlanes, State.numLanes]
  lanes c _ := by
    have : t.lane c = s.lane c := by rw [State.lane, hlanes, hcfg, State.lane]
    exact this ▸ .keep
  sr := .inl hsr
  work := hwork
  custom := .inl hcustom
  regions r hr := .inl (hregions r hr)

theorem Effect.refl (s : State) : Effect s s := .of_work rfl rfl rfl id rfl fun _ => id

/-- A write to one channel register set. -/
theorem Effect.setChan {s : State} {c : Nat} {x : Channel} (h : ChanWrite s.cfg s.work (s.chan c) x) :
    Effect s (s.setChan c x) where
  cfg := rfl
  count := setChan_numLanes s c x
  lanes d hd := by
    by_cases e : d = c
    · subst e; rw [lane_setChan_same x hd]; exact .chan h
    · rw [lane_setChan_ne x e]; exact .keep
  sr := .inl rfl
  work := id
  custom := .inl rfl
  regions _ hr := .inl hr

/-- A write to one voice. -/
theorem Effect.setVoice {s : State} {c : Nat} {x : Voice} (h : VoiceWrite s.cfg (s.chan c) (s.voice c) x) :
    Effect s (s.setVoice c x) where
  cfg := rfl
  count := setVoice_numLanes s c x
  lanes d hd := by
    by_cases e : d = c
    · subst e; rw [lane_setVoice_same x hd]; exact .voice h
    · rw [lane_setVoice_ne x e]; exact .keep
  sr := .inl rfl
  work := id
  custom := .inl rfl
  regions _ hr := .inl hr

/-- An effect on a state whose script, decoder and command queue are set back is an effect on the state. -/
theorem Effect.of_script {s t : State} {ts : List Turn} {q : List Word} {d : Dec}
    (h : Effect { s with turns := ts, cmdq := q, dec := d } t) : Effect s t :=
  ⟨h.cfg, h.count, h.lanes, h.sr, h.work, h.custom, h.regions⟩

/-- `G.DEC`'s return to IDLE touches none of these parts. -/
theorem Effect.retire {s t : State} (h : Effect s t) : Effect s (retire t) := by
  have hlane : ∀ c, (Machine.retire t).lane c = t.lane c := fun c => by rw [State.lane, retire_lanes, retire_cfg, State.lane]
  exact ⟨by rw [retire_cfg, h.cfg], by rw [State.numLanes, retire_lanes]; exact h.count,
    fun c hc => hlane c ▸ h.lanes c hc, by rw [retire_sr]; exact h.sr, by rw [retire_work]; exact h.work,
    by rw [retire_custom]; exact h.custom, by rw [retire_regions]; exact h.regions⟩

/-- A command issues write points whose values its checks let pass. -/
theorem Effect.issue {s : State} {ops : List WriteOp} (h : ∀ op ∈ ops, opLegal s.cfg op = true) : Effect s (issue ops s) :=
  .of_work rfl rfl rfl (fun _ => h) rfl fun _ => id

/-! ## Meanings -/

/-- A successful open gives a rate in SR_MIN .. SR_MAX (R331). -/
theorem rateOk_of_openOk {P : Params} {d : Draw} (h : openOk P d = true) : rateOk P d.sr = true := by
  simp only [openOk, Bool.and_eq_true] at h
  simp [rateOk, h.1.2, h.2]

theorem start_effect (s : State) : Effect s (start s) := by
  rcases start_cases s with ⟨-, h⟩ | ⟨-, hok, h⟩ | ⟨-, -, h⟩ <;> rw [h]
  · exact .issue (by simp [opLegal])
  · refine .of_work rfl rfl rfl (fun _ op hop => ?_) rfl fun _ => id
    have hr := rateOk_of_openOk hok
    have hops : ∀ op ∈ openOps s.bankSr (nextDraw s).sr, opLegal s.cfg op = true := by
      unfold openOps; split <;> simp [opLegal, hr]
    exact hops op hop
  · exact .of_work rfl rfl rfl (fun _ => by simp [Machine.issue, opLegal]) rfl fun _ => id

theorem setEnvelope_effect (c : Nat) (atk dec sus rel : F32) (s : State) : Effect s (setEnvelope c atk dec sus rel s) := by
  unfold setEnvelope
  split
  · next h =>
    simp only [envelopeOk, Bool.and_eq_true] at h
    exact .issue (by simp [opLegal, h])
  · exact .refl s

/-- What the meaning of a command can do. -/
theorem exec_effect {i : Instr} {s t : State} (h : exec i s = .next t) : Effect s t := by
  cases i with
  | start => cases h; exact start_effect s
  | stop => cases h; exact .of_work rfl rfl rfl id rfl fun _ => id
  | close => cases h; exact .of_work rfl rfl rfl id rfl fun _ => id
  | setWaveform id =>
    cases h
    unfold setWaveform
    split
    · exact .of_work rfl rfl rfl (fun h => h) rfl fun _ h => h
    · exact .refl s
  | setFilterCutoff c hz =>
    cases h
    unfold setFilterCutoff
    split
    · next h => exact .setChan (.cutoff hz (Bool.and_eq_true .. ▸ h).2)
    · exact .refl s
  | setEnvelope c atk dec sus rel => cases h; exact setEnvelope_effect c atk dec sus rel s
  | loadWavetable addr len => cases h; exact .issue (by simp [opLegal])
  | registerSample root lo hi addr len naddr nlen =>
    cases h
    rcases registerSample_cases root lo hi addr len naddr nlen s with ⟨-, h⟩ | ⟨-, h⟩ <;> rw [h] <;>
      exact .issue (by simp [opLegal])
  | unregisterSample index =>
    cases h
    unfold unregisterSample
    split
    · exact .of_work rfl rfl rfl id rfl fun _ => List.mem_of_mem_eraseIdx
    · exact .refl s
  | listSampleNames => cases h; exact .issue (by simp [opLegal])
  | noteOff c note =>
    cases h
    rcases noteOff_cases c s with ⟨-, -, h⟩ | h <;> rw [h]
    · exact .setVoice .noteOff
    · exact .refl s
  | noteOn c note vel =>
    cases h
    rcases noteOn_cases lib c note vel s with ⟨-, hn, hv, h⟩ | h <;> rw [h]
    · exact .setVoice (.noteOn note vel hn hv)
    · exact .refl s
  | controlChange c cc value =>
    cases h
    unfold controlChange
    split
    · next h =>
      split
      · exact .setChan (.bright value (of_decide_eq_true (Bool.and_eq_true .. ▸ h).2))
      · exact .refl s
    · exact .refl s
  | channelPressure c value =>
    cases h
    unfold channelPressure
    split
    · next h => exact .setChan (.pressure value (of_decide_eq_true (Bool.and_eq_true .. ▸ h).2))
    · exact .refl s
  | pitchBend c value =>
    cases h
    unfold pitchBend
    split
    · next h => exact .setChan (.bend value (of_decide_eq_true (Bool.and_eq_true .. ▸ h).2))
    · exact .refl s

/-! ## Agents -/

/-- What a write point can do. -/
theorem applyOp_effect {s : State} {op : WriteOp} {rest : List WriteOp} (h : s.work = op :: rest) :
    Effect s (applyOp lib op { s with work := rest }) := by
  have hop : op ∈ s.work := h ▸ List.mem_cons_self
  have hrest : (∀ o ∈ s.work, opLegal s.cfg o = true) → ∀ o ∈ rest, opLegal s.cfg o = true := fun hw o ho =>
    hw o (h ▸ List.mem_cons_of_mem op ho)
  have onChan : ∀ {c : Nat} {x : Channel}, ChanWrite s.cfg s.work (s.chan c) x →
      Effect s (({ s with work := rest } : State).setChan c x) := fun hx =>
    let e := Effect.setChan hx
    ⟨e.cfg, e.count, e.lanes, e.sr, hrest, e.custom, e.regions⟩
  cases op with
  | writeAtk c v => exact onChan (.atk c v hop)
  | writeDec c v => exact onChan (.dec c v hop)
  | writeSus c v => exact onChan (.sus c v hop)
  | writeRel c v => exact onChan (.rel c v hop)
  | generateBank sr => exact .of_work rfl rfl rfl hrest rfl fun _ => id
  | writeSr sr => exact ⟨rfl, rfl, fun _ _ => .keep, .inr hop, hrest, .inl rfl, fun _ => .inl⟩
  | startStream => exact .of_work rfl rfl rfl hrest rfl fun _ => id
  | publishCustom addr len taken =>
    exact ⟨rfl, rfl, fun _ _ => .keep, .inl rfl, fun hw => by simpa [applyOp, publishCustom, opLegal] using hrest hw,
      .inr ⟨addr, len, taken, rest, h, rfl⟩, fun _ => .inl⟩
  | selectCustom => exact .of_work rfl rfl rfl hrest rfl fun _ => id
  | publishRegion root lo hi addr len naddr nlen ta tn =>
    refine ⟨rfl, rfl, fun _ _ => .keep, .inl rfl, fun hw => by simpa [applyOp, publishRegion, opLegal] using hrest hw,
      .inl rfl, fun r hr => ?_⟩
    rcases List.mem_append.1 hr with hr | hr
    · exact .inl hr
    · rw [List.mem_singleton.1 hr]
      exact .inr ⟨root, lo, hi, addr, len, naddr, nlen, ta, tn, rest, h, rfl⟩
  | respond w => exact .of_work rfl rfl rfl hrest rfl fun _ => id

theorem workStep_effect (s : State) : Effect s (workStep lib s) := by
  rcases workStep_cases lib s with ⟨-, h⟩ | ⟨op, rest, hw, ⟨-, h⟩ | ⟨-, h⟩⟩ <;> rw [h]
  · exact .refl s
  · exact .refl s
  · exact applyOp_effect hw

theorem processorStep_effect {s t : State} (h : processorStep s = .next t) : Effect s t := by
  rcases processorStep_cases s with ⟨op, rest, -, e⟩ | ⟨-, -, e⟩ | ⟨w, q, d, -, -, -, e⟩ | ⟨w, q, d, i, u, -, -, -, hu, e⟩ <;>
    rw [e] at h <;> cases h
  · exact (workStep_effect s).retire
  · exact .refl s
  · exact .of_work rfl rfl rfl id rfl fun _ => id
  · exact (Effect.of_script (ts := s.turns) (exec_effect hu)).retire

/-- A host store keeps the values that write points will write. -/
theorem takeBefore_opLegal {P : Params} {s : State} {a : Nat} {x y : Bool} {ops : List WriteOp}
    (h : ∀ op ∈ ops, opLegal P op = true) : ∀ op ∈ takeBefore s a x y ops, opLegal P op = true := by
  cases ops with
  | nil => exact h
  | cons op rest => cases op <;> simpa [takeBefore, opLegal] using h

theorem hostStep_effect (s : State) : Effect s (hostStep s) := by
  rcases hostStep_cases s with h | ⟨w, rest, -, -, h⟩ | ⟨w, q, rest, -, -, h⟩ | ⟨a, b, x, y, rest, -, h⟩ <;> rw [h]
  · exact .refl s
  · exact .of_work rfl rfl rfl id rfl fun _ => id
  · exact .of_work rfl rfl rfl id rfl fun _ => id
  · exact .of_work (by simp) (by simp) (by simp) (by simpa using takeBefore_opLegal) (by simp) (by simp)

/-- A step is a tick, or has an `Effect`. -/
theorem step_effect {s t : State} (h : step s = .next t) :
    Effect s t ∨ ∃ d ts, s.turns = .tick d :: ts ∧ t = tickWith lib d { s with turns := ts } := by
  rcases step_cases s with ⟨-, e⟩ | ⟨ts, -, e⟩ | ⟨d, ts, hs, e⟩ | ⟨ts, -, e⟩ <;> rw [e] at h
  · exact .inl (processorStep_effect h)
  · exact .inl (.of_script (ts := ts) (processorStep_effect h))
  · cases h; exact .inr ⟨d, ts, hs, rfl⟩
  · cases h; exact .inl (.of_script (ts := ts) (hostStep_effect _))

/-- Settles O16: both kinds of step keep the parameters and the lane count. -/
theorem noStepChangesParametersOrLaneCount : Obligations.NoStepChangesParametersOrLaneCount := by
  unfold Obligations.NoStepChangesParametersOrLaneCount
  intro s t h
  rcases step_effect h with e | ⟨d, ts, -, rfl⟩
  · exact ⟨e.cfg, e.count⟩
  · exact ⟨tickWith_cfg .., tickResult_lanes_length lib _ d⟩

end Sys2Proof.Machine
end

section
/-! What a tick does to a voice, said once (`VoiceStepped`), and invariants of the lanes along a step. -/

namespace Sys2Proof.Machine

/-! ## The tick -/

/-- `r` is the voice v after its step, field by field: kept, retired by a check (R249, R252), or computed (R243 to R255). -/
structure VoiceStepped (L : Lib) (P : Params) (g : Snapshot) (c : Channel) (v r : Voice) : Prop where
  baseFreq : r.baseFreq = v.baseFreq
  phase : r.phase = advancePhase g.sr c v
  target : r.target = v.target
  amp : r.amp = f0 ∨ r.amp = followAmp L P g.sr v
  level : r.level = v.level ∨ r.level = f0 ∨ r.level = (stepEnvelope L P g.sr c v).level
  fcut : r.fcut = v.fcut ∨ r.fcut = fadd v.fcut (fmul P.cutoffK (fsub c.cutoff v.fcut))
  fstate : r.fstate = v.fstate ∨ r.fstate = (stepFilter L P g.sr c
    (gained c { v with amp := followAmp L P g.sr v, level := (stepEnvelope L P g.sr c v).level }
      (lerp (tableAt (sourceTable L P g v.note (bentFreq c v))) (advancePhase g.sr c v))) v).fstate

theorem voiceStep_stepped (L : Lib) (P : Params) (g : Snapshot) (c : Channel) (v : Voice) :
    VoiceStepped L P g c v (voiceStep L P g c v).1 := by
  unfold voiceStep
  dsimp only
  split
  · exact ⟨rfl, rfl, rfl, .inl rfl, .inl rfl, .inl rfl, .inl rfl⟩
  · split
    · exact ⟨rfl, rfl, rfl, .inr rfl, .inr (.inl rfl), .inl rfl, .inl rfl⟩
    · exact ⟨rfl, rfl, rfl, .inr rfl, .inr (.inr rfl), .inr rfl, .inr rfl⟩

/-- A lane after a tick: as it was, or with its sounding voice stepped (R240, R242). -/
theorem tickWith_lane (L : Lib) (d : Bool) {s : State} {c : Nat} (h : c < s.numLanes) :
    (tickWith L d s).lane c = s.lane c ∨ ((s.lane c).voice.active = true ∧ (tickWith L d s).lane c =
      { s.lane c with voice := (voiceStep L s.cfg (snapshotOf s) (s.lane c).chan (s.lane c).voice).1 }) := by
  have hl : c < s.lanes.length := h
  rw [lane_of_lt (by simpa using hl), lane_of_lt hl]
  simp only [tickWith_lanes, tickResult_lanes]
  by_cases hr : renders s d = true
  · simp only [hr, if_true, List.getElem_map]
    unfold laneStep
    split
    · next ha => exact .inr ⟨ha, rfl⟩
    · exact .inl rfl
  · simp [hr]

/-! ## Invariants of every lane -/

theorem forall_lanes_iff {s : State} {p : Lane → Prop} : (∀ l ∈ s.lanes, p l) ↔ ∀ c, c < s.numLanes → p (s.lane c) := by
  constructor
  · exact fun h c hc => h _ (lane_mem hc)
  · intro h l hl
    obtain ⟨c, hc, rfl⟩ := List.getElem_of_mem hl
    exact lane_of_lt hc ▸ h c hc

/-- A step that is no tick keeps of every lane what every write to a lane keeps. -/
theorem Effect.forall_lanes {s t : State} {p : Lane → Prop} (e : Effect s t) (h : ∀ l ∈ s.lanes, p l)
    (hp : ∀ l l', p l → LaneWrite s.cfg s.work l l' → p l') : ∀ l ∈ t.lanes, p l := by
  rw [forall_lanes_iff] at h ⊢
  intro c hc
  rw [e.count] at hc
  exact hp _ _ (h c hc) (e.lanes c hc)

/-- A tick keeps of every lane what the step of a sounding voice keeps. -/
theorem tickWith_forall_lanes {L : Lib} {d : Bool} {s : State} {p : Lane → Prop} (h : ∀ l ∈ s.lanes, p l)
    (hp : ∀ l ∈ s.lanes, l.voice.active = true → p l →
      p { l with voice := (voiceStep L s.cfg (snapshotOf s) l.chan l.voice).1 }) : ∀ l ∈ (tickWith L d s).lanes, p l := by
  rw [forall_lanes_iff]
  intro c hc
  have hc' : c < s.numLanes := by simpa [State.numLanes] using hc
  have hl := lane_mem hc'
  rcases tickWith_lane L d hc' with e | ⟨ha, e⟩ <;> rw [e]
  · exact h _ hl
  · exact hp _ hl ha (h _ hl)

/-! ## Rates and envelopes (R53 items 1 and 8) -/

/-- A rate in SR_MIN .. SR_MAX is finite and at least 2^-16. -/
theorem rate_facts {P : Params} {sr : F32} (hP : paramsOk P = true) (h : rateOk P sr = true) :
    isFinite sr = true ∧ 1 / 2 ^ 16 ≤ toRat sr := by
  have hlow : isFinite 0x37800000#32 = true ∧ toRat 0x37800000#32 = 1 / 2 ^ 16 := ⟨by decide, by
    rw [toRat_of_units (v := 2 ^ 133) (by decide)]; norm_num⟩
  simp only [rateOk, Bool.and_eq_true] at h
  have := (between_iff hlow.1 (paramsInRange hP).srMax).1 ⟨fle_trans (paramsInRange hP).srMin h.1, h.2⟩
  exact ⟨this.1, hlow.2 ▸ this.2.1⟩

theorem rate_positive {P : Params} {sr : F32} (hP : paramsOk P = true) (h : rateOk P sr = true) :
    positiveFinite sr = true :=
  positiveFinite_iff.2 ⟨(rate_facts hP h).1, lt_of_lt_of_le (by norm_num) (rate_facts hP h).2⟩

/-- A step that is no tick keeps the rate in SR_MIN .. SR_MAX. -/
theorem Effect.rate {s t : State} (e : Effect s t) (hsr : rateOk s.cfg s.sr = true)
    (hw : ∀ op ∈ s.work, opLegal s.cfg op = true) : rateOk t.cfg t.sr = true := by
  rw [e.cfg]
  rcases e.sr with h | h
  · rwa [h]
  · exact hw _ h

/-- A write keeps a channel's envelope parameters in range (R306). -/
theorem ChanWrite.envelopeLegal {P : Params} {work : List WriteOp} {c c' : Channel} (h : ChanWrite P work c c')
    (hw : ∀ op ∈ work, opLegal P op = true) (hc : envelopeLegal c = true) : envelopeLegal c' = true := by
  simp only [Machine.envelopeLegal, Bool.and_eq_true] at hc ⊢
  obtain ⟨⟨⟨hatk, hdec⟩, hrel⟩, hsus⟩ := hc
  cases h with
  | bend | pressure | bright | cutoff => exact ⟨⟨⟨hatk, hdec⟩, hrel⟩, hsus⟩
  | atk i v h => exact ⟨⟨⟨hw _ h, hdec⟩, hrel⟩, hsus⟩
  | dec i v h => exact ⟨⟨⟨hatk, hw _ h⟩, hrel⟩, hsus⟩
  | sus i v h => exact ⟨⟨⟨hatk, hdec⟩, hrel⟩, (fclamp_unit (hw _ h)).1⟩
  | rel i v h => exact ⟨⟨⟨hatk, hdec⟩, hw _ h⟩, hsus⟩

theorem LaneWrite.envelopeLegal {P : Params} {work : List WriteOp} {l l' : Lane} (h : LaneWrite P work l l')
    (hw : ∀ op ∈ work, opLegal P op = true) (hl : envelopeLegal l.chan = true) : envelopeLegal l'.chan = true := by
  cases h with
  | keep | voice => exact hl
  | chan h => exact h.envelopeLegal hw hl

/-- A write keeps a voice's level in [0.0, 1.0] (R292). -/
theorem LaneWrite.level_inUnit {P : Params} {work : List WriteOp} {l l' : Lane} (h : LaneWrite P work l l')
    (hl : inUnit l.voice.level = true) : inUnit l'.voice.level = true := by
  cases h with
  | keep | chan => exact hl
  | voice h =>
    cases h with
    | noteOn => exact f0_inUnit
    | noteOff => exact hl

/-- A tick keeps a voice's level in [0.0, 1.0] (R251). -/
theorem voiceStep_level_inUnit {L : Lib} {P : Params} {g : Snapshot} {c : Channel} {v : Voice} (hL : ExpInUnit L)
    (hP : paramsOk P = true) (hsr : rateOk P g.sr = true) (hc : envelopeLegal c = true) (hv : inUnit v.level = true) :
    inUnit (voiceStep L P g c v).1.level = true := by
  rcases (voiceStep_stepped L P g c v).level with h | h | h <;> rw [h]
  · exact hv
  · exact f0_inUnit
  · exact stepEnvelope_level_inUnit hL (paramsInRange hP).envMinMs (rate_positive hP hsr) hc hv

/-- Settles O13: writes keep levels and envelope parameters in range because their commands' checks do, ticks because the
envelope's step does. -/
theorem everyStepKeepsTheEnvelopeInRange : Obligations.EveryStepKeepsTheEnvelopeInRange := by
  unfold Obligations.EveryStepKeepsTheEnvelopeInRange
  rintro s t ⟨hP, hsr, hlevels, hwork⟩ hstep
  rcases step_effect hstep with e | ⟨d, ts, -, rfl⟩
  · refine ⟨by rwa [e.cfg], e.rate hsr hwork, e.forall_lanes hlevels fun l l' hl h => ?_, by rw [e.cfg]; exact e.work hwork⟩
    exact ⟨h.level_inUnit hl.1, h.envelopeLegal hwork hl.2⟩
  · refine ⟨hP, hsr, tickWith_forall_lanes hlevels fun l hl _ ⟨hv, hc⟩ => ?_, hwork⟩
    exact ⟨voiceStep_level_inUnit lib_expInUnit hP hsr hc hv, hc⟩

end Sys2Proof.Machine
end

section
/-! SUPPORT. The amplitude follower (R247): how far its rounding can carry AMP. -/

namespace Sys2Proof.Machine

/-! ## The value after a positive one -/

theorem nextUp_pattern {h : F32} (hf : isFinite h = true) (h0 : 0 < toRat h) :
    magBits (nextUp h) = magBits h + 1 ∧ isNeg (nextUp h) = false := by
  have hs := isNeg_of_toRat_pos h0
  have hm := (isFinite_iff h).1 hf
  unfold isNeg at hs
  rw [decide_eq_false_iff_not] at hs
  unfold magBits at hm
  have hn : (nextUp h).toNat = h.toNat + 1 := by
    rw [nextUp, BitVec.toNat_add, show (1#32 : F32).toNat = 1 from rfl]; omega
  constructor
  · unfold magBits; rw [hn]; omega
  · unfold isNeg; rw [hn, decide_eq_false_iff_not]; omega

/-- The next value is larger by at least 2^-24 of the value. -/
theorem nextUp_facts {h : F32} (hf : isFinite h = true) (h0 : 0 < toRat h) (h1 : toRat h ≤ 1) :
    isFinite (nextUp h) = true ∧ toRat h + toRat h / 16777216 ≤ toRat (nextUp h) ∧ toRat (nextUp h) ≤ 2 := by
  obtain ⟨hm, hs⟩ := nextUp_pattern hf h0
  have hone : magBits h ≤ 0x3F800000 := by
    have := (toRat_le_iff h f1).1 (by rwa [toRat_f1])
    rw [orderKey_eq, orderKey_eq, isNeg_of_toRat_pos h0] at this
    simpa [show isNeg f1 = false by decide, show magBits f1 = 0x3F800000 by decide] using this
  refine ⟨(isFinite_iff _).2 (by omega), ?_, ?_⟩
  · obtain ⟨q, sh, hq, -, -, hg, hg1⟩ := gridUnits_decomp (magBits h)
    rw [toRat_of_not_isNeg hs, toRat_of_not_isNeg (isNeg_of_toRat_pos h0), abs_toRat, abs_toRat, hm, hg, hg1]
    have hq' : (q : ℚ) ≤ 16777216 := by exact_mod_cast hq.le
    have hunits : (0 : ℚ) < (unitsPerOne : ℚ) := by norm_num
    generalize (unitsPerOne : ℚ) = u at *
    push_cast
    rw [div_right_comm, ← add_div, div_le_div_iff_of_pos_right hunits]
    have : (0 : ℚ) < 2 ^ sh := by positivity
    nlinarith
  · rw [← toRat_f2, toRat_le_iff, orderKey_eq, orderKey_eq, hm, hs, show isNeg f2 = false by decide,
      show magBits f2 = 0x40000000 by decide]
    simp only [Bool.false_eq_true, if_false]
    omega

/-! ## A rising step -/

/-- `x + k * (t - x)` with `x <= t <= h` stays at or below `top`. -/
def RisesWithin (top h k : F32) : Prop :=
  ∀ x t : F32, isFinite x = true → isFinite t = true → 0 ≤ toRat x → toRat x ≤ toRat t → toRat t ≤ toRat h →
    isFinite (fadd x (fmul k (fsub t x))) = true ∧ toRat x ≤ toRat (fadd x (fmul k (fsub t x))) ∧
      toRat (fadd x (fmul k (fsub t x))) ≤ toRat top

/-- With any coefficient in [0.0, 1.0] a rising step passes its bound by one value at most (R53 item 3, log entry 21). -/
theorem risesWithin_nextUp {h k : F32} (hf : isFinite h = true) (h0 : 0 < toRat h) (h1 : toRat h ≤ 1) (hk : inUnit k = true) :
    RisesWithin (nextUp h) h k := by
  intro x t hx ht hx0 hxt hth
  obtain ⟨hnf, hn, -⟩ := nextUp_facts hf h0 h1
  have hdiff : |toRat t - toRat x| = toRat t - toRat x := abs_of_nonneg (by linarith)
  have hone : (1 : ℚ) < overflowBound := by norm_num [overflowBound]
  obtain ⟨-, herr⟩ := fsub_error ht hx (by rw [hdiff]; exact lt_of_le_of_lt (by linarith) hone)
  rw [hdiff, abs_le] at herr
  exact follow_rise hx ht hnf hk hx0 hxt (by linarith [herr.2])

/-- Where rounding to the grid went up, a factor of at most 1 - 2^-24 brings it back below the exact value. -/
theorem roundMag_shrink {num den K u : ℕ} (hd : 0 < den) (hdvd : den ∣ num) (hfin : roundMag num den < 2139095040)
    (hu : 0 < u) (hK : K + u ≤ 16777216 * u) (hup : num < gridUnits (roundMag num den) * den) :
    gridUnits (roundMag (K * gridUnits (roundMag num den)) (16777216 * u)) * den ≤ num := by
  obtain ⟨p, h1, h2, h3⟩ := roundMag_bracket num den hd
  have hne : roundMag num den ≠ p := fun e => absurd h1 (by rw [e] at hup; exact not_le.2 hup)
  have hc : roundMag num den = p + 1 := by
    clear hK hup h1 h2 hdvd
    split at h3
    · omega
    · split at h3 <;> omega
  obtain ⟨q, sh, hq, hs, hp, hg, hg1⟩ := gridUnits_decomp p
  have hfull : 8388608 ≤ q := by
    by_contra hsmall
    obtain rfl : sh = 0 := by omega
    rw [pow_zero, mul_one] at hg hg1
    obtain ⟨n, rfl⟩ := hdvd
    rw [mul_comm den n] at *
    rw [hg] at h1
    rw [hg1] at h2
    have a := Nat.le_of_mul_le_mul_right h1 hd
    have b := Nat.lt_of_mul_lt_mul_right h2
    exact hne (roundMag_grid hd (by rw [hg, show n = q by omega]) (by omega))
  have hmid : 2 * (K * gridUnits (p + 1)) < (gridUnits p + gridUnits (p + 1)) * (16777216 * u) := by
    rw [hg, hg1]
    have hs0 : 0 < 2 ^ sh := by positivity
    generalize 2 ^ sh = w at *
    have : 2 * (K * (q + 1)) < (2 * q + 1) * (16777216 * u) := by nlinarith
    nlinarith
  have := roundMag_le_of_lt_mid (by positivity) (by omega) hmid
  rw [hc]
  exact (Nat.mul_le_mul_right den (gridUnits_strictMono.monotone this)).trans h1

theorem magUnits_of_lt_one {k : F32} (hk : inUnit k = true) (hk1 : flt k f1 = true) :
    magUnits k + 2 ^ 125 ≤ 16777216 * 2 ^ 125 := by
  have hf := isFinite_of_inUnit hk
  have hlt := (toRat_lt_iff k f1).1 ((flt_iff hf isFinite_f1).1 hk1)
  have h0 := (fle_f0_iff.1 (Bool.and_eq_true .. ▸ hk).1).2
  rw [orderKey_eq, orderKey_eq, show isNeg f1 = false by decide, show magBits f1 = 0x3F800000 by decide] at hlt
  have hm : magBits k ≤ 0x3F7FFFFF := by
    rcases h0 with h | h
    · rw [h] at hlt; simp at hlt; omega
    · omega
  have := magUnits_le hm
  rw [show gridUnits 0x3F7FFFFF = 16777215 * 2 ^ 125 by decide] at this
  omega

/-- With a coefficient below 1.0 the product does not pass the exact difference. -/
theorem fmul_fsub_le {x t k : F32} (hx : isFinite x = true) (ht : isFinite t = true) (hk : inUnit k = true)
    (hk1 : flt k f1 = true) (hx0 : 0 ≤ toRat x) (hxt : toRat x ≤ toRat t) :
    toRat (fmul k (fsub t x)) ≤ toRat t - toRat x := by
  obtain ⟨hdf, hd0, -⟩ := fsub_of_le hx ht hx0 hxt
  rcases le_or_gt (toRat (fsub t x)) (toRat t - toRat x) with hle | hgt
  · exact (fmul_unit_between hk hdf).2.2.trans (max_le (by linarith) hle)
  · obtain ⟨neg, num, den, hd, hr, hv, -, -⟩ := roundOf_fsub ht hx
    have hmag : magBits (fsub t x) = roundMag num den := by
      rw [hr, magBits_packSign neg (by have := roundMag_le num den; omega)]
    have hnum : num = (valUnits t - valUnits x).natAbs * den :=
      num_eq_of_units hd hv (by rw [sub_mul, toRat_mul_units, toRat_mul_units]; push_cast; rfl)
    have hprod : magBits (fmul k (fsub t x)) = roundMag (magUnits k * gridUnits (roundMag num den)) unitsPerOne := by
      have := roundMag_le (magUnits k * gridUnits (roundMag num den)) unitsPerOne
      rw [← hmag, ← magUnits_eq] at *
      have hkf := isFinite_of_inUnit hk
      unfold fmul
      simp only [isNaN_of_finite hkf, isNaN_of_finite hdf, isInf_of_finite hkf, isInf_of_finite hdf, Bool.or_self,
        Bool.false_eq_true, if_false]
      exact magBits_packSign _ (by omega)
    have hden : (0 : ℚ) < (den : ℚ) := by exact_mod_cast hd
    have hunits : (0 : ℚ) < (unitsPerOne : ℚ) := by norm_num
    rw [abs_of_nonneg (by linarith)] at hv
    have hup : num < gridUnits (roundMag num den) * den := by
      rw [← abs_of_nonneg hd0, abs_toRat, hmag, hv, div_lt_div_iff₀ (by positivity) hunits] at hgt
      have : (num : ℚ) < gridUnits (roundMag num den) * den := lt_of_mul_lt_mul_right (by linarith) hunits.le
      exact_mod_cast this
    have key := roundMag_shrink hd ⟨_, hnum.trans (mul_comm _ _)⟩ (hmag ▸ (isFinite_iff _).1 hdf) (by positivity)
      (magUnits_of_lt_one hk hk1) hup
    rw [show 16777216 * 2 ^ 125 = unitsPerOne by norm_num] at key
    refine (le_abs_self _).trans ?_
    rw [abs_toRat, hprod, hv, div_le_div_iff₀ hunits (by positivity)]
    have : (gridUnits (roundMag (magUnits k * gridUnits (roundMag num den)) unitsPerOne) * den : ℚ) ≤ num := by
      exact_mod_cast key
    nlinarith

/-- With a coefficient below 1.0 a rising step keeps its bound (R53 item 3). -/
theorem risesWithin_of_lt_one {h k : F32} (hf : isFinite h = true) (hk : inUnit k = true) (hk1 : flt k f1 = true) :
    RisesWithin h h k := by
  intro x t hx ht hx0 hxt hth
  obtain ⟨hdf, hd0, -⟩ := fsub_of_le hx ht hx0 hxt
  obtain ⟨hpf, hp0, -⟩ := fmul_unit_between hk hdf
  rw [min_eq_left hd0] at hp0
  exact (roundOf_fadd hx hpf).toRat_between hx hf (by linarith) (by linarith [fmul_fsub_le hx ht hk hk1 hx0 hxt])

end Sys2Proof.Machine
end

section
/-! The registers of R53 items 1, 3, 8 and 10: every step keeps them in range. -/

namespace Sys2Proof.Machine

/-! ## Bounds of the parameters -/

/-- CUTOFF_ABS_MAX in exact arithmetic, and its double. -/
theorem cutoffAbsMax_facts {P : Params} (hP : paramsOk P = true) :
    isFinite P.cutoffAbsMax = true ∧ 0 < toRat P.cutoffAbsMax ∧ isFinite (fmul f2 P.cutoffAbsMax) = true ∧
      toRat (fmul f2 P.cutoffAbsMax) = 2 * toRat P.cutoffAbsMax ∧ toRat (fmul f2 P.cutoffAbsMax) ≤ 2 ^ 101 := by
  have hle := (paramsInRange hP).cutoffAbsMax_le
  obtain ⟨hf, h0⟩ := positiveFinite_iff.1 (paramsInRange hP).cutoffAbsMax
  have htop : isFinite 0x71800000#32 = true ∧ toRat 0x71800000#32 = 2 ^ 100 := ⟨by decide, by
    rw [toRat_of_units (v := 2 ^ 249) (by decide)]; norm_num⟩
  rw [fle_iff hf htop.1, htop.2] at hle
  obtain ⟨hdf, hd⟩ := (roundOf_fmul isFinite_f2 hf).exact_of_exists (by
    rw [toRat_f2]; exact exists_double _ (by rw [abs_of_pos h0]; exact hle.trans_lt (by norm_num)))
  rw [toRat_f2] at hd
  exact ⟨hf, h0, hdf, hd, by rw [hd]; linarith⟩

theorem headroom_facts {P : Params} (hP : paramsOk P = true) :
    isFinite P.headroom = true ∧ 0 < toRat P.headroom ∧ toRat P.headroom ≤ 1 := by
  have hle := (paramsInRange hP).headroom_le
  obtain ⟨hf, h0⟩ := positiveFinite_iff.1 (paramsInRange hP).headroom
  rw [fle_iff hf isFinite_f1, toRat_f1] at hle
  exact ⟨hf, h0, hle⟩

/-- SET_FILTER_CUTOFF's range in exact arithmetic (R305). -/
theorem cutoffOk_iff {P : Params} (hP : paramsOk P = true) (hz : F32) :
    cutoffOk P hz = true ↔ Within (toRat P.cutoffAbsMax) hz := by
  rw [cutoffOk, Bool.and_eq_true, within_iff (cutoffAbsMax_facts hP).1]
  exact ⟨fun h => h.2, fun h => ⟨h.1, h⟩⟩

/-- A voice in range, in exact arithmetic. -/
theorem voiceInRange_iff {P : Params} {top : F32} (hP : paramsOk P = true) (htop : isFinite top = true) (v : Voice) :
    voiceInRange P top v = true ↔
      (isFinite v.amp = true ∧ 0 ≤ toRat v.amp ∧ toRat v.amp ≤ toRat top) ∧
      (isFinite v.target = true ∧ 0 ≤ toRat v.target ∧ toRat v.target ≤ toRat P.headroom) ∧
      inUnit v.level = true ∧ Within (2 * toRat P.cutoffAbsMax) v.fcut := by
  obtain ⟨-, -, hdf, hd, -⟩ := cutoffAbsMax_facts hP
  rw [← hd, ← within_iff hdf, ← toRat_f0, ← between_iff isFinite_f0 htop, ← between_iff isFinite_f0 (headroom_facts hP).1]
  simp only [voiceInRange, Bool.and_eq_true, and_assoc]

/-! ## Operands (R292, R302, R304) -/

/-- `k / 127.0` for an operand in 0..127. -/
theorem unit127_inUnit {k : ℕ} (h : k ≤ 127) : inUnit (unit127 k) = true := by
  obtain ⟨hkf, hk⟩ := ofInt_exact (k : ℤ) (by omega)
  have h127 : isFinite f127 = true ∧ toRat f127 = 127 := ⟨by decide, by
    rw [toRat_of_units (v := 127 * 2 ^ 149) (by decide)]; norm_num⟩
  have hk' : (0 : ℚ) ≤ (k : ℚ) ∧ (k : ℚ) ≤ 127 := ⟨by positivity, by exact_mod_cast h⟩
  have hr := roundOf_fdiv hkf h127.1 (by rw [h127.2]; norm_num)
  rw [hk, h127.2, Int.cast_natCast] at hr
  obtain ⟨h1, h2, -⟩ := hr.between isFinite_f0 isFinite_f1 (by rw [toRat_f0]; exact div_nonneg hk'.1 (by norm_num))
    (by rw [toRat_f1, div_le_one (by norm_num)]; exact hk'.2)
  rw [inUnit, unit127, h1, h2]; rfl

/-- NOTE_ON's TARGET lies in [0.0, HEADROOM]. -/
theorem targetOf_between {P : Params} (hP : paramsOk P = true) {vel : ℕ} (h : vel ≤ 127) :
    isFinite (targetOf P vel) = true ∧ 0 ≤ toRat (targetOf P vel) ∧ toRat (targetOf P vel) ≤ toRat P.headroom := by
  obtain ⟨hf, h0, -⟩ := headroom_facts hP
  have := fmul_unit_between (unit127_inUnit h) hf
  rwa [min_eq_left h0.le, max_eq_right h0.le] at this

/-! ## Steps that are no tick -/

/-- A write keeps a channel in range. -/
theorem ChanWrite.channelInRange {P : Params} {work : List WriteOp} {c c' : Channel} (h : ChanWrite P work c c')
    (hw : ∀ op ∈ work, opLegal P op = true) (hc : channelInRange P c = true) : channelInRange P c' = true := by
  simp only [Machine.channelInRange, Bool.and_eq_true] at hc ⊢
  obtain ⟨⟨⟨hat, hbright⟩, hcutoff⟩, henv⟩ := hc
  have henv' := h.envelopeLegal hw henv
  cases h with
  | bend | atk | dec | sus | rel => exact ⟨⟨⟨hat, hbright⟩, hcutoff⟩, henv'⟩
  | pressure value h => exact ⟨⟨⟨unit127_inUnit h, hbright⟩, hcutoff⟩, henv'⟩
  | bright value h => exact ⟨⟨⟨hat, unit127_inUnit h⟩, hcutoff⟩, henv'⟩
  | cutoff hz h => exact ⟨⟨⟨hat, hbright⟩, h⟩, henv'⟩

/-- A write keeps a voice in range: NOTE_ON's values are, and NOTE_OFF's TARGET is 0.0. -/
theorem VoiceWrite.voiceInRange {P : Params} {top : F32} (hP : paramsOk P = true) (htop : isFinite top = true) {c : Channel}
    {v v' : Voice} (h : VoiceWrite P c v v') (hc : channelInRange P c = true) (hv : voiceInRange P top v = true) :
    voiceInRange P top v' = true := by
  rw [voiceInRange_iff hP htop] at hv ⊢
  obtain ⟨hamp, htarget, hlevel, hfcut⟩ := hv
  obtain ⟨-, hM, -⟩ := cutoffAbsMax_facts hP
  cases h with
  | noteOn note vel hn hvel =>
    simp only [Machine.channelInRange, Bool.and_eq_true] at hc
    exact ⟨hamp, targetOf_between hP hvel, f0_inUnit, ((cutoffOk_iff hP _).1 hc.1.2).mono (by linarith)⟩
  | noteOff =>
    have htarget0 : toRat f0 ≤ toRat P.headroom := by rw [toRat_f0]; exact (headroom_facts hP).2.1.le
    exact ⟨hamp, ⟨isFinite_f0, toRat_f0.ge, htarget0⟩, hlevel, hfcut⟩

theorem Effect.registersInRange {top : F32} {s t : State} (e : Effect s t) (htop : isFinite top = true)
    (h : RegistersInRange top s) : RegistersInRange top t := by
  obtain ⟨hP, hsr, hvoices, hchannels, hwork⟩ := h
  have hboth := e.forall_lanes (p := fun l => voiceInRange s.cfg top l.voice = true ∧ channelInRange s.cfg l.chan = true)
    (fun l hl => ⟨hvoices l hl, hchannels l hl⟩) fun l l' hl h => by
      cases h with
      | keep => exact hl
      | chan h => exact ⟨hl.1, h.channelInRange hwork hl.2⟩
      | voice h => exact ⟨h.voiceInRange hP htop hl.2 hl.1, hl.2⟩
  rw [← e.cfg] at hboth
  exact ⟨by rwa [e.cfg], e.rate hsr hwork, fun l hl => (hboth l hl).1, fun l hl => (hboth l hl).2,
    by rw [e.cfg]; exact e.work hwork⟩

/-! ## Ticks -/

section
variable {L : Lib} {P : Params} {sr top : F32}

/-- The two coefficients of the follower (R247). -/
theorem followAmp_eq (v : Voice) : ∃ tau, (tau = P.ampTauRiseMs ∨ tau = P.ampTauFallMs) ∧
    followAmp L P sr v = fadd v.amp (fmul (tcoef L P tau sr) (fsub v.target v.amp)) := by
  refine ⟨if flt v.amp v.target then P.ampTauRiseMs else P.ampTauFallMs, ?_, rfl⟩
  split
  · exact .inl rfl
  · exact .inr rfl

theorem followerCoef_inUnit (hL : ExpInUnit L) (hP : paramsOk P = true) (hsr : rateOk P sr = true) {tau : F32}
    (h : tau = P.ampTauRiseMs ∨ tau = P.ampTauFallMs) : inUnit (tcoef L P tau sr) = true := by
  refine tcoef_inUnit hL (paramsInRange hP).envMinMs (rate_positive hP hsr) ?_
  rcases h with rfl | rfl
  · exact (positiveFinite_iff.1 (paramsInRange hP).ampTauRiseMs).1
  · exact (positiveFinite_iff.1 (paramsInRange hP).ampTauFallMs).1

/-- The follower keeps AMP from 0.0 to `top`, where rising steps stay within it. -/
theorem followAmp_between (hL : ExpInUnit L) (hP : paramsOk P = true) (hsr : rateOk P sr = true)
    (hrise : ∀ tau, tau = P.ampTauRiseMs ∨ tau = P.ampTauFallMs → RisesWithin top P.headroom (tcoef L P tau sr)) {v : Voice}
    (hamp : isFinite v.amp = true ∧ 0 ≤ toRat v.amp ∧ toRat v.amp ≤ toRat top)
    (htarget : isFinite v.target = true ∧ 0 ≤ toRat v.target ∧ toRat v.target ≤ toRat P.headroom) :
    isFinite (followAmp L P sr v) = true ∧ 0 ≤ toRat (followAmp L P sr v) ∧ toRat (followAmp L P sr v) ≤ toRat top := by
  obtain ⟨haf, ha0, hat⟩ := hamp
  obtain ⟨htf, ht0, hth⟩ := htarget
  obtain ⟨tau, htau, e⟩ := followAmp_eq (L := L) (P := P) (sr := sr) v
  rw [e]
  rcases le_total (toRat v.amp) (toRat v.target) with hle | hle
  · obtain ⟨hf, h1, h2⟩ := hrise tau htau v.amp v.target haf htf ha0 hle hth
    exact ⟨hf, ha0.trans h1, h2⟩
  · obtain ⟨hf, h1, h2⟩ := follow_fall haf htf (followerCoef_inUnit hL hP hsr htau) ht0 hle
    exact ⟨hf, h1, h2.trans hat⟩

/-- The cutoff tracker stays within twice CUTOFF_ABS_MAX (R255). -/
theorem trackCutoff_within (hP : paramsOk P = true) {x hz : F32} (hx : Within (2 * toRat P.cutoffAbsMax) x)
    (hhz : cutoffOk P hz = true) : Within (2 * toRat P.cutoffAbsMax) (fadd x (fmul P.cutoffK (fsub hz x))) := by
  have hk := (paramsInRange hP).cutoffK
  obtain ⟨-, hM, hdf, hd, hle⟩ := cutoffAbsMax_facts hP
  rw [← hd] at hx ⊢
  exact follow_within hdf (hle.trans (by norm_num)) hx ((cutoffOk_iff hP hz).1 hhz) (by rw [hd]; linarith) hk

/-- A tick keeps a voice in range. -/
theorem voiceStep_inRange {g : Snapshot} {c : Channel} {v : Voice} (hL : ExpInUnit L) (hP : paramsOk P = true)
    (hsr : rateOk P g.sr = true) (htop : isFinite top = true) (htop0 : 0 ≤ toRat top)
    (hrise : ∀ tau, tau = P.ampTauRiseMs ∨ tau = P.ampTauFallMs → RisesWithin top P.headroom (tcoef L P tau g.sr))
    (hc : channelInRange P c = true) (hv : voiceInRange P top v = true) :
    voiceInRange P top (voiceStep L P g c v).1 = true := by
  have hstep := voiceStep_stepped L P g c v
  simp only [channelInRange, Bool.and_eq_true] at hc
  obtain ⟨⟨-, hcutoff⟩, henv⟩ := hc
  rw [voiceInRange_iff hP htop] at hv ⊢
  obtain ⟨hamp, htarget, hlevel, hfcut⟩ := hv
  refine ⟨?_, hstep.target ▸ htarget, voiceStep_level_inUnit hL hP hsr henv hlevel, ?_⟩
  · rcases hstep.amp with h | h <;> rw [h]
    · exact ⟨isFinite_f0, toRat_f0.ge, by rwa [toRat_f0]⟩
    · exact followAmp_between hL hP hsr hrise hamp htarget
  · rcases hstep.fcut with h | h <;> rw [h]
    · exact hfcut
    · exact trackCutoff_within hP hfcut hcutoff

/-- A tick keeps the registers in range, AMP up to any bound that the follower's rising steps keep. -/
theorem tickWith_registersInRange {s : State} {d : Bool} (hL : ExpInUnit L) (htop : isFinite top = true) (htop0 : 0 ≤ toRat top)
    (hrise : ∀ tau, tau = s.cfg.ampTauRiseMs ∨ tau = s.cfg.ampTauFallMs →
      RisesWithin top s.cfg.headroom (tcoef L s.cfg tau s.sr)) (h : RegistersInRange top s) :
    RegistersInRange top (tickWith L d s) := by
  obtain ⟨hP, hsr, hvoices, hchannels, hwork⟩ := h
  have hboth := tickWith_forall_lanes (L := L) (d := d)
    (p := fun l => voiceInRange s.cfg top l.voice = true ∧ channelInRange s.cfg l.chan = true)
    (fun l hl => ⟨hvoices l hl, hchannels l hl⟩) fun l hl _ ⟨hv, hc⟩ =>
      ⟨voiceStep_inRange hL hP (g := snapshotOf s) hsr htop htop0 hrise hc hv, hc⟩
  exact ⟨hP, hsr, fun l hl => (hboth l hl).1, fun l hl => (hboth l hl).2, hwork⟩

end

/-! ## Where BASEFREQ and BEND come from -/

theorem ChanWrite.bend_eq {P : Params} {work : List WriteOp} {c c' : Channel} (h : ChanWrite P work c c') :
    c'.bend = c.bend ∨ ∃ value : ℕ, value ≤ 16383 ∧ c'.bend = bendRatio lib value := by
  cases h with
  | bend value h => exact .inr ⟨value, h, rfl⟩
  | pressure | bright | cutoff | atk | dec | sus | rel => exact .inl rfl

theorem VoiceWrite.baseFreq_eq {P : Params} {c : Channel} {v v' : Voice} (h : VoiceWrite P c v v') :
    v'.baseFreq = v.baseFreq ∨ ∃ n : ℕ, n ≤ 127 ∧ v'.baseFreq = midiToHz lib n := by
  cases h with
  | noteOn note vel hn hv => exact .inr ⟨(keyOf note).toNat, by have := (keyOf note).isLt; omega, rfl⟩
  | noteOff => exact .inl rfl

/-- A write to a lane writes BASEFREQ only by R9 (R292), and BEND only by R300. -/
theorem LaneWrite.baseFreq_bend {P : Params} {work : List WriteOp} {l l' : Lane} (h : LaneWrite P work l l') :
    (l'.voice.baseFreq = l.voice.baseFreq ∨ ∃ n : ℕ, n ≤ 127 ∧ l'.voice.baseFreq = midiToHz lib n) ∧
    (l'.chan.bend = l.chan.bend ∨ ∃ value : ℕ, value ≤ 16383 ∧ l'.chan.bend = bendRatio lib value) := by
  cases h with
  | keep => exact ⟨.inl rfl, .inl rfl⟩
  | chan h => exact ⟨.inl rfl, h.bend_eq⟩
  | voice h => exact ⟨h.baseFreq_eq, .inl rfl⟩

/-- A step writes BASEFREQ only by R9 and BEND only by R300. -/
theorem step_baseFreq_bend {s t : State} (h : step s = .next t) {c : ℕ} (hc : c < s.numLanes) :
    ((t.voice c).baseFreq = (s.voice c).baseFreq ∨ ∃ n : ℕ, n ≤ 127 ∧ (t.voice c).baseFreq = midiToHz lib n) ∧
    ((t.chan c).bend = (s.chan c).bend ∨ ∃ value : ℕ, value ≤ 16383 ∧ (t.chan c).bend = bendRatio lib value) := by
  rcases step_effect h with e | ⟨d, ts, -, rfl⟩
  · exact (e.lanes c hc).baseFreq_bend
  · have hlane : ({ s with turns := ts } : State).lane c = s.lane c := rfl
    rcases tickWith_lane lib d (s := { s with turns := ts }) hc with e | ⟨-, e⟩ <;>
      rw [State.voice, State.chan, e, hlane]
    · exact ⟨.inl rfl, .inl rfl⟩
    · exact ⟨.inl (voiceStep_stepped ..).baseFreq, .inl rfl⟩

/-- A step keeps the registers in range, AMP up to the value after HEADROOM. -/
theorem step_registersInRange {s t : State} (h : RegistersInRange (nextUp s.cfg.headroom) s) (hstep : step s = .next t) :
    RegistersInRange (nextUp s.cfg.headroom) t := by
  obtain ⟨hf, h0, h1⟩ := headroom_facts h.params
  obtain ⟨hnf, hn, -⟩ := nextUp_facts hf h0 h1
  rcases step_effect hstep with e | ⟨d, ts, -, rfl⟩
  · exact e.registersInRange hnf h
  · have hn0 : 0 ≤ toRat (nextUp s.cfg.headroom) := le_trans (by positivity) hn
    exact tickWith_registersInRange lib_expInUnit hnf hn0
      (fun tau htau => risesWithin_nextUp hf h0 h1 (followerCoef_inUnit lib_expInUnit h.params h.rate htau))
      ⟨h.params, h.rate, h.voices, h.channels, h.work⟩

/-- Settles O14: writes keep the ranges by their commands' checks, and a tick keeps AMP within any bound that the follower's
rising step keeps: the value after HEADROOM always, HEADROOM itself at coefficients below 1.0. -/
theorem everyStepKeepsTheRegistersInRange : Obligations.EveryStepKeepsTheRegistersInRange := by
  unfold Obligations.EveryStepKeepsTheRegistersInRange
  refine ⟨fun s t h hstep => step_registersInRange h hstep, fun s t h hnot hstep => ?_, fun L s d hL h hrise hfall => ?_,
    fun s t h c hc => step_baseFreq_bend h hc⟩
  · rcases step_effect hstep with e | ⟨d, ts, hturn, -⟩
    · exact e.registersInRange (headroom_facts h.params).1 h
    · exact absurd hturn (hnot d ts)
  · obtain ⟨hf, h0, -⟩ := headroom_facts h.params
    refine tickWith_registersInRange hL hf h0.le (fun tau htau => ?_) h
    have hk := followerCoef_inUnit hL h.params h.rate htau
    rcases htau with rfl | rfl
    · exact risesWithin_of_lt_one hf hk hrise
    · exact risesWithin_of_lt_one hf hk hfall

end Sys2Proof.Machine
end

section
/-! SUPPORT. The phase (R243), the tables a voice reads (R187, R245) and the filter (R254, R255): what a tick keeps in range. -/

namespace Sys2Proof.Machine

/-! ## The phase -/

/-- Wrapping a finite phase that is not negative takes off its whole part exactly (R243). -/
theorem wrapPhase_exact {p : F32} (hp : isFinite p = true) (h0 : 0 ≤ toRat p) :
    isFinite (wrapPhase p) = true ∧ toRat (wrapPhase p) = Int.fract (toRat p) := by
  rw [wrapPhase, ffloor_eq hp]
  exact (fsub_floor_exact hp h0).2

theorem phaseInRange_iff (v : Voice) :
    phaseInRange v = true ↔ isFinite v.phase = true ∧ 0 ≤ toRat v.phase ∧ toRat v.phase < 1 := by
  rw [phaseInRange, Bool.and_eq_true]
  constructor
  · rintro ⟨h0, h1⟩
    have hle : fle v.phase f1 = true := by
      simp only [flt, fle, Bool.and_eq_true, decide_eq_true_eq] at h1 ⊢
      exact ⟨h1.1, h1.2.le⟩
    obtain ⟨hf, hv, -⟩ := (between_iff isFinite_f0 isFinite_f1).1 ⟨h0, hle⟩
    rw [flt_iff hf isFinite_f1, toRat_f1] at h1
    exact ⟨hf, toRat_f0 ▸ hv, h1⟩
  · rintro ⟨hf, h0, h1⟩
    rw [fle_iff isFinite_f0 hf, flt_iff hf isFinite_f1, toRat_f0, toRat_f1]
    exact ⟨h0, h1⟩

/-- A finite value is at most the greatest one. -/
theorem abs_toRat_le_max {x : F32} (h : isFinite x = true) : |toRat x| ≤ 2 ^ 128 - 2 ^ 104 := by
  have hm : gridUnits (magBits x) ≤ gridUnits 2139095039 :=
    gridUnits_strictMono.monotone (Nat.le_of_lt_succ ((isFinite_iff x).1 h))
  rw [gridUnits_max] at hm
  rw [abs_toRat, div_le_iff₀ (by norm_num)]
  calc (gridUnits (magBits x) : ℚ) ≤ ((16777215 * 2 ^ 253 : ℕ) : ℚ) := Nat.cast_le.2 hm
    _ = (2 ^ 128 - 2 ^ 104) * (unitsPerOne : ℚ) := by norm_num

/-- A phase in [0.0, 1.0) and an increment that is finite and not negative give a phase in [0.0, 1.0): the sum cannot
overflow. -/
theorem advancePhase_between {sr : F32} {l : Lane} (hv : phaseInRange l.voice = true) (hd : incrementOk sr l = true) :
    isFinite (advancePhase sr l.chan l.voice) = true ∧ 0 ≤ toRat (advancePhase sr l.chan l.voice) ∧
      toRat (advancePhase sr l.chan l.voice) < 1 := by
  obtain ⟨hpf, hp0, hp1⟩ := (phaseInRange_iff _).1 hv
  simp only [incrementOk, Bool.and_eq_true] at hd
  obtain ⟨hd0, hdf⟩ := hd
  rw [fle_iff isFinite_f0 hdf, toRat_f0] at hd0
  have hmax := (le_abs_self _).trans (abs_toRat_le_max hdf)
  have hsum := roundOf_fadd hpf hdf
  have hsf := hsum.isFinite_of_lt (by
    rw [abs_of_nonneg (by linarith)]
    have : (2 : ℚ) ^ 128 - 2 ^ 104 + 1 < overflowBound := by norm_num [overflowBound]
    linarith)
  have hs0 := hsum.nonneg (by linarith)
  rw [fle_iff isFinite_f0 hsf, toRat_f0] at hs0
  obtain ⟨hwf, hw⟩ := wrapPhase_exact hsf hs0
  exact ⟨hwf, hw ▸ Int.fract_nonneg _, hw ▸ Int.fract_lt_one _⟩

/-! ## Tables -/

theorem tableInRange_iff (t : Table) : tableInRange t ↔ ∀ i, i < 2048 → Within 2 (tableAt t i) :=
  forall₂_congr fun i _ => by rw [within_iff isFinite_f2, toRat_f2]

/-- Every stored table is in range: its values lie within GEN_TOL of ideal ones of magnitude at most 1 (R186, R187). -/
theorem bank_inRange {P : Params} (hP : paramsOk P = true) (sr : F32) (k : Kind) (n : Key) :
    tableInRange (lib.bank P sr k n) := by
  have hlowf : isFinite 0x33800000#32 = true ∧ toRat 0x33800000#32 = 1 / 2 ^ 24 := ⟨by decide, by
    rw [toRat_of_units (v := 2 ^ 125) (by decide)]; norm_num⟩
  have hhighf : isFinite 0x38D1B717#32 = true ∧ toRat 0x38D1B717#32 ≤ 1 := ⟨by decide, by
    rw [← toRat_f1, toRat_le_iff]; decide⟩
  obtain ⟨-, htol0, htol1⟩ := (between_iff hlowf.1 hhighf.1).1
    ⟨(paramsInRange hP).genTol_ge, (paramsInRange hP).genTol_le⟩
  obtain ⟨genRound, hgen, hbank⟩ := storedBank_isStoredBank (hlowf.2 ▸ htol0)
  rw [tableInRange_iff]
  intro i hi
  obtain ⟨hf, herr⟩ := hgen sr k n i hi
  have hval : tableAt (lib.bank P sr k n) i = genRound (idealValue P sr k n i) := hbank sr k n i hi
  have hideal := abs_le.1 (idealValue_abs_le P sr k n hi)
  have htol : (toRat P.genTol : ℝ) ≤ 1 := by exact_mod_cast htol1.trans hhighf.2
  rw [← hval] at hf herr
  rw [abs_le] at herr
  refine ⟨hf, ?_⟩
  have : |(toRat (tableAt (lib.bank P sr k n) i) : ℝ)| ≤ 2 := abs_le.2 ⟨by linarith, by linarith⟩
  exact_mod_cast this

theorem bandIndex_le (L : Lib) (freq rootFreq : F32) : bandIndex L freq rootFreq ≤ 10 := by
  unfold bandIndex; dsimp only; omega

/-- Whatever table a voice reads is in range, where the published ones are (R245). -/
theorem sourceTable_inRange {P : Params} {g : Snapshot} (hP : paramsOk P = true) (hcustom : tableInRange g.cust.table)
    (hbands : ∀ r ∈ g.regs, ∀ b, b ≤ 10 → tableInRange (bandTable r b)) (note : Key) (freq : F32) :
    tableInRange (sourceTable lib P g note freq) := by
  unfold sourceTable
  split
  · exact hcustom
  · split
    · next r hr => exact hbands r (List.mem_of_find?_eq_some hr) _ (bandIndex_le _ _ _)
    · exact bank_inRange hP _ _ _

/-- A lookup at a phase in [0.0, 1.0) in a table in range. -/
theorem lerp_within {t : Table} (ht : tableInRange t) {p : F32} (hp : isFinite p = true) (h0 : 0 ≤ toRat p) (h1 : toRat p < 1) :
    Within 4 (lerp (tableAt t) p) := by
  obtain ⟨i, hi, hfloor, -, hrf, hr⟩ := lookup_exact hp h0 h1
  have hk : inUnit (fsub (fmul p f2048) (ofInt i)) = true :=
    inUnit_iff.2 ⟨hrf, hr ▸ Int.fract_nonneg _, hr ▸ (Int.fract_lt_one _).le⟩
  have hmin : (min (ffloor (fmul p f2048)) 2047).toNat = i := by rw [hfloor]; omega
  have h4 : toRat 0x40800000#32 = 4 := by rw [toRat_of_units (v := 2 ^ 151) (by decide)]; norm_num
  rw [tableInRange_iff] at ht
  have := follow_within (c := 0x40800000#32) (by decide) (by rw [h4]; norm_num) ((ht i (by omega)).mono (by rw [h4]; norm_num))
    (ht ((i + 1) % 2048) (by omega)) (by rw [h4]; norm_num) hk
  rw [lerp, hmin]
  rwa [h4] at this

/-! ## The filter -/

/-- The filter's input (R254): the sample, AMP, LEVEL and the pressure gain are all bounded. -/
theorem gained_within {c : Channel} {v : Voice} {x : F32} (hx : Within 4 x) (hamp : Within 2 v.amp)
    (hlevel : inUnit v.level = true) (hat : inUnit c.at_ = true) : Within 8 (gained c v x) := by
  have h8 : isFinite 0x41000000#32 = true ∧ toRat 0x41000000#32 = 8 := ⟨by decide, by
    rw [toRat_of_units (v := 2 ^ 152) (by decide)]; norm_num⟩
  have hhalf : isFinite fHalf = true ∧ toRat fHalf = 1 / 2 := ⟨by decide, by
    rw [toRat_of_units (v := 2 ^ 148) (by decide)]; norm_num⟩
  have hhw : Within (1 / 2) fHalf := ⟨hhalf.1, by rw [hhalf.2]; norm_num⟩
  have h1 := fmul_within hx hamp h8.1 (by rw [h8.2]; norm_num)
  have h2 := fmul_within h1 (within_of_inUnit hlevel) h8.1 (by rw [h8.2]; norm_num)
  have h3 := fmul_within hhw (within_of_inUnit hat) hhalf.1 (by rw [hhalf.2]; norm_num)
  have h4 := fadd_within hhw h3 isFinite_f1 (by rw [hhalf.2, toRat_f1]; norm_num)
  have h5 := fmul_within h2 h4 h8.1 (by rw [h8.2, toRat_f1]; norm_num)
  rwa [h8.2] at h5

theorem toRat_f32 : toRat 0x42000000#32 = 32 := by rw [toRat_of_units (v := 2 ^ 154) (by decide)]; norm_num

/-- The filter keeps its integrator within 32 for inputs within 8 (R255). -/
theorem stepFilter_fstate_within {P : Params} {sr : F32} {c : Channel} {x : F32} {v : Voice} (hP : paramsOk P = true)
    (hsr : rateOk P sr = true) (hx : Within 8 x) (hcutoff : cutoffOk P c.cutoff = true)
    (hfcut : Within (2 * toRat P.cutoffAbsMax) v.fcut) (hv : Within 32 v.fstate) :
    Within 32 (stepFilter lib P sr c x v).fstate := by
  obtain ⟨hff, hf0⟩ := positiveFinite_iff.1 (paramsInRange hP).cutoffFloorHz
  obtain ⟨hmf, hm⟩ := fmax_finite (trackCutoff_within hP hfcut hcutoff).1 hff
  have hk := onePoleCoef_inUnit lib_expInUnit (rate_positive hP hsr) hmf (hm ▸ hf0.le.trans (le_max_right _ _))
  rw [← toRat_f32] at hv ⊢
  exact follow_within (by decide) (by rw [toRat_f32]; norm_num) hv hx (by rw [toRat_f32]; norm_num) hk

/-! ## A tick -/

/-- What a tick needs to know of the snapshot's tables. -/
def TablesInRange (g : Snapshot) : Prop :=
  tableInRange g.cust.table ∧ ∀ r ∈ g.regs, ∀ b, b ≤ 10 → tableInRange (bandTable r b)

/-- A tick keeps phases in [0.0, 1.0) and filter states within 32. -/
theorem voiceStep_soundInRange {P : Params} {g : Snapshot} {l : Lane} (hP : paramsOk P = true) (hsr : rateOk P g.sr = true)
    (htables : TablesInRange g) (hd : incrementOk g.sr l = true) (hc : channelInRange P l.chan = true)
    (hv : voiceInRange P (nextUp P.headroom) l.voice = true) (hphase : phaseInRange l.voice = true)
    (hfstate : Within 32 l.voice.fstate) :
    phaseInRange (voiceStep lib P g l.chan l.voice).1 = true ∧ Within 32 (voiceStep lib P g l.chan l.voice).1.fstate := by
  obtain ⟨hhf, hh0, hh1⟩ := headroom_facts hP
  obtain ⟨hnf, -, hn2⟩ := nextUp_facts hhf hh0 hh1
  have hp := advancePhase_between hphase hd
  simp only [channelInRange, Bool.and_eq_true] at hc
  obtain ⟨⟨⟨hat, -⟩, hcutoff⟩, henv⟩ := hc
  rw [voiceInRange_iff hP hnf] at hv
  obtain ⟨hamp, htarget, hlevel, hfcut⟩ := hv
  have hstep := voiceStep_stepped lib P g l.chan l.voice
  refine ⟨(phaseInRange_iff _).2 (by rwa [hstep.phase]), ?_⟩
  rcases hstep.fstate with h | h <;> rw [h]
  · exact hfstate
  · obtain ⟨haf, ha0, ha2⟩ := followAmp_between lib_expInUnit hP hsr
      (fun tau htau => risesWithin_nextUp hhf hh0 hh1 (followerCoef_inUnit lib_expInUnit hP hsr htau)) hamp htarget
    refine stepFilter_fstate_within hP hsr (gained_within (lerp_within ?_ hp.1 hp.2.1 hp.2.2) ?_ ?_ hat) hcutoff hfcut hfstate
    · exact sourceTable_inRange hP htables.1 htables.2 _ _
    · exact ⟨haf, by rw [abs_of_nonneg ha0]; exact ha2.trans hn2⟩
    · exact stepEnvelope_level_inUnit lib_expInUnit (paramsInRange hP).envMinMs (rate_positive hP hsr) henv hlevel

end Sys2Proof.Machine
end

section
/-! SUPPORT. The loader's table (R226 to R230): finite exactly where the resampled values are, of magnitude at most 1.0 then,
and the bands made of it in range (R201). -/

namespace Sys2Proof.Machine

/-! ## NaNs and infinities -/

theorem isNaN_nanOf (a b : F32) : isNaN (nanOf a b) = true := by
  rw [isNaN_iff, magBits, nanOf, BitVec.toNat_or, show (2147483648 : ℕ) = 2 ^ 31 from rfl, Nat.or_mod_two_pow]
  exact lt_of_lt_of_le (by decide) Nat.right_le_or

theorem isFinite_of_not_nan_inf {x : F32} (hn : isNaN x = false) (hi : isInf x = false) : isFinite x = true := by
  rw [Bool.eq_false_iff, Ne, isNaN_iff] at hn
  rw [Bool.eq_false_iff, Ne, isInf_iff] at hi
  rw [isFinite_iff]; omega

theorem isNaN_fabs (x : F32) : isNaN (fabs x) = isNaN x := by
  rw [Bool.eq_iff_iff, isNaN_iff, isNaN_iff, magBits_fabs]

theorem not_nan_of_fle {a b : F32} (h : fle a b = true) : isNaN a = false ∧ isNaN b = false := by
  simp only [fle, Bool.and_eq_true, Bool.not_eq_true'] at h
  exact h.1

theorem fle_refl {x : F32} (h : isNaN x = false) : fle x x = true := by simp [fle, h]

/-- A NaN divided is a NaN. -/
theorem isNaN_fdiv_of_nan {a : F32} (h : isNaN a = true) (b : F32) : isNaN (fdiv a b) = true := by
  rw [fdiv, h, Bool.true_or, if_pos rfl]
  exact isNaN_nanOf a b

/-- An infinity divided by what is no smaller is a NaN. -/
theorem isNaN_fdiv_of_inf {a b : F32} (ha : isInf a = true) (h : fle (fabs a) b = true) : isNaN (fdiv a b) = true := by
  have hb : isNaN b = false := (not_nan_of_fle h).2
  have hinf : isInf b = true := by
    simp only [fle, Bool.and_eq_true, decide_eq_true_eq, orderKey_eq, isNeg_fabs, magBits_fabs, Bool.false_eq_true,
      if_false] at h
    obtain ⟨-, h⟩ := h
    rw [isInf_iff] at ha ⊢
    rw [Bool.eq_false_iff, Ne, isNaN_iff] at hb
    split at h <;> omega
  have hna : isNaN a = false := by rw [← isNaN_fabs]; exact (not_nan_of_fle h).1
  rw [fdiv, hna, hb, ha, hinf]
  exact isNaN_nanOf a b

/-! ## The peak (R229) -/

/-- The greatest magnitude so far is no NaN and at least each magnitude, and it is finite where they are. -/
theorem foldl_fmax_facts : ∀ (xs : List F32) (p : F32), isNaN p = false → (∀ x ∈ xs, isNaN x = false) →
    fle p (xs.foldl (fun p x => fmax p (fabs x)) p) = true ∧
    (∀ x ∈ xs, fle (fabs x) (xs.foldl (fun p x => fmax p (fabs x)) p) = true) ∧
    (isFinite p = true → (∀ x ∈ xs, isFinite x = true) → isFinite (xs.foldl (fun p x => fmax p (fabs x)) p) = true)
  | [], p, hp, _ => ⟨fle_refl hp, by simp, fun h _ => h⟩
  | x :: xs, p, hp, hxs => by
    obtain ⟨hx, hxs'⟩ := List.forall_mem_cons.1 hxs
    obtain ⟨-, h1, h2⟩ := fmax_cases hp ((isNaN_fabs x).trans hx)
    obtain ⟨ih1, ih2, ih3⟩ := foldl_fmax_facts xs (fmax p (fabs x)) (not_nan_of_fle h1).2 hxs'
    refine ⟨fle_trans h1 ih1, List.forall_mem_cons.2 ⟨fle_trans h2 ih1, ih2⟩, fun hpf hf => ?_⟩
    obtain ⟨hxf, hf'⟩ := List.forall_mem_cons.1 hf
    exact ih3 (fmax_finite hpf ((isFinite_fabs x).trans hxf)).1 hf'

/-! ## Normalisation (R229) -/

/-- The divisor of R229. -/
def normDivisor (P : Params) (r : Table) : F32 := fmax (peakOf r.toArray.toList) P.peakFloor

theorem tableAt_eq (t : Table) {i : Nat} (h : i < 2048) : tableAt t i = t[i] := by
  simp [tableAt, h]

theorem tableAt_normalise (P : Params) (r : Table) {i : Nat} (h : i < 2048) :
    tableAt (normalise P r) i = fdiv (tableAt r i) (normDivisor P r) := by
  rw [tableAt_eq _ h, tableAt_eq _ h, normalise, Vector.getElem_map]
  rfl

theorem forall_mem_table_iff {t : Table} {p : F32 → Prop} :
    (∀ x ∈ t.toArray.toList, p x) ↔ ∀ i, i < 2048 → p (tableAt t i) := by
  constructor
  · intro h i hi
    rw [tableAt_eq t hi]
    exact h _ (by simp)
  · intro h x hx
    obtain ⟨i, hi, rfl⟩ := List.getElem_of_mem hx
    have hi' : i < 2048 := by simpa using hi
    have := h i hi'
    rwa [tableAt_eq t hi'] at this

/-- A table with no NaN: its divisor is at least each magnitude. -/
theorem fle_normDivisor {P : Params} {r : Table} (hfloor : positiveFinite P.peakFloor = true)
    (hr : ∀ i, i < 2048 → isNaN (tableAt r i) = false) {i : Nat} (hi : i < 2048) :
    fle (fabs (tableAt r i)) (normDivisor P r) = true := by
  obtain ⟨h1, h2, -⟩ := foldl_fmax_facts r.toArray.toList f0 (by decide) (forall_mem_table_iff.2 hr)
  obtain ⟨-, h3, -⟩ := fmax_cases (not_nan_of_fle h1).2 (isNaN_of_finite (positiveFinite_iff.1 hfloor).1)
  exact fle_trans (forall_mem_table_iff.1 h2 i hi) h3

/-- The divisor of a finite table is positive and finite. -/
theorem normDivisor_positive {P : Params} {r : Table} (hfloor : positiveFinite P.peakFloor = true)
    (hr : ∀ i, i < 2048 → isFinite (tableAt r i) = true) :
    isFinite (normDivisor P r) = true ∧ 0 < toRat (normDivisor P r) := by
  obtain ⟨hff, hf0⟩ := positiveFinite_iff.1 hfloor
  have hall := (forall_mem_table_iff (p := fun x => isFinite x = true)).2 hr
  obtain ⟨-, -, hpf⟩ := foldl_fmax_facts r.toArray.toList f0 (by decide) fun x hx => isNaN_of_finite (hall x hx)
  obtain ⟨hdf, hd⟩ := fmax_finite (hpf isFinite_f0 hall) hff
  exact ⟨hdf, hf0.trans_le ((le_max_right _ _).trans hd.ge)⟩

/-- A finite table normalises to values of magnitude at most 1.0. -/
theorem normalise_within {P : Params} {r : Table} (hfloor : positiveFinite P.peakFloor = true)
    (hr : ∀ i, i < 2048 → isFinite (tableAt r i) = true) {i : Nat} (hi : i < 2048) : Within 1 (tableAt (normalise P r) i) := by
  obtain ⟨hdf, hd0⟩ := normDivisor_positive hfloor hr
  obtain ⟨hxf, hx⟩ := (within_iff hdf).1 (fle_normDivisor hfloor (fun i hi => isNaN_of_finite (hr i hi)) hi)
  have := (roundOf_fdiv hxf hdf hd0.ne').within isFinite_f1 (by
    rw [toRat_f1, abs_div, abs_of_pos hd0, div_le_one hd0]; exact hx)
  rwa [tableAt_normalise P r hi, ← toRat_f1]

/-- A normalised table is finite exactly where the table is (R229, log entry 8). -/
theorem normalise_finite_iff {P : Params} {r : Table} (hfloor : positiveFinite P.peakFloor = true) :
    (∀ i, i < 2048 → isFinite (tableAt (normalise P r) i) = true) ↔ ∀ i, i < 2048 → isFinite (tableAt r i) = true := by
  constructor
  · intro h
    have hdiv : ∀ i, i < 2048 → isNaN (fdiv (tableAt r i) (normDivisor P r)) = false := fun i hi =>
      tableAt_normalise P r hi ▸ isNaN_of_finite (h i hi)
    have hnan : ∀ i, i < 2048 → isNaN (tableAt r i) = false := fun i hi => by
      by_contra hc
      exact absurd (isNaN_fdiv_of_nan (Bool.not_eq_false _ ▸ hc) _) (by rw [hdiv i hi]; decide)
    intro i hi
    refine isFinite_of_not_nan_inf (hnan i hi) ?_
    by_contra hc
    exact absurd (isNaN_fdiv_of_inf (Bool.not_eq_false _ ▸ hc) (fle_normDivisor hfloor hnan hi)) (by rw [hdiv i hi]; decide)
  · exact fun h i hi => (normalise_within hfloor h hi).1

/-! ## FALLBACK (R230) -/

/-- A sample of FALLBACK's first quadrant has a magnitude of at most 1.0: the series passes 1 by less than a rounding. -/
theorem quarterSine_within {j : ℕ} (hj : j ≤ 512) : Within 1 (quarterSine j) := by
  have hseries : sineFixed j ≤ 2 ^ 120 + 2 ^ 60 := by
    have herr := (abs_le.1 (sineFixed_error hj)).2
    have hsin := Real.sin_le_one (2 * Real.pi * j / 2048)
    have : (sineFixed j : ℝ) / 2 ^ 120 ≤ 1 + 1 / 2 ^ 60 := by linarith
    rw [div_le_iff₀ (by positivity)] at this
    have h : (sineFixed j : ℝ) ≤ ((2 ^ 120 + 2 ^ 60 : ℕ) : ℝ) := this.trans_eq (by norm_num)
    exact_mod_cast h
  have hmag : roundMag (sineFixed j * unitsPerOne) (2 ^ 120) ≤ 0x3F800000 := by
    refine roundMag_le_of_lt_mid (by norm_num) (by norm_num) ?_
    rw [show gridUnits 0x3F800000 = 2 ^ 149 by decide, show gridUnits (0x3F800000 + 1) = 2 ^ 149 + 2 ^ 126 by decide]
    calc 2 * (sineFixed j * unitsPerOne) ≤ 2 * ((2 ^ 120 + 2 ^ 60) * unitsPerOne) := by gcongr
      _ < (2 ^ 149 + (2 ^ 149 + 2 ^ 126)) * 2 ^ 120 := by decide
  have hbits : magBits (quarterSine j) ≤ 0x3F800000 := by
    rw [quarterSine, ofRatio, magBits_packSign _ (by omega)]; exact hmag
  refine ⟨isFinite_of_le hbits (by norm_num), ?_⟩
  rw [abs_toRat, div_le_one (by norm_num)]
  have := gridUnits_strictMono.monotone hbits
  rw [show gridUnits 0x3F800000 = unitsPerOne by decide] at this
  exact_mod_cast this

theorem within_fneg {b : ℚ} {x : F32} (h : Within b x) : Within b (fneg x) :=
  ⟨(isFinite_fneg x).trans h.1, by rw [toRat_fneg, abs_neg]; exact h.2⟩

theorem fallback_within {j : ℕ} (hj : j < 2048) : Within 1 (tableAt fallback j) := by
  rw [fallback, tableAt_tabulate _ hj]
  unfold fallbackAt
  split
  · exact quarterSine_within ‹_›
  · split
    · exact quarterSine_within (by omega)
    · split
      · exact within_fneg (quarterSine_within (by omega))
      · exact within_fneg (quarterSine_within (by omega))

/-! ## A loaded table -/

/-- What the loader answers (R220, R221, R231). -/
theorem load_cases (P : Params) (view : Nat → Byte) (addr len : Nat) :
    ((P.payloadBytes < addr + len ∨ parseWave (fun p => view (addr + p)) len = none) ∧
      (load P view addr len).1 = fallback) ∨
    (addr + len ≤ P.payloadBytes ∧ ∃ fr, parseWave (fun p => view (addr + p)) len = some fr ∧
      (load P view addr len).1 = tableOfFrames P (fun p => view (addr + p)) fr) := by
  unfold load
  split
  · exact .inl ⟨.inl ‹_›, rfl⟩
  · next h =>
    split
    · next fr hfr => exact .inr ⟨by omega, fr, hfr, rfl⟩
    · next hnone => exact .inl ⟨.inr hnone, rfl⟩

/-- A loaded table whose resampling is finite has magnitudes of at most 1.0. -/
theorem load_within {P : Params} {view : Nat → Byte} {addr len : Nat} (hfloor : positiveFinite P.peakFloor = true)
    (h : resampledFinite view addr len) {j : ℕ} (hj : j < 2048) : Within 1 (tableAt (load P view addr len).1 j) := by
  rcases load_cases P view addr len with ⟨-, e⟩ | ⟨-, fr, hfr, e⟩ <;> rw [e]
  · exact fallback_within hj
  · exact normalise_within hfloor (fun i hi => by rw [tableAt_tabulate _ hi]; exact h fr hfr i hi) hj

/-- A loaded table is finite exactly where the resampling is (log entry 8). -/
theorem load_finite_iff {P : Params} {view : Nat → Byte} {addr len : Nat} (hfloor : positiveFinite P.peakFloor = true)
    (hrange : addr + len ≤ P.payloadBytes) :
    (∀ j, j < 2048 → isFinite (tableAt (load P view addr len).1 j) = true) ↔ resampledFinite view addr len := by
  refine ⟨fun h fr hfr j hj => ?_, fun h j hj => (load_within hfloor h hj).1⟩
  rcases load_cases P view addr len with ⟨hbad | hnone, -⟩ | ⟨-, fr', hfr', e⟩
  · omega
  · rw [hnone] at hfr; cases hfr
  · obtain rfl : fr' = fr := Option.some.inj (hfr'.symm.trans hfr)
    rw [e] at h
    have := (normalise_finite_iff hfloor).1 h j hj
    rwa [tableAt_tabulate _ hj] at this

/-! ## Bands (R201) -/

/-- One pass of the lowpass over inputs within 3/4 of a bound stays within the bound. -/
theorem onePole_within {alpha c : F32} {b : ℚ} (halpha : inUnit alpha = true) (hc : isFinite c = true) (hcb : toRat c ≤ 2 ^ 126)
    (hb : 4 * b ≤ 3 * toRat c) : ∀ (xs : List F32) (st : F32), (∀ x ∈ xs, Within b x) → Within (toRat c) st →
      ∀ y ∈ onePole alpha st xs, Within (toRat c) y
  | [], _, _, _ => by simp [onePole]
  | x :: xs, st, hxs, hst => by
    obtain ⟨hx, hxs'⟩ := List.forall_mem_cons.1 hxs
    have hst' := follow_within hc hcb hst hx hb halpha
    exact List.forall_mem_cons.2 ⟨hst', onePole_within halpha hc hcb hb xs _ hxs' hst'⟩

/-- Two passes over inputs of magnitude at most 1.0 stay within 2.0. -/
theorem twoPass_within {alpha : F32} (halpha : inUnit alpha = true) {xs : List F32} (hxs : ∀ x ∈ xs, Within 1 x) :
    ∀ y ∈ twoPass alpha xs, Within 2 y := by
  have hmid : isFinite 0x3FC00000#32 = true ∧ toRat 0x3FC00000#32 = 3 / 2 := ⟨by decide, by
    rw [toRat_of_units (v := 3 * 2 ^ 148) (by decide)]; norm_num⟩
  have hzero : ∀ {b : ℚ}, 0 ≤ b → Within b f0 := fun hb => ⟨isFinite_f0, by rw [toRat_f0, abs_zero]; exact hb⟩
  have h1 := onePole_within halpha hmid.1 (by rw [hmid.2]; norm_num) (by rw [hmid.2]; norm_num) xs f0 hxs
    (hzero (by rw [hmid.2]; norm_num))
  have h2 := onePole_within (b := 3 / 2) halpha isFinite_f2 (by rw [toRat_f2]; norm_num) (by rw [toRat_f2]; norm_num)
    (onePole alpha f0 xs).reverse f0 (fun x hx => hmid.2 ▸ h1 x (List.mem_reverse.1 hx)) (hzero (by rw [toRat_f2]; norm_num))
  rw [toRat_f2] at h2
  exact fun y hy => h2 y (List.mem_reverse.1 hy)

theorem magUnits_ne_zero {x : F32} (h : 0 < toRat x) : magUnits x ≠ 0 := fun h0 => by
  have := toRat_abs x
  rw [h0, Nat.cast_zero, zero_div, abs_eq_zero] at this
  exact h.ne' this

/-- A band's cutoff is finite and not negative, where its ratio is no NaN (R201). -/
theorem bandCutoff_nonneg {P : Params} {sr : F32} {root b : Nat} (hP : paramsOk P = true) (hsr : rateOk P sr = true)
    (hT : isNaN (bandRatio lib root b) = false) :
    isFinite (bandCutoff lib P root b sr) = true ∧ 0 ≤ toRat (bandCutoff lib P root b sr) := by
  obtain ⟨hef, he0⟩ := positiveFinite_iff.1 (paramsInRange hP).bandEps
  obtain ⟨hsf, hs0⟩ := rate_facts hP hsr
  have hlow : isFinite 0x37000000#32 = true ∧ toRat 0x37000000#32 = 1 / 2 ^ 17 := ⟨by decide, by
    rw [toRat_of_units (v := 2 ^ 132) (by decide)]; norm_num⟩
  obtain ⟨hnf, hn, -⟩ := (roundOf_fdiv hsf isFinite_f2 (by rw [toRat_f2]; norm_num)).toRat_between hlow.1 hsf
    (by rw [hlow.2, toRat_f2]; linarith) (by rw [toRat_f2]; linarith)
  have hn0 : 0 < toRat (nyquist sr) := lt_of_lt_of_le (by rw [hlow.2]; norm_num) hn
  obtain ⟨-, hm, -⟩ := fmax_cases (isNaN_of_finite hef) hT
  have hms : isNeg (fmax P.bandEps (bandRatio lib root b)) = false := by
    have hkey := (toRat_lt_iff f0 P.bandEps).1 (by rwa [toRat_f0])
    simp only [fle, Bool.and_eq_true, decide_eq_true_eq] at hm
    have := hkey.trans_le hm.2
    rw [orderKey_eq, orderKey_eq, show isNeg f0 = false by decide, show magBits f0 = 0 by decide] at this
    by_contra hc
    rw [Bool.not_eq_false] at hc
    simp only [hc, if_true, Bool.false_eq_true, if_false] at this
    omega
  have hq := fdiv_nonneg hnf (magUnits_ne_zero hn0) (isNeg_of_toRat_pos hn0) (not_nan_of_fle hm).2 hms
  obtain ⟨hmin, hle, -⟩ := fmin_cases (isNaN_of_finite hnf) (not_nan_of_fle hq).2
  have hpos : fle f0 (bandCutoff lib P root b sr) = true := by
    rcases hmin with h | h
    · rw [bandCutoff, nyquist, h, fle_iff isFinite_f0 hnf, toRat_f0]; exact hn0.le
    · rw [bandCutoff, nyquist, h]; exact hq
  obtain ⟨hf, h0, -⟩ := (between_iff isFinite_f0 hnf).1 ⟨hpos, hle⟩
  exact ⟨hf, toRat_f0 ▸ h0⟩

/-- The bands of a table of magnitude at most 1.0 are in range (R201). -/
theorem buildBands_inRange {P : Params} {sr : F32} {x : Table} {root b : Nat} (hP : paramsOk P = true)
    (hsr : rateOk P sr = true) (hx : ∀ i, i < 2048 → Within 1 (tableAt x i))
    (hT : ∀ b, b ≤ 10 → isNaN (bandRatio lib root b) = false) (hb : b ≤ 10) :
    tableInRange ((buildBands lib P x root sr).toArray.toList.getD b zeroTable) := by
  have hband : ∀ b, b ≤ 10 → tableInRange (buildBand lib P x root sr b) := fun b hb => by
    obtain ⟨hcf, hc0⟩ := bandCutoff_nonneg hP hsr (hT b hb)
    rw [tableInRange_iff]
    exact forall_mem_table_iff.1 (twoPass_within (onePoleCoef_inUnit lib_expInUnit (rate_positive hP hsr) hcf hc0)
      (forall_mem_table_iff.2 hx))
  have e : (buildBands lib P x root sr).toArray.toList.getD b zeroTable = buildBand lib P x root sr b := by
    interval_cases b <;> rfl
  exact e ▸ hband b hb

end Sys2Proof.Machine
end

section
/-! SUPPORT. Buffers whose resampling is finite (R225 to R228): what a parse finds, and the bounds of the downmix and of the
resampling of tame samples. -/

namespace Sys2Proof.Machine

/-! ## What a parse finds -/

theorem leBytes_lt (view : Nat → Byte) : ∀ (n addr : Nat), leBytes view addr n < 256 ^ n
  | 0, _ => by simp [leBytes]
  | n + 1, addr => by
    have ih := leBytes_lt view n (addr + 1)
    have hb := (view addr).isLt
    rw [leBytes, Nat.pow_succ]
    omega

/-- The walk's "data" chunk has a 32-bit size, like the one it started with. -/
theorem chunkWalk_data_size (B : Nat → Byte) (len : Nat) : ∀ (fuel pos : Nat) (fmt data : Option Chunk),
    (∀ c, data = some c → c.size < 4294967296) → ∀ c, (chunkWalk B len fuel pos fmt data).2 = some c → c.size < 4294967296
  | 0, _, _, _, h => h
  | fuel + 1, pos, fmt, data, h => by
    unfold chunkWalk
    split
    · dsimp only
      split
      · exact h
      · refine chunkWalk_data_size B len fuel _ _ _ fun c hc => ?_
        split at hc
        · cases hc; exact leBytes_lt B 4 _
        · exact h c hc
    · exact h

theorem parseFmt_channels {B : Nat → Byte} {len : Nat} {c : Chunk} {codec : Codec} {channels : Nat}
    (h : parseFmt B len c = some (codec, channels)) : 1 ≤ channels ∧ channels < 65536 := by
  unfold parseFmt at h
  split at h
  · cases h
  · split at h
    · next tag ch bits _ hch _ =>
      split at h
      · split at h
        · cases h
        · cases h
          unfold readU16 at hch
          split at hch
          · cases hch
            have := leBytes_lt B 2 (c.body + 2)
            omega
          · cases hch
      · cases h
    · cases h

/-- A parse finds 1 to 65535 channels and 1 to 2^32 - 1 frames (R224, R225). -/
theorem parseWave_bounds {B : Nat → Byte} {len : Nat} {fr : Frames} (h : parseWave B len = some fr) :
    (1 ≤ fr.channels ∧ fr.channels < 65536) ∧ 1 ≤ fr.count ∧ fr.count < 4294967296 := by
  unfold parseWave at h
  split at h
  · split at h
    · next fmt data hwalk =>
      have hsize := chunkWalk_data_size B len len 12 none none (fun c h => by cases h) data (by rw [hwalk])
      split at h
      · next codec channels hfmt =>
        dsimp only at h
        split at h
        · cases h
        · split at h
          · next hcount _ =>
            cases h
            exact ⟨parseFmt_channels hfmt, Nat.pos_of_ne_zero hcount, (Nat.div_le_self _ _).trans_lt hsize⟩
          · cases h
      · cases h
    · cases h
  · cases h

/-! ## Samples and the downmix (R226, R227) -/

theorem toRat_top : toRat 0x71800000#32 = 2 ^ 100 := by rw [toRat_of_units (v := 2 ^ 249) (by decide)]; norm_num

/-- A PCM16 sample has a magnitude of at most 1.0. -/
theorem pcm16_within (B : Nat → Byte) (p : Nat) : Within 1 (sampleAt B .pcm16 p) := by
  have hb := leBytes_lt B 2 p
  have hk : |((signed16 (leBytes B p 2) : ℤ) : ℚ)| ≤ 32768 := by
    have : |signed16 (leBytes B p 2)| ≤ 32768 := by
      rw [abs_le, signed16]; split <;> omega
    exact_mod_cast this
  obtain ⟨hkf, hkv⟩ := ofInt_exact (signed16 (leBytes B p 2)) (by rw [signed16]; split <;> omega)
  have hd : isFinite f32768 = true ∧ toRat f32768 = 32768 := ⟨by decide, by
    rw [toRat_of_units (v := 32768 * 2 ^ 149) (by decide)]; norm_num⟩
  have := (roundOf_fdiv hkf hd.1 (by rw [hd.2]; norm_num)).within isFinite_f1 (by
    rw [toRat_f1, hkv, hd.2, abs_div, abs_of_pos (by norm_num : (0 : ℚ) < 32768), div_le_one (by norm_num)]; exact hk)
  rwa [toRat_f1] at this

/-- Every sample of a frame of a tame buffer has a magnitude of at most 2^100. -/
theorem frameSample_within {view : Nat → Byte} {addr len : Nat} {fr : Frames} (ht : samplesTame view addr len)
    (hfr : parseWave (fun p => view (addr + p)) len = some fr) {f c : Nat} (hf : f < fr.count) (hc : c < fr.channels) :
    Within (2 ^ 100) (frameSample (fun p => view (addr + p)) fr f c) := by
  unfold frameSample
  cases hcodec : fr.codec with
  | pcm16 => exact (pcm16_within _ _).mono (by norm_num)
  | float32 =>
    have hk : f * fr.channels + c < fr.count * fr.channels := by
      calc f * fr.channels + c < (f + 1) * fr.channels := by rw [Nat.add_mul]; omega
        _ ≤ fr.count * fr.channels := Nat.mul_le_mul_right _ hf
    have := ht fr hfr hcodec _ hk
    rw [within_iff (by decide), toRat_top] at this
    have e : fr.body + f * (fr.channels * Codec.float32.bytes) + c * Codec.float32.bytes =
        fr.body + 4 * (f * fr.channels + c) := by
      rw [Codec.bytes]; ring
    rwa [e]

/-- n times 2^100 is a binary32 value for n up to 2^24, so a sum of n values of magnitude at most 2^100 passes it by no
rounding. -/
theorem sumChannels_within {x : Nat → F32} : ∀ (n c m : Nat) (acc : F32), m + n ≤ 16777216 → Within (m * 2 ^ 100) acc →
    (∀ i, c ≤ i → i < c + n → Within (2 ^ 100) (x i)) → Within ((m + n : ℕ) * 2 ^ 100) (sumChannels x n c acc)
  | 0, _, _, _, _, hacc, _ => hacc
  | n + 1, c, m, acc, hm, hacc, hx => by
    have hle : ((m + 1 : ℕ) : ℚ) ≤ 16777216 := by exact_mod_cast (show m + 1 ≤ 16777216 by omega)
    obtain ⟨y, hy, hv⟩ := exists_toRat_eq (k := ((m + 1 : ℕ) : ℤ)) (e := 249) (q := (m + 1 : ℕ) * 2 ^ 100) (by omega)
      (by push_cast; ring) (by rw [abs_of_nonneg (by positivity)]; linarith)
    have hsum := fadd_within hacc (hx c le_rfl (by omega)) hy (by rw [hv]; push_cast; linarith)
    rw [hv] at hsum
    have := sumChannels_within n (c + 1) (m + 1) _ (by omega) hsum fun i h1 h2 => hx i (by omega) (by omega)
    rwa [show m + 1 + n = m + (n + 1) by omega] at this

/-- The downmix of a frame of a tame buffer has a magnitude of at most 2^100. -/
theorem monoAt_within {view : Nat → Byte} {addr len : Nat} {fr : Frames} (ht : samplesTame view addr len)
    (hfr : parseWave (fun p => view (addr + p)) len = some fr) {f : Nat} (hf : f < fr.count) :
    Within (2 ^ 100) (monoAt (fun p => view (addr + p)) fr f) := by
  obtain ⟨⟨hc1, hc2⟩, -⟩ := parseWave_bounds hfr
  have hx := fun c hc => frameSample_within ht hfr (f := f) (c := c) hf hc
  have hsum := sumChannels_within (x := frameSample (fun p => view (addr + p)) fr f) (fr.channels - 1) 1 1 _ (by omega)
    (by simpa using hx 0 (by omega)) fun i _ h => hx i (by omega)
  rw [show 1 + (fr.channels - 1) = fr.channels by omega] at hsum
  obtain ⟨hnf, hn⟩ := ofInt_exact (fr.channels : ℤ) (by omega)
  have hpos : (0 : ℚ) < (fr.channels : ℚ) := by exact_mod_cast hc1
  rw [Int.cast_natCast] at hn
  have := (roundOf_fdiv hsum.1 hnf (by rw [hn]; exact hpos.ne')).within (c := 0x71800000#32) (by decide) (by
    rw [hn, abs_div, abs_of_pos hpos, div_le_iff₀ hpos, toRat_top, mul_comm]; exact hsum.2)
  rwa [toRat_top] at this

/-! ## The resampling position (R228) -/

/-- A finite value within 2^100 of an exact one that is no subnormal or a whole number of units: its relative error. -/
theorem RoundOf.rel_error {q : ℚ} {r : F32} (h : RoundOf q r) (hq0 : 0 ≤ q) (hq : q ≤ 2 ^ 100)
    (hunits : (∃ n : ℤ, q * (unitsPerOne : ℚ) = n) ∨ 8388608 ≤ q * (unitsPerOne : ℚ)) :
    isFinite r = true ∧ 0 ≤ toRat r ∧ |toRat r - q| ≤ q / 16777216 := by
  have hf := h.isFinite_of_lt (by rw [abs_of_nonneg hq0]; exact hq.trans_lt (by norm_num [overflowBound]))
  have herr := h.abs_error_le hf (by rwa [abs_of_nonneg hq0])
  rw [abs_of_nonneg hq0] at herr
  have h0 := h.nonneg hq0
  rw [fle_iff isFinite_f0 hf, toRat_f0] at h0
  exact ⟨hf, h0, herr⟩

/-- The position of an output sample lies in [0, L): three roundings cannot carry 2047/2048 of L to L. -/
theorem position_between {L j : ℕ} (hL1 : 1 ≤ L) (hL2 : L < 4294967296) (hj : j < 2048) :
    isFinite (fmul (ofInt j) (fdiv (ofInt L) f2048)) = true ∧ 0 ≤ toRat (fmul (ofInt j) (fdiv (ofInt L) f2048)) ∧
      toRat (fmul (ofInt j) (fdiv (ofInt L) f2048)) < L := by
  have hLq : (1 : ℚ) ≤ (L : ℚ) ∧ (L : ℚ) ≤ 4294967296 := ⟨by exact_mod_cast hL1, by exact_mod_cast hL2.le⟩
  have hjq : (0 : ℚ) ≤ (j : ℚ) ∧ (j : ℚ) ≤ 2047 := ⟨by positivity, by exact_mod_cast (show j ≤ 2047 by omega)⟩
  obtain ⟨hlf, hl0, hl⟩ := (roundOf_ofInt (L : ℤ)).rel_error (by positivity) (by push_cast; linarith)
    (.inl ⟨L * 2 ^ 149, by push_cast; ring⟩)
  rw [Int.cast_natCast, abs_le] at hl
  have hs := roundOf_fdiv hlf isFinite_f2048 (by rw [toRat_f2048]; norm_num)
  rw [toRat_f2048] at hs
  obtain ⟨hsf, hs0, hs⟩ := hs.rel_error (by positivity) (by linarith) (.inr (by norm_num; linarith))
  rw [abs_le] at hs
  obtain ⟨hjf, hjv⟩ := ofInt_exact (j : ℤ) (by omega)
  have hp := roundOf_fmul hjf hsf
  rw [hjv, Int.cast_natCast] at hp
  have hscale : toRat (fdiv (ofInt L) f2048) ≤ 4294967296 := by linarith
  obtain ⟨hpf, hp0, hp⟩ := hp.rel_error (by positivity)
    ((mul_le_mul hjq.2 hscale hs0 (by norm_num)).trans (by norm_num))
    (.inl ⟨j * valUnits (fdiv (ofInt L) f2048), by rw [mul_assoc, toRat_mul_units]; push_cast; rfl⟩)
  rw [abs_le] at hp
  have hprod : (j : ℚ) * toRat (fdiv (ofInt L) f2048) ≤ 2047 * toRat (fdiv (ofInt L) f2048) :=
    mul_le_mul_of_nonneg_right hjq.2 hs0
  exact ⟨hpf, hp0, by linarith [hp.2, hs.2, hl.2]⟩

/-- Tame values resample to finite ones. -/
theorem resampleAt_finite {m : Nat → F32} {L j : ℕ} (hm : ∀ i, i < L → Within (2 ^ 100) (m i)) (hL1 : 1 ≤ L)
    (hL2 : L < 4294967296) (hj : j < 2048) : isFinite (resampleAt m L j) = true := by
  obtain ⟨hpf, hp0, hpL⟩ := position_between hL1 hL2 hj
  unfold resampleAt
  dsimp only
  generalize fmul (ofInt j) (fdiv (ofInt L) f2048) = pos at *
  obtain ⟨i, hi⟩ := Int.eq_ofNat_of_zero_le (Int.floor_nonneg.2 hp0)
  have hiL : (i : ℤ) < L := hi ▸ Int.floor_lt.2 (by exact_mod_cast hpL)
  have hidx : (min (ffloor pos) ((L : ℤ) - 1)).toNat = i := by rw [ffloor_eq hpf, hi]; omega
  obtain ⟨-, hrf, hr⟩ := fsub_floor_exact hpf hp0
  rw [hi] at hrf hr
  have h101 : toRat 0x72000000#32 = 2 ^ 101 := by rw [toRat_of_units (v := 2 ^ 250) (by decide)]; norm_num
  rw [hidx]
  exact (follow_within (c := 0x72000000#32) (by decide) (by rw [h101]; norm_num)
    ((hm i (by omega)).mono (by rw [h101]; norm_num)) (hm _ (Nat.mod_lt _ hL1)) (by rw [h101]; norm_num)
    (inUnit_iff.2 ⟨hrf, hr ▸ Int.fract_nonneg _, hr ▸ (Int.fract_lt_one _).le⟩)).1

/-- A tame buffer's resampling is finite (log entry 8). -/
theorem resampledFinite_of_tame {view : Nat → Byte} {addr len : Nat} (h : samplesTame view addr len) :
    resampledFinite view addr len := fun _ hfr _ hj =>
  have ⟨_, hL1, hL2⟩ := parseWave_bounds hfr
  resampleAt_finite (fun _ hi => monoAt_within h hfr hi) hL1 hL2 hj

end Sys2Proof.Machine
end

section
/-! Phases, tables and filter states in range (R53 items 2 and 10): what is asked of fexp2, the step, and reset. -/

namespace Sys2Proof.Machine

/-! ## What a bounded fexp2 gives (R9, R243, R300) -/

/-- fexp2 lies within 2^-40 and 2^40 for arguments of magnitude up to 16.0. -/
def Exp2Bounded (L : Lib) : Prop := ∀ x, fle (fabs x) 0x41800000#32 = true →
  fle 0x2B800000#32 (L.fexp2 x) = true ∧ fle (L.fexp2 x) 0x53800000#32 = true

theorem isFinite_f12 : isFinite f12 = true := by decide

theorem toRat_f12 : toRat f12 = 12 := by rw [toRat_of_units (v := 12 * 2 ^ 149) (by decide)]; norm_num

theorem toRat_f16 : toRat 0x41800000#32 = 16 := by rw [toRat_of_units (v := 2 ^ 153) (by decide)]; norm_num

section
variable {L : Lib} (hL : Exp2Bounded L)
include hL

/-- fexp2 of an argument of magnitude at most 16. -/
theorem fexp2_between {x : F32} (hx : Within 16 x) :
    isFinite (L.fexp2 x) = true ∧ 1 / 2 ^ 40 ≤ toRat (L.fexp2 x) ∧ toRat (L.fexp2 x) ≤ 2 ^ 40 := by
  have hlow : isFinite 0x2B800000#32 = true ∧ toRat 0x2B800000#32 = 1 / 2 ^ 40 := ⟨by decide, by
    rw [toRat_of_units (v := 2 ^ 109) (by decide)]; norm_num⟩
  have hhigh : isFinite 0x53800000#32 = true ∧ toRat 0x53800000#32 = 2 ^ 40 := ⟨by decide, by
    rw [toRat_of_units (v := 2 ^ 189) (by decide)]; norm_num⟩
  have := (between_iff hlow.1 hhigh.1).1 (hL x ((within_iff (by decide)).2 (by rwa [toRat_f16])))
  rwa [hlow.2, hhigh.2] at this

/-- The frequency of every note number that a band asks for (R9, R201). -/
theorem midiToHz_between {n : ℤ} (h1 : -60 ≤ n) (h2 : n ≤ 187) :
    isFinite (midiToHz L n) = true ∧ 1 / 2 ^ 40 ≤ toRat (midiToHz L n) ∧ toRat (midiToHz L n) ≤ 2 ^ 49 := by
  obtain ⟨hnf, hn⟩ := ofInt_exact (n - 69) (by omega)
  have habs : |((n - 69 : ℤ) : ℚ)| ≤ 192 := by
    have : |n - 69| ≤ 192 := abs_le.2 ⟨by omega, by omega⟩
    exact_mod_cast this
  have harg := (roundOf_fdiv hnf isFinite_f12 (by rw [toRat_f12]; norm_num)).within (c := 0x41800000#32) (by decide) (by
    rw [hn, toRat_f12, toRat_f16, abs_div, abs_of_pos (by norm_num : (0 : ℚ) < 12), div_le_iff₀ (by norm_num)]
    exact habs.trans (by norm_num))
  rw [toRat_f16] at harg
  obtain ⟨hef, he1, he2⟩ := fexp2_between hL harg
  have h440 : isFinite f440 = true ∧ toRat f440 = 440 := ⟨by decide, by
    rw [toRat_of_units (v := 440 * 2 ^ 149) (by decide)]; norm_num⟩
  have hhigh : isFinite 0x58000000#32 = true ∧ toRat 0x58000000#32 = 2 ^ 49 := ⟨by decide, by
    rw [toRat_of_units (v := 2 ^ 198) (by decide)]; norm_num⟩
  obtain ⟨hf, ha, hb⟩ := (roundOf_fmul h440.1 hef).toRat_between hef hhigh.1 (by rw [h440.2]; linarith [he1])
    (by rw [h440.2, hhigh.2]; linarith)
  exact ⟨hf, he1.trans ha, hhigh.2 ▸ hb⟩

/-- The bend ratio (R300). -/
theorem bendRatio_between {value : ℕ} (h : value ≤ 16383) :
    isFinite (bendRatio L value) = true ∧ 1 / 2 ^ 40 ≤ toRat (bendRatio L value) ∧ toRat (bendRatio L value) ≤ 2 ^ 40 := by
  obtain ⟨hvf, hv⟩ := ofInt_exact ((value : ℤ) - 8192) (by omega)
  have habs : |(((value : ℤ) - 8192 : ℤ) : ℚ)| ≤ 8192 := by
    have : |(value : ℤ) - 8192| ≤ 8192 := abs_le.2 ⟨by omega, by omega⟩
    exact_mod_cast this
  have h8192 : isFinite f8192 = true ∧ toRat f8192 = 8192 := ⟨by decide, by
    rw [toRat_of_units (v := 8192 * 2 ^ 149) (by decide)]; norm_num⟩
  have h1 := (roundOf_fdiv hvf h8192.1 (by rw [h8192.2]; norm_num)).within isFinite_f1 (by
    rw [hv, h8192.2, toRat_f1, abs_div, abs_of_pos (by norm_num : (0 : ℚ) < 8192), div_le_one (by norm_num)]; exact habs)
  have h2 := fmul_within h1 (show Within 2 f2 from ⟨isFinite_f2, by rw [toRat_f2]; norm_num⟩) isFinite_f2
    (by rw [toRat_f1, toRat_f2]; norm_num)
  rw [toRat_f2] at h2
  have h3 := (roundOf_fdiv h2.1 isFinite_f12 (by rw [toRat_f12]; norm_num)).within (c := 0x41800000#32) (by decide) (by
    rw [toRat_f12, toRat_f16, abs_div, abs_of_pos (by norm_num : (0 : ℚ) < 12), div_le_iff₀ (by norm_num)]
    exact h2.2.trans (by norm_num))
  rw [toRat_f16] at h3
  exact fexp2_between hL h3

/-- BASEFREQ, BEND and their increment are positive and finite (R243). -/
theorem incrementOk_of_bounded {P : Params} {sr : F32} (hP : paramsOk P = true) (hsr : rateOk P sr = true) {n value : ℕ}
    {l : Lane} (hn : n ≤ 127) (hvalue : value ≤ 16383) (hbase : l.voice.baseFreq = midiToHz L n)
    (hbend : l.chan.bend = bendRatio L value) :
    positiveFinite l.voice.baseFreq = true ∧ positiveFinite l.chan.bend = true ∧ incrementOk sr l = true := by
  obtain ⟨hff, hf1, hf2⟩ := midiToHz_between hL (n := (n : ℤ)) (by omega) (by omega)
  obtain ⟨hbf, hb1, hb2⟩ := bendRatio_between hL hvalue
  obtain ⟨hsf, hs⟩ := rate_facts hP hsr
  have hf0 : 0 < toRat (midiToHz L n) := lt_of_lt_of_le (by norm_num) hf1
  have hb0 : 0 < toRat (bendRatio L value) := lt_of_lt_of_le (by norm_num) hb1
  have hs0 : 0 < toRat sr := lt_of_lt_of_le (by norm_num) hs
  rw [incrementOk, hbase, hbend]
  refine ⟨positiveFinite_iff.2 ⟨hff, hf0⟩, positiveFinite_iff.2 ⟨hbf, hb0⟩, ?_⟩
  have hfreq := roundOf_fmul hff hbf
  have htop : isFinite 0x6C000000#32 = true ∧ toRat 0x6C000000#32 = 2 ^ 89 := ⟨by decide, by
    rw [toRat_of_units (v := 2 ^ 238) (by decide)]; norm_num⟩
  have hprod : toRat (midiToHz L n) * toRat (bendRatio L value) ≤ 2 ^ 49 * 2 ^ 40 := by gcongr
  obtain ⟨hpf, h1, h2⟩ := hfreq.toRat_between isFinite_f0 htop.1 (by rw [toRat_f0]; positivity)
    (by rw [htop.2]; exact hprod.trans (by norm_num))
  rw [toRat_f0] at h1
  rw [htop.2] at h2
  have hquot := roundOf_fdiv hpf hsf hs0.ne'
  have hq : toRat (fmul (midiToHz L n) (bendRatio L value)) / toRat sr ≤ 2 ^ 105 := by
    rw [div_le_iff₀ hs0]; linarith
  have hqf := hquot.isFinite_of_lt (by
    rw [abs_of_nonneg (by positivity)]; exact hq.trans_lt (by norm_num [overflowBound]))
  simp only [hquot.nonneg (by positivity), hqf, Bool.and_self]

/-- No band ratio is a NaN (R201). -/
theorem bandRatio_not_nan {root b : ℕ} (hroot : root ≤ 127) (hb : b ≤ 10) : isNaN (bandRatio L root b) = false := by
  obtain ⟨hf, -, -⟩ := midiToHz_between hL (n := (root : ℤ) + 12 * ((b : ℤ) - 5)) (by omega) (by omega)
  obtain ⟨hrf, hr, -⟩ := midiToHz_between hL (n := (root : ℤ)) (by omega) (by omega)
  exact (roundOf_fdiv hf hrf (lt_of_lt_of_le (by norm_num) hr).ne').not_nan

end

/-! ## The step -/

/-- A write keeps a phase in range and a filter state within 32 (R292). -/
theorem LaneWrite.phase_fstate {P : Params} {work : List WriteOp} {l l' : Lane} (h : LaneWrite P work l l')
    (hl : phaseInRange l.voice = true ∧ Within 32 l.voice.fstate) :
    phaseInRange l'.voice = true ∧ Within 32 l'.voice.fstate := by
  cases h with
  | keep | chan => exact hl
  | voice h =>
    cases h with
    | noteOn =>
      exact ⟨(phaseInRange_iff _).2 ⟨isFinite_f0, toRat_f0.ge, by rw [startVoice, toRat_f0]; norm_num⟩,
        isFinite_f0, by rw [startVoice, toRat_f0]; norm_num⟩
    | noteOff => exact hl

theorem within_tableInRange {t : Table} (h : ∀ i, i < 2048 → Within 1 (tableAt t i)) : tableInRange t :=
  (tableInRange_iff t).2 fun i hi => (h i hi).mono (by norm_num)

/-- What a step publishes as custom wavetable is in range. -/
theorem Effect.custom_inRange {s t : State} (e : Effect s t) (hP : paramsOk s.cfg = true) (h : tableInRange s.custom.table)
    (hload : nextLoadFinite s) : tableInRange t.custom.table := by
  have hpeak := (paramsInRange hP).peakFloor
  rcases e.custom with hc | ⟨addr, len, taken, rest, hw, hc⟩ <;> rw [hc]
  · exact h
  · rw [nextLoadFinite, hw] at hload
    exact within_tableInRange fun i hi => load_within hpeak hload hi

/-- The bands of what a step registers are in range. -/
theorem Effect.bands_inRange {s t : State} (e : Effect s t) (hP : paramsOk s.cfg = true) (hsr : rateOk s.cfg s.sr = true)
    (h : ∀ r ∈ s.regions, ∀ b, b ≤ 10 → tableInRange (bandTable r b)) (hload : nextLoadFinite s) :
    ∀ r ∈ t.regions, ∀ b, b ≤ 10 → tableInRange (bandTable r b) := by
  have hpeak := (paramsInRange hP).peakFloor
  intro r hr b hb
  rcases e.regions r hr with hr | ⟨root, lo, hi, addr, len, naddr, nlen, ta, tn, rest, hw, hband⟩
  · exact h r hr b hb
  · rw [nextLoadFinite, hw] at hload
    rw [bandTable, hband]
    exact buildBands_inRange hP hsr (fun i hi => load_within hpeak hload.1 hi) hload.2 hb

/-- Every step keeps the sound in range, where the increments and the file being loaded allow it. -/
theorem step_soundInRange {s t : State} (h : SoundInRange s)
    (hinc : ∀ l ∈ s.lanes, l.voice.active = true → incrementOk s.sr l = true) (hload : nextLoadFinite s)
    (hstep : step s = .next t) : SoundInRange t := by
  obtain ⟨hregs, hphases, hfilters, hcustom, hbands⟩ := h
  have hP := hregs.params
  have hregs' := step_registersInRange hregs hstep
  have hlanes : ∀ l ∈ s.lanes, phaseInRange l.voice = true ∧ Within 32 l.voice.fstate := fun l hl =>
    ⟨hphases l hl, toRat_f32 ▸ (within_iff (by decide)).1 (hfilters l hl)⟩
  have assemble : ∀ u : State, u.cfg = s.cfg → RegistersInRange (nextUp s.cfg.headroom) u →
      (∀ l ∈ u.lanes, phaseInRange l.voice = true ∧ Within 32 l.voice.fstate) → tableInRange u.custom.table →
      (∀ r ∈ u.regions, ∀ b, b ≤ 10 → tableInRange (bandTable r b)) → SoundInRange u := fun u hcfg hr hl hc hb =>
    ⟨hcfg ▸ hr, fun l h => (hl l h).1, fun l h => (within_iff (by decide)).2 (toRat_f32 ▸ (hl l h).2), hc, hb⟩
  rcases step_effect hstep with e | ⟨d, ts, -, rfl⟩
  · exact assemble t e.cfg hregs' (e.forall_lanes hlanes fun _ _ hl h => h.phase_fstate hl)
      (e.custom_inRange hP hcustom hload) (e.bands_inRange hP hregs.rate hbands hload)
  · refine assemble _ rfl hregs' (tickWith_forall_lanes hlanes fun l hl ha hpf => ?_) hcustom hbands
    exact voiceStep_soundInRange hP (g := snapshotOf s) hregs.rate ⟨hcustom, hbands⟩ (hinc l hl ha)
      (hregs.channels l hl) (hregs.voices l hl) hpf.1 hpf.2

/-- In a state whose sound is in range no field but BASEFREQ and BEND is a NaN or an infinity (R53 item 10). -/
theorem SoundInRange.fieldsFinite {s : State} (h : SoundInRange s) {v : ℕ} (hv : v < s.numLanes) :
    fieldsFinite (s.voice v) (s.chan v) = true := by
  have hl := lane_mem hv
  have hP := h.registers.params
  obtain ⟨hhf, hh0, hh1⟩ := headroom_facts hP
  have hvoice := h.registers.voices _ hl
  rw [voiceInRange_iff hP (nextUp_facts hhf hh0 hh1).1] at hvoice
  obtain ⟨hamp, htarget, hlevel, hfcut⟩ := hvoice
  have hchan := h.registers.channels _ hl
  simp only [channelInRange, envelopeLegal, Bool.and_eq_true] at hchan
  obtain ⟨⟨⟨hat, hbright⟩, hcutoff⟩, ⟨⟨hatk, hdec⟩, hrel⟩, hsus⟩ := hchan
  have hphase := (phaseInRange_iff _).1 (h.phases _ hl)
  have hfstate := (within_iff (by decide)).1 (h.filters _ hl)
  rw [Machine.fieldsFinite, State.voice, State.chan, hphase.1, hamp.1, htarget.1, isFinite_of_inUnit hlevel, hfstate.1, hfcut.1,
    isFinite_of_inUnit hat, isFinite_of_inUnit hbright, ((cutoffOk_iff hP _).1 hcutoff).1, hatk, hdec,
    isFinite_of_inUnit hsus, hrel]
  rfl

/-- Settles O15: a tick wraps the phase exactly and filters bounded inputs; a publish writes tables made of finite resamplings,
as tame samples give; and a bounded fexp2 gives positive finite frequencies. -/
theorem everyStepKeepsTheSoundInRange : Obligations.EveryStepKeepsTheSoundInRange := by
  unfold Obligations.EveryStepKeepsTheSoundInRange
  exact ⟨fun s t h hinc hload hstep => step_soundInRange h hinc hload hstep, fun s h v hv => h.fieldsFinite hv,
    fun P view addr len hpeak hrange => load_finite_iff hpeak hrange, fun view addr len h => resampledFinite_of_tame h,
    fun L P sr hP hsr hL => ⟨fun n value l hn hvalue hbase hbend => incrementOk_of_bounded hL hP hsr hn hvalue hbase hbend,
      fun root b hroot hb => bandRatio_not_nan hL hroot hb⟩⟩

/-! ## Reset (R390) -/

theorem reset_legal (P : Params) : Legal (State.resetWith P) where
  lanes := List.length_replicate
  stages l hl := by rw [(List.mem_replicate.1 hl).2]; rfl
  stream := rfl
  regions := Nat.zero_le _
  names r hr := absurd hr List.not_mem_nil
  cmdq := Nat.zero_le _
  respq := Nat.zero_le _
  dec := rfl
  canonical := rfl
  below := rfl

/-- The envelope parameters after reset do not depend on the block's parameters. -/
theorem reset_envelopeLegal (P : Params) : envelopeLegal (Channel.reset P) = true :=
  (by decide : envelopeLegal (Channel.reset Params.default) = true)

section
variable {P : Params} (hP : paramsOk P = true)
include hP

theorem reset_envelopeInRange : EnvelopeInRange (State.resetWith P) where
  params := hP
  rate := (paramsInRange hP).defaultSr
  levels l hl := by rw [(List.mem_replicate.1 hl).2]; exact ⟨f0_inUnit, reset_envelopeLegal P⟩
  work op hop := absurd hop List.not_mem_nil

/-- After reset every voice is all zeros, so any bound of AMP from 0.0 on holds. -/
theorem reset_registersInRange {top : F32} (htop : isFinite top = true) (htop0 : 0 ≤ toRat top) :
    RegistersInRange top (State.resetWith P) where
  params := hP
  rate := (paramsInRange hP).defaultSr
  voices l hl := by
    obtain ⟨-, hM, -⟩ := cutoffAbsMax_facts hP
    rw [(List.mem_replicate.1 hl).2]
    refine (voiceInRange_iff hP htop _).2 ⟨⟨isFinite_f0, toRat_f0.ge, ?_⟩, ⟨isFinite_f0, toRat_f0.ge, ?_⟩, f0_inUnit,
      isFinite_f0, ?_⟩
    · rwa [Voice.reset, toRat_f0]
    · rw [Voice.reset, toRat_f0]; exact (headroom_facts hP).2.1.le
    · rw [Voice.reset, toRat_f0, abs_zero]; positivity
  channels l hl := by
    rw [(List.mem_replicate.1 hl).2]
    have : cutoffOk (State.resetWith P).cfg (Channel.reset P).cutoff = true :=
      (paramsInRange hP).defaultCutoffHz
    rw [channelInRange, this, reset_envelopeLegal P]
    exact (by decide : (inUnit f0 && inUnit f0 && true && true) = true)
  work op hop := absurd hop List.not_mem_nil

theorem reset_soundInRange : SoundInRange (State.resetWith P) where
  registers := by
    obtain ⟨hhf, hh0, hh1⟩ := headroom_facts hP
    obtain ⟨hnf, hn, -⟩ := nextUp_facts hhf hh0 hh1
    exact reset_registersInRange hP hnf (le_trans (by positivity) hn)
  phases l hl := by rw [(List.mem_replicate.1 hl).2]; exact (by decide : phaseInRange Voice.reset = true)
  filters l hl := by rw [(List.mem_replicate.1 hl).2]; exact (by decide : fle (fabs Voice.reset.fstate) 0x42000000#32 = true)
  custom i hi := by
    rw [tableAt_eq _ hi]
    show fle (fabs (zeroTable[i])) f2 = true
    rw [zeroTable, Vector.getElem_replicate]
    decide
  bands r hr := absurd hr List.not_mem_nil

end

/-- Settles O12: reset's voices, tables and queues are zeros or empty, and its other values are admissible parameters. -/
theorem resetMeetsEveryInvariant : Obligations.ResetMeetsEveryInvariant := by
  unfold Obligations.ResetMeetsEveryInvariant
  exact ⟨reset_legal _, reset_legal, by decide, fun P hP => ⟨reset_envelopeInRange hP,
    reset_registersInRange hP (headroom_facts hP).1 (headroom_facts hP).2.1.le, reset_soundInRange hP⟩⟩

end Sys2Proof.Machine
end

section
/-! Legal states (R53 items 4, 5, 6 and 9): each write keeps them legal, and with it each meaning, each agent and the step. -/

namespace Sys2Proof.Machine

/-! ## G.DEC and the rest -/

/-- Legal but for G.DEC, which a command holds complete until its execution is over (R154). -/
abbrev LegalButDec (s : State) : Prop := Legal { s with dec := .idle }

theorem LegalButDec.withDec {s : State} (h : LegalButDec s) (hd : decLegal s.dec s.work = true) : Legal s :=
  { h with dec := hd }

/-- `G.DEC`'s return to IDLE makes a state legal; a command that has write points left still holds all its words. -/
theorem LegalButDec.retire {s : State} (h : LegalButDec s) (hd : s.work ≠ [] → decLegal s.dec s.work = true) :
    Legal (retire s) := by
  cases hw : s.work with
  | nil => rw [retire_of_work_nil hw]; exact h
  | cons op ops => rw [retire_of_work_cons hw]; exact h.withDec (hd (by simp [hw]))

/-- Of the write points left, only whether there are any matters to `G.DEC`. -/
theorem decLegal_congr {d : Dec} {work work' : List WriteOp} (h : work.isEmpty = work'.isEmpty) :
    decLegal d work = decLegal d work' := by
  cases d with
  | idle => rfl
  | collecting op ws => simp only [decLegal, h]

theorem argWord_zero_append {ws : List Word} (h : 1 ≤ ws.length) (w : Word) : argWord (ws ++ [w]) 0 = argWord ws 0 := by
  rw [argWord, List.getD_append _ _ _ _ h, argWord]

/-- What `acceptWord` leaves in `G.DEC`: the part of a command while nothing is to be executed, a whole command while write
points of it are left. -/
theorem acceptWord_decLegal {d d' : Dec} {w : Word} {o : Option Instr} {work : List WriteOp} (h : decLegal d [] = true)
    (ha : acceptWord d w = (d', o)) (hw : work = [] ↔ o = none) : decLegal d' work = true := by
  cases d with
  | idle =>
    simp only [acceptWord] at ha
    split at ha
    · cases ha; rfl
    · next op ho =>
      split at ha <;> cases ha
      · rfl
      · next hn =>
        obtain rfl : work = [] := hw.2 rfl
        simpa [decLegal, argWord, ho] using Nat.one_le_iff_ne_zero.2 hn
  | collecting op ws =>
    simp only [decLegal, List.isEmpty_nil, if_true, Bool.and_eq_true, decide_eq_true_eq] at h
    obtain ⟨⟨hop, hpos⟩, hle⟩ := h
    simp only [acceptWord, List.length_append, List.length_singleton] at ha
    split at ha <;> cases ha <;> next hn =>
      simp [decLegal, hw, argWord_zero_append hpos, hop]
      omega

/-! ## Writes -/

/-- Every voice that can be read is inactive exactly when its stage is Idle, the one beyond the last lane too. -/
theorem Legal.voice_stageLegal {s : State} (h : Legal s) (c : Nat) : stageLegal (s.voice c) = true := by
  by_cases hc : c < s.numLanes
  · exact h.stages _ (lane_mem hc)
  · have : s.lanes[c]? = none := List.getElem?_eq_none (by simpa [State.numLanes] using hc)
    simp only [State.voice, State.lane, List.getD, this]
    rfl

/-- Setting one lane keeps the lanes legal if its voice is. -/
theorem Legal.setLane {s : State} (h : Legal s) (c : Nat) {l : Lane} (hl : stageLegal l.voice = true) :
    Legal { s with lanes := s.lanes.set c l } :=
  { h with
    lanes := by simpa using h.lanes
    stages := fun l' hl' => by
      rcases List.mem_or_eq_of_mem_set hl' with hm | rfl
      · exact h.stages l' hm
      · exact hl }

theorem Legal.setChan {s : State} (h : Legal s) (c : Nat) (x : Channel) : Legal (s.setChan c x) :=
  h.setLane c (h.voice_stageLegal c)

theorem Legal.setVoice {s : State} (h : Legal s) (c : Nat) {x : Voice} (hx : stageLegal x = true) :
    Legal (s.setVoice c x) :=
  h.setLane c hx

theorem pendingRegions_tail_le (op : WriteOp) (rest : List WriteOp) :
    pendingRegions rest ≤ pendingRegions (op :: rest) := by
  cases op <;> simp [pendingRegions]

theorem pendingRegions_responds (ws : List Word) : pendingRegions (ws.map WriteOp.respond) = 0 := by
  induction ws with
  | nil => rfl
  | cons w ws ih => exact ih

/-- Issuing write points keeps a state legal if the list has room for the regions they append. -/
theorem LegalButDec.issue {s : State} {ops : List WriteOp} (h : LegalButDec s)
    (hr : s.regions.length + pendingRegions ops ≤ s.cfg.rMax) : LegalButDec (issue ops s) :=
  { h with regions := hr }

/-! ## Meanings -/

/-- START's write points append no region. -/
theorem pendingRegions_openOps (bankSr sr : F32) : pendingRegions (openOps bankSr sr) = 0 := by
  unfold openOps; split <;> rfl

theorem registerOk_room {root lo hi naddr nlen : Nat} {s : State} (h : registerOk root lo hi naddr nlen s = true) :
    s.regions.length < s.cfg.rMax := by
  simp only [registerOk, Bool.and_eq_true, decide_eq_true_eq] at h
  exact h.1.2

/-- The meaning of every command keeps a state legal. -/
theorem exec_legalButDec {i : Instr} {s t : State} (h : LegalButDec s) (e : exec i s = .next t) :
    LegalButDec t := by
  have room : s.regions.length ≤ s.cfg.rMax := le_trans (Nat.le_add_right ..) h.regions
  have issued : ∀ {ops : List WriteOp}, pendingRegions ops = 0 → LegalButDec (issue ops s) := fun hp =>
    h.issue (by rwa [hp])
  cases i with
  | start =>
    cases e
    rcases start_cases s with ⟨-, e⟩ | ⟨-, -, e⟩ | ⟨-, -, e⟩ <;> rw [e]
    · exact issued rfl
    · exact { issued (pendingRegions_openOps s.bankSr (nextDraw s).sr) with }
    · exact { issued (ops := [.respond _]) rfl with }
  | stop => cases e; exact { h with stream := rfl }
  | close => cases e; exact { h with stream := rfl }
  | setWaveform id =>
    cases e
    unfold setWaveform
    split
    · exact { h with }
    · exact h
  | setFilterCutoff c _ | channelPressure c _ | pitchBend c _ =>
    cases e
    dsimp only [setFilterCutoff, channelPressure, pitchBend]
    split
    · exact Legal.setChan h c _
    · exact h
  | setEnvelope c atk dec sus rel =>
    cases e
    unfold setEnvelope
    split
    · exact issued rfl
    · exact h
  | loadWavetable addr len => cases e; exact issued rfl
  | registerSample root lo hi addr len naddr nlen =>
    cases e
    rcases registerSample_cases root lo hi addr len naddr nlen s with ⟨hok, e⟩ | ⟨-, e⟩ <;> rw [e]
    · exact h.issue (registerOk_room hok)
    · exact issued rfl
  | unregisterSample index =>
    cases e
    unfold unregisterSample
    split
    · exact { h with
        regions := le_trans (Nat.add_le_add_right (List.length_eraseIdx_le ..) _) h.regions
        names := fun r hr => h.names r (List.mem_of_mem_eraseIdx hr) }
    · exact h
  | listSampleNames => cases e; exact issued (pendingRegions_responds _)
  | noteOff c note =>
    cases e
    rcases noteOff_cases c s with ⟨-, hactive, e⟩ | e <;> rw [e]
    · exact Legal.setVoice h c (by simp [stageLegal, releaseVoice, hactive])
    · exact h
  | noteOn c note vel =>
    cases e
    rcases noteOn_cases lib c note vel s with ⟨-, -, -, e⟩ | e <;> rw [e]
    · exact Legal.setVoice h c rfl
    · exact h
  | controlChange c cc value =>
    cases e
    unfold controlChange
    split
    · split
      · exact Legal.setChan h c _
      · exact h
    · exact h

/-- A meaning leaves `G.DEC` to `retire`. -/
theorem exec_dec {i : Instr} {s t : State} (e : exec i s = .next t) : t.dec = s.dec := by
  cases i <;> cases e
  case stop | close | loadWavetable | listSampleNames => rfl
  case start => rcases start_cases s with ⟨-, e⟩ | ⟨-, -, e⟩ | ⟨-, -, e⟩ <;> rw [e] <;> rfl
  case noteOff | controlChange =>
    dsimp only [noteOff, controlChange]
    split
    · split <;> rfl
    · rfl
  case setWaveform | setFilterCutoff | setEnvelope | registerSample | unregisterSample | noteOn | channelPressure |
      pitchBend =>
    dsimp only [setWaveform, setFilterCutoff, setEnvelope, registerSample, unregisterSample, noteOn, channelPressure,
      pitchBend]
    split <;> rfl

/-! ## The command processor -/

/-- A write point keeps a state legal: a publish uses the place in the list that was kept for it, a respond the room that
`holds` found. -/
theorem applyOp_legalButDec {op : WriteOp} {rest : List WriteOp} {s : State} (h : Legal s) (hw : s.work = op :: rest)
    (hh : holds op s = false) : LegalButDec (applyOp lib op { s with work := rest }) := by
  have hpending : s.regions.length + pendingRegions (op :: rest) ≤ s.cfg.rMax := hw ▸ h.regions
  have hrest : Legal { s with dec := .idle, work := rest } :=
    { h with dec := rfl, regions := by have := pendingRegions_tail_le op rest; dsimp only; omega }
  cases op with
  | writeAtk c v => exact hrest.setChan c _
  | writeDec c v => exact hrest.setChan c _
  | writeSus c v => exact hrest.setChan c _
  | writeRel c v => exact hrest.setChan c _
  | generateBank sr => exact { hrest with }
  | writeSr sr => exact { hrest with }
  | startStream => exact { hrest with stream := rfl }
  | publishCustom addr len taken => exact { hrest with }
  | selectCustom => exact { hrest with }
  | publishRegion root lo hi addr len naddr nlen ta tn =>
    exact { hrest with
      regions := by
        simp only [applyOp, publishRegion, List.length_append, List.length_singleton, pendingRegions] at hpending ⊢
        omega
      names := fun r hr => by
        rcases List.mem_append.1 hr with hr | hr
        · exact h.names r hr
        · rw [List.mem_singleton.1 hr]
          simp [buildRegion, applyOp, publishRegion] }
  | respond w =>
    have room : s.respq.length < s.cfg.respDepth := by simpa [holds, respRoom] using hh
    exact { hrest with respq := by simpa [applyOp, pushResp] using room }

/-- A command with write points left performs the next or holds, and keeps its words until none is left (R150, R154). -/
theorem retire_workStep_legal {s : State} (h : Legal s) (hne : s.work ≠ []) : Legal (retire (workStep lib s)) := by
  rcases workStep_cases lib s with ⟨hw, -⟩ | ⟨op, rest, hw, ⟨-, e⟩ | ⟨hh, e⟩⟩
  · exact absurd hw hne
  · rw [e, retire_of_work_cons hw]; exact h
  · rw [e]
    refine (applyOp_legalButDec h hw hh).retire fun hne' => ?_
    obtain ⟨-, -, -, hdec, -⟩ := applyOp_frame lib op { s with work := rest }
    rw [hdec, ← h.dec]
    exact decLegal_congr (by simpa [hw] using hne')

/-- Taking a word from CMDQ leaves it room. -/
theorem Legal.takeWord {s : State} {w : Word} {q : List Word} (h : Legal s) (hq : s.cmdq = w :: q) (d : Dec) :
    LegalButDec { s with cmdq := q, dec := d } :=
  { h with
    cmdq := le_trans (by simp [hq]) h.cmdq
    dec := rfl }

theorem processorStep_legal {s t : State} (h : Legal s) (e : processorStep s = .next t) : Legal t := by
  rcases processorStep_cases s with ⟨op, rest, hw, e'⟩ | ⟨-, -, e'⟩ | ⟨w, q, d, hw, hq, ha, e'⟩ |
    ⟨w, q, d, i, u, hw, hq, ha, hu, e'⟩ <;> rw [e'] at e <;> cases e
  · exact retire_workStep_legal h (by simp [hw])
  · exact h
  · exact (h.takeWord hq d).withDec (acceptWord_decLegal (hw ▸ h.dec) ha (by simp [hw]))
  · refine (exec_legalButDec (h.takeWord hq d) hu).retire fun hne => ?_
    rw [exec_dec hu]
    exact acceptWord_decLegal (hw ▸ h.dec) ha (by simp [hne])

/-! ## The host and the render engine -/

/-- A host store changes which bytes are taken, and no region that will be appended. -/
theorem pendingRegions_takeBefore (s : State) (a : Nat) (x y : Bool) (ops : List WriteOp) :
    pendingRegions (takeBefore s a x y ops) = pendingRegions ops := by
  cases ops with
  | nil => rfl
  | cons op rest => cases op <;> rfl

/-- A store to the payload memory keeps its canonical form and its bound (R110). -/
theorem Legal.payloadStore {s : State} (h : Legal s) (a : Nat) (b : Byte) : Legal (payloadStore s a b) := by
  unfold Machine.payloadStore
  split
  · next ha => exact { h with canonical := memWrite_wf a b h.canonical, below := memWrite_below b h.below ha }
  · exact h

theorem hostStep_legal {s : State} (h : Legal s) : Legal (hostStep s) := by
  rcases hostStep_cases s with e | ⟨w, rest, -, room, e⟩ | ⟨w, q, rest, -, hq, e⟩ | ⟨a, b, x, y, rest, -, e⟩ <;> rw [e]
  · exact h
  · exact { h with cmdq := by simpa using room }
  · exact { h with respq := le_trans (by simp [hq]) h.respq }
  · have taken : Legal { s with work := takeBefore s a x y s.work, host := rest } :=
      { h with
        regions := by rw [pendingRegions_takeBefore]; exact h.regions
        dec := (decLegal_congr (takeBefore_isEmpty s a x y s.work)).trans h.dec }
    exact taken.payloadStore a b

/-- No stage becomes Idle by the envelope (R251). -/
theorem nextStage_idle_iff (P : Params) (stage : Stage) (level sus : F32) :
    nextStage P stage level sus = .idle ↔ stage = .idle := by
  cases stage with
  | attack | decay => simp only [nextStage]; split <;> simp
  | sustain | release | idle => simp [nextStage]

/-- A sounding voice sounds on with a stage that is not Idle, or is retired with both (R249, R251, R252). -/
theorem voiceStep_stageLegal (L : Lib) (P : Params) (g : Snapshot) (c : Channel) {v : Voice} (h : stageLegal v = true) :
    stageLegal (voiceStep L P g c v).1 = true := by
  unfold voiceStep
  dsimp only
  split
  · rfl
  · split
    · rfl
    · simpa [stageLegal, stepFilter, stepEnvelope, nextStage_idle_iff] using h

theorem tickWith_legal {s : State} (L : Lib) (d : Bool) (h : Legal s) : Legal (tickWith L d s) :=
  { h with
    lanes := (tickResult_lanes_length L s d).trans h.lanes
    stages := tickWith_forall_lanes h.stages fun _ _ _ => voiceStep_stageLegal L _ _ _ }

/-- Settles O11: whichever agent moves, each of its writes keeps the state legal. -/
theorem everyStepKeepsTheStateLegal : Obligations.EveryStepKeepsTheStateLegal := by
  unfold Obligations.EveryStepKeepsTheStateLegal
  intro s t h hstep
  have turned : ∀ ts, Legal { s with turns := ts } := fun ts => { h with }
  rcases step_cases s with ⟨-, e⟩ | ⟨ts, -, e⟩ | ⟨d, ts, -, e⟩ | ⟨ts, -, e⟩ <;> rw [e] at hstep
  · exact processorStep_legal h hstep
  · exact processorStep_legal (turned ts) hstep
  · cases hstep; exact tickWith_legal lib d (turned ts)
  · cases hstep; exact hostStep_legal (turned ts)

end Sys2Proof.Machine
end

section
/-! The queues (R40, R150) and BRIGHT (R44). -/

namespace Sys2Proof.Machine

/-! ## The host's acts, said one by one (R40, R372) -/

theorem step_host {s : State} {ts : List Turn} (h : s.turns = .host :: ts) :
    step s = .next (hostStep { s with turns := ts }) := by
  simp only [step, h, agentStep]

/-- A push waits while CMDQ is full. -/
theorem hostStep_push {s : State} {w : Word} {rest : List HostAct} (h : s.host = .push w :: rest) :
    hostStep s = if s.cmdq.length < s.cfg.cmdDepth then { s with cmdq := s.cmdq ++ [w], host := rest } else s := by
  simp only [hostStep, h]

theorem hostStep_pop {s : State} {w : Word} {q : List Word} {rest : List HostAct} (h : s.host = .pop :: rest)
    (hq : s.respq = w :: q) : hostStep s = { s with respq := q, popped := s.popped ++ [w], host := rest } := by
  simp only [hostStep, h, hq]

/-- A pop waits while RESPQ is empty. -/
theorem hostStep_pop_empty {s : State} {rest : List HostAct} (h : s.host = .pop :: rest) (hq : s.respq = []) :
    hostStep s = s := by
  simp only [hostStep, h, hq]

/-! ## Responding -/

theorem processorStep_of_work {s : State} {op : WriteOp} {rest : List WriteOp} (h : s.work = op :: rest) :
    processorStep s = .next (retire (workStep lib s)) := by
  simp only [processorStep, h]

/-- A respond to a full RESPQ holds the command processor (R150). -/
theorem workStep_respond_full {L : Lib} {s : State} {w : Word} {rest : List WriteOp} (h : s.work = .respond w :: rest)
    (full : s.cfg.respDepth ≤ s.respq.length) : workStep L s = s := by
  simp [workStep, h, (holds_iff (.respond w) s).2 ⟨⟨w, rfl⟩, full⟩]

/-- Settles O10: the host's acts and the respond, each with room and without. -/
theorem fullQueuesHold : Obligations.FullQueuesHold := by
  unfold Obligations.FullQueuesHold
  refine ⟨fun s w ts rest ht hh => ?_, fun s w q ts rest ht hh => ?_, fun s w rest hp hw => ?_, rfl, rfl⟩
  · rw [step_host ht, hostStep_push (s := { s with turns := ts }) hh]
    exact ⟨fun room => by rw [if_pos room], fun full => by rw [if_neg (Nat.not_lt.2 full)]⟩
  · rw [step_host ht]
    exact ⟨fun hq => by rw [hostStep_pop (s := { s with turns := ts }) hh hq],
      fun hq => by rw [hostStep_pop_empty (s := { s with turns := ts }) hh hq]⟩
  · have hw' : { s with turns := s.turns.tail }.work = .respond w :: rest := hw
    rw [step_processor hp, processorStep_of_work hw']
    refine ⟨fun full => ?_, fun room => ⟨_, rfl, ?_, ?_⟩⟩
    · rw [workStep_respond_full hw' full, retire_of_work_cons hw']
    · rw [retire_respq, workStep_respond hw' room]
    · rw [retire_work, workStep_respond hw' room]

/-! ## BRIGHT -/

/-- The lane with another BRIGHT. -/
def Lane.withBright (b : F32) (l : Lane) : Lane := { l with chan := { l.chan with bright := b } }

/-- The state with another BRIGHT in every channel. -/
def State.withBright (b : Nat → F32) (s : State) : State :=
  { s with lanes := s.lanes.mapIdx fun k l => l.withBright (b k) }

/-- Beside BRIGHT itself, a lane's step is the same whatever BRIGHT is: no step of R243 to R255 reads it. -/
theorem laneStep_withBright (L : Lib) (P : Params) (g : Snapshot) (b : F32) (l : Lane) :
    laneStep L P g (l.withBright b) = ((laneStep L P g l).1.withBright b, (laneStep L P g l).2) := by
  cases h : l.voice.active with
  | true =>
    have hb : (l.withBright b).voice.active = true := h
    unfold laneStep
    rw [if_pos h, if_pos hb]
    rfl
  | false => rw [laneStep_inactive L P g l h, laneStep_inactive L P g (l.withBright b) h]

/-- A tick of the state with another BRIGHT gives the same lanes but for BRIGHT, and the same sample. -/
theorem tickResult_withBright (L : Lib) (s : State) (d : Bool) (b : Nat → F32) :
    tickResult L (s.withBright b) d =
      ((tickResult L s d).1.mapIdx fun k l => l.withBright (b k), (tickResult L s d).2) := by
  have hlanes : (s.withBright b).lanes = s.lanes.mapIdx fun k l => l.withBright (b k) := rfl
  have hr : renders (s.withBright b) d = renders s d := rfl
  have hstep : (s.withBright b).lanes.map (laneStep L (s.withBright b).cfg (snapshotOf (s.withBright b))) =
      (s.lanes.map (laneStep L s.cfg (snapshotOf s))).mapIdx fun k r => (r.1.withBright (b k), r.2) :=
    List.ext_getElem (by simp [hlanes]) fun k _ _ => by
      simp only [hlanes, List.getElem_map, List.getElem_mapIdx]
      exact laneStep_withBright L s.cfg (snapshotOf s) (b k) _
  unfold tickResult
  rw [hr]
  split
  · rw [hstep]
    refine Prod.ext (List.ext_getElem (by simp) fun k _ _ => by simp) (congrArg mix ?_)
    exact List.ext_getElem (by simp) fun k _ _ => by simp
  · rfl

theorem tickWith_withBright (L : Lib) (s : State) (d : Bool) (b : Nat → F32) :
    tickWith L d (s.withBright b) = (tickWith L d s).withBright b := by
  simp only [tickWith, tickResult_withBright]
  rfl

/-- No voice is read differently. -/
theorem voice_withBright (s : State) (b : Nat → F32) (v : Nat) : (s.withBright b).voice v = s.voice v := by
  simp only [State.voice, State.lane, State.withBright, List.getD, List.getElem?_mapIdx]
  cases s.lanes[v]? <;> rfl

/-- Settles O26: CONTROL_CHANGE's write, reset's value, and that a tick commutes with overwriting BRIGHT. -/
theorem brightnessNeverReachesTheOutput : Obligations.BrightnessNeverReachesTheOutput := by
  unfold Obligations.BrightnessNeverReachesTheOutput
  refine ⟨fun s c value hc hv => ?_, by decide, fun s d b => ?_⟩
  · have e : controlChange c 74 value s = s.setChan c { s.chan c with bright := unit127 value } := by
      simp [controlChange, channelOk, upTo127, hc, hv]
    exact ⟨_, rfl, by rw [e, chan_setChan_same _ hc]; rfl⟩
  · change (tick d (s.withBright b)).outs = (tick d s).outs ∧
      ∀ v, v < s.numLanes → (tick d (s.withBright b)).voice v = (tick d s).voice v
    rw [tick, tickWith_withBright]
    exact ⟨rfl, fun v _ => voice_withBright _ b v⟩

end Sys2Proof.Machine
end

section
/-! One write point a step (R105, R154), and the payload memory (R110, R111): the block reads it, the host alone writes it, and
a load reads each byte once. -/

namespace Sys2Proof.Machine

/-! ## One write point a step -/

/-- Beside `G.DEC`, `retire` changes nothing. -/
theorem retire_eq_withDec (s : State) : retire s = { s with dec := (retire s).dec } := by
  unfold retire; split <;> rfl

/-- A write point that does not hold is performed (R105). -/
theorem workStep_of_not_holds {L : Lib} {s : State} {op : WriteOp} {rest : List WriteOp} (h : s.work = op :: rest)
    (hh : holds op s = false) : workStep L s = applyOp L op { s with work := rest } := by
  simp [workStep, h, hh]

/-- Settles O9: the step is `applyOp` followed by `retire`, and `applyOp` leaves CMDQ and `G.DEC` alone. -/
theorem processorPerformsOneWritePointAStep : Obligations.ProcessorPerformsOneWritePointAStep := by
  unfold Obligations.ProcessorPerformsOneWritePointAStep
  intro s op rest hp hw hh
  have hw' : { s with turns := s.turns.tail }.work = op :: rest := hw
  have hstep : step s = .next (retire (applyOp lib op { s with work := rest, turns := s.turns.tail })) := by
    rw [step_processor hp, processorStep_of_work hw', workStep_of_not_holds hw' hh]
  obtain ⟨-, -, hcmdq, hdec, -⟩ := applyOp_frame lib op { s with work := rest, turns := s.turns.tail }
  refine ⟨_, hstep, (retire_cmdq _).trans hcmdq, fun hnil => ?_, fun hne => ?_, retire_eq_withDec _⟩
  · rw [retire_work] at hnil
    rw [retire_of_work_nil hnil]
  · rw [retire_work] at hne
    rw [retire_dec, if_neg (by simpa using hne), hdec]

/-! ## Reads (R110) -/

theorem payloadRead_eq_none_iff (s : State) (a n : Nat) : payloadRead s a n = none ↔ s.cfg.payloadBytes < a + n := by
  simp [payloadRead]

theorem payloadRead_of_le {s : State} {a n : Nat} (h : a + n ≤ s.cfg.payloadBytes) :
    payloadRead s a n = some (leBytes (memRead s.payload) a n) := if_neg (Nat.not_lt.2 h)

/-! ## The block writes no payload byte (R110) -/

theorem exec_payload {i : Instr} {s t : State} (e : exec i s = .next t) : t.payload = s.payload := by
  cases i <;> cases e
  case stop | close | loadWavetable | listSampleNames => rfl
  case start => rcases start_cases s with ⟨-, e⟩ | ⟨-, -, e⟩ | ⟨-, -, e⟩ <;> rw [e] <;> rfl
  case registerSample root lo hi addr len naddr nlen =>
    rcases registerSample_cases root lo hi addr len naddr nlen s with ⟨-, e⟩ | ⟨-, e⟩ <;> rw [e] <;> rfl
  case noteOn c note vel =>
    rcases noteOn_cases lib c note vel s with ⟨-, -, -, e⟩ | e <;> rw [e]
    exact setVoice_payload ..
  case noteOff c note =>
    rcases noteOff_cases c s with ⟨-, -, e⟩ | e <;> rw [e]
    exact setVoice_payload ..
  case setWaveform id => unfold setWaveform; split <;> rfl
  case setFilterCutoff | setEnvelope | unregisterSample | channelPressure | pitchBend | controlChange =>
    dsimp only [setFilterCutoff, setEnvelope, unregisterSample, channelPressure, pitchBend, controlChange]
    split_ifs <;> rfl

theorem workStep_payload (L : Lib) (s : State) : (workStep L s).payload = s.payload := by
  rcases workStep_cases L s with ⟨-, e⟩ | ⟨op, rest, -, ⟨-, e⟩ | ⟨-, e⟩⟩ <;> rw [e]
  obtain ⟨-, hpayload, -⟩ := applyOp_frame L op { s with work := rest }
  exact hpayload

theorem processorStep_payload {s t : State} (e : processorStep s = .next t) : t.payload = s.payload := by
  rcases processorStep_cases s with ⟨op, rest, -, e'⟩ | ⟨-, -, e'⟩ | ⟨w, q, d, -, -, -, e'⟩ |
    ⟨w, q, d, i, u, -, -, -, hu, e'⟩ <;> rw [e'] at e <;> cases e
  · rw [retire_payload, workStep_payload]
  · rfl
  · rfl
  · rw [retire_payload, exec_payload hu]

/-- Only the host's step writes the payload memory. -/
theorem step_payload {s t : State} (hne : ∀ ts, s.turns ≠ .host :: ts) (e : step s = .next t) : t.payload = s.payload := by
  rcases step_cases s with ⟨-, e'⟩ | ⟨ts, -, e'⟩ | ⟨d, ts, -, e'⟩ | ⟨ts, hts, -⟩
  · exact processorStep_payload (e' ▸ e)
  · exact processorStep_payload (s := { s with turns := ts }) (e' ▸ e)
  · cases e'.symm.trans e; rfl
  · exact absurd hts (hne ts)

/-! ## The host's store (R111) -/

/-- The host's turn with a store inside the memory: the command being executed keeps the bytes it has read, and the byte is
stored. -/
theorem step_store {s : State} {a : Nat} {b : Byte} {x y : Bool} {ts : List Turn} {rest : List HostAct}
    (ht : s.turns = .host :: ts) (hh : s.host = .store a b x y :: rest) (ha : a < s.cfg.payloadBytes) :
    ∃ t, step s = .next t ∧ t.work = takeBefore s a x y s.work ∧ t.payload = memWrite s.payload a b := by
  have hstep : step s =
      .next (payloadStore { s with turns := ts, work := takeBefore s a x y s.work, host := rest } a b) := by
    rw [step_host ht]
    simp only [hostStep, hh]
    rfl
  exact ⟨_, hstep, payloadStore_work .., (payloadStore_payload ..).trans (if_pos ha)⟩

/-- Settles O18: `leBytes` unfolded, the block's steps keep the memory, and a host store is one `memWrite`. -/
theorem payloadMemoryIsLittleEndianAndReadOnly : Obligations.PayloadMemoryIsLittleEndianAndReadOnly := by
  unfold Obligations.PayloadMemoryIsLittleEndianAndReadOnly
  refine ⟨payloadRead_eq_none_iff, fun s a h => ?_, fun s t => step_payload, fun s a b x y ts rest ht hh ha hm => ?_⟩
  · rw [payloadRead_of_le (by omega), payloadRead_of_le (by omega), payloadRead_of_le h]
    simp only [leBytes, Option.some.injEq, Nat.add_assoc, Nat.reduceAdd, Nat.add_zero]
    omega
  · obtain ⟨t, hstep, -, hpayload⟩ := step_store ht hh ha
    exact ⟨t, hstep, hpayload ▸ memRead_memWrite_same a b hm, fun a' h => hpayload ▸ memRead_memWrite_ne b h⟩

/-! ## Races (R111) -/

/-- The bytes a load has taken after a host store at `a`: with `early` the load had read the byte there, and keeps its value. -/
def takenOnStore (early : Bool) (taken : List Host.Cell) (m : Memory) (a : Nat) : List Host.Cell :=
  if early then takeByte taken a (memRead m a) else taken

theorem takeBefore_publishCustom (s : State) (a : Nat) (x y : Bool) (addr len : Nat) (taken : List Host.Cell)
    (ops : List WriteOp) : takeBefore s a x y (.publishCustom addr len taken :: ops) =
      .publishCustom addr len (takenOnStore x taken s.payload a) :: ops := rfl

theorem takeBefore_publishRegion (s : State) (a : Nat) (x y : Bool) (root lo hi : Key) (addr len naddr nlen : Nat)
    (audio name : List Host.Cell) (ops : List WriteOp) :
    takeBefore s a x y (.publishRegion root lo hi addr len naddr nlen audio name :: ops) =
      .publishRegion root lo hi addr len naddr nlen (takenOnStore x audio s.payload a)
        (takenOnStore y name s.payload a) :: ops := rfl

/-- Taking a byte takes no other. -/
theorem takeByte_lookup_ne (taken : List Host.Cell) {a a' : Nat} (b : Byte) (h : a' ≠ a) :
    (takeByte taken a b).lookup a' = taken.lookup a' := by
  unfold takeByte
  split
  · rfl
  · rw [List.lookup_cons, beq_false_of_ne h]

/-- What a load reads at the byte stored to: the old value if it has read it, the stored one otherwise. -/
theorem takenRead_takenOnStore_same {m : Memory} (hm : Memory.wf m = true) (early : Bool) (taken : List Host.Cell)
    (a : Nat) (b : Byte) : takenRead (takenOnStore early taken m a) (memWrite m a b) a =
      if early = true ∨ (taken.lookup a).isSome = true then takenRead taken m a else b := by
  unfold takenRead takenOnStore
  cases early with
  | true => simp [takeByte_lookup]
  | false => cases h : taken.lookup a <;> simp [h, memRead_memWrite_same a b hm]

/-- What a load reads at every other byte is unchanged. -/
theorem takenRead_takenOnStore_ne (m : Memory) (early : Bool) (taken : List Host.Cell) {a a' : Nat} (b : Byte)
    (h : a' ≠ a) : takenRead (takenOnStore early taken m a) (memWrite m a b) a' = takenRead taken m a' := by
  unfold takenRead takenOnStore
  split <;> simp [takeByte_lookup_ne, memRead_memWrite_ne, h]

/-- Settles O19: a store takes the old byte where the load has read it, and the publish reads through the bytes taken. -/
theorem racingStoresAreSeenByteByByte : Obligations.RacingStoresAreSeenByteByByte := by
  unfold Obligations.RacingStoresAreSeenByteByByte
  intro sees
  have seen : ∀ {m : Memory} (early : Bool) (taken : List Host.Cell) (a : Nat) (b : Byte), Memory.wf m = true →
      sees early taken (takenOnStore early taken m a) m (memWrite m a b) a b := fun early taken a b hm =>
    ⟨takenRead_takenOnStore_same hm early taken a b, fun _ => takenRead_takenOnStore_ne _ early taken b⟩
  refine ⟨fun s addr len a b x y taken ops ts rest hw ht hh ha hm => ?_,
    fun s root lo hi addr len naddr nlen a b x y audio name ops ts rest hw ht hh ha hm => ?_,
    fun s addr len taken ops hw => ?_, fun s root lo hi addr len naddr nlen audio name ops hw => ?_⟩
  · obtain ⟨t, hstep, hwork, hpayload⟩ := step_store ht hh ha
    rw [hw, takeBefore_publishCustom] at hwork
    exact ⟨t, _, hstep, hwork, hpayload ▸ seen x taken a b hm⟩
  · obtain ⟨t, hstep, hwork, hpayload⟩ := step_store ht hh ha
    rw [hw, takeBefore_publishRegion] at hwork
    exact ⟨t, _, _, hstep, hwork, hpayload ▸ seen x audio a b hm, hpayload ▸ seen y name a b hm⟩
  · rw [workStep_of_not_holds hw rfl]; rfl
  · rw [workStep_of_not_holds hw rfl]; rfl

end Sys2Proof.Machine
end

section
/-! The voice loop of a rendering tick (R242): each lane's own step, and the sum of the contributions in ascending order. -/

namespace Sys2Proof.Machine

/-- The lanes, read one after another. -/
theorem lanes_eq_map_range (s : State) : s.lanes = (List.range s.numLanes).map s.lane :=
  List.ext_getElem (by simp [State.numLanes]) fun k h _ => by simp [lane_of_lt h]

/-- An active voice takes its own step, from the snapshot and its own channel (R242). -/
theorem laneStep_active (L : Lib) (P : Params) (g : Snapshot) {l : Lane} (h : l.voice.active = true) :
    laneStep L P g l =
      ({ l with voice := (voiceStep L P g l.chan l.voice).1 }, (voiceStep L P g l.chan l.voice).2) := by
  rw [laneStep, if_pos h]

/-- A rendering tick takes each lane to its own step. -/
theorem tickWith_lane_of_renders {L : Lib} {d : Bool} {s : State} {c : Nat} (hr : renders s d = true)
    (h : c < s.numLanes) : (tickWith L d s).lane c = (laneStep L s.cfg (snapshotOf s) (s.lane c)).1 := by
  have hl : c < s.lanes.length := h
  rw [lane_of_lt (by simpa using hl), lane_of_lt hl]
  simp [tickResult_lanes, hr]

/-- One contribution added; a voice that gives none adds nothing. -/
def addContribution (acc : F32) : Option F32 → F32
  | some x => fadd acc x
  | none => acc

/-- The contributions are added as the loop meets them. -/
theorem mix_eq_foldl (contributions : List (Option F32)) : mix contributions = contributions.foldl addContribution f0 := by
  rw [mix, List.foldl_filterMap]
  congr 1
  funext acc x
  cases x <;> rfl

/-- A rendering tick delivers the sum over the lanes' own steps. -/
theorem tickWith_outs_of_renders {L : Lib} {d : Bool} {s : State} (hr : renders s d = true) :
    (tickWith L d s).outs = s.outs ++ [mix ((List.range s.numLanes).map fun v =>
      (laneStep L s.cfg (snapshotOf s) (s.lane v)).2)] := by
  rw [tickWith_outs, tickResult, if_pos hr, lanes_eq_map_range]
  simp [Function.comp_def]

/-- Settles O40: the loop's lanes and its fold, and the two branches of `laneStep`. -/
theorem tickSumsVoicesInAscendingOrder : Obligations.TickSumsVoicesInAscendingOrder := by
  unfold Obligations.TickSumsVoicesInAscendingOrder
  intro s hplay g r
  have hr : renders s true = true := by simp [renders, hplay]
  refine ⟨fun v hv => ?_, ?_⟩
  · change ((tickWith lib true s).lane v).voice = _
    rw [tickWith_lane_of_renders hr hv]
    cases ha : (s.voice v).active with
    | true => rw [laneStep_active _ _ _ ha]; rfl
    | false => rw [laneStep_inactive _ _ _ _ ha]; rfl
  · rw [tick, tickWith_outs_of_renders hr, mix_eq_foldl, List.foldl_map]
    congr 3
    funext acc v
    cases ha : (s.voice v).active with
    | true =>
      rw [laneStep_active _ _ _ ha, if_pos rfl]
      change addContribution acc (r v).2 = _
      cases (r v).2 <;> rfl
    | false => rw [laneStep_inactive _ _ _ _ ha]; rfl

end Sys2Proof.Machine
end

section
/-! The encoding (R140 to R149): encoding and decoding undo each other, the opcode map is exact, and ignored bits are
neither read nor written. -/

namespace Sys2Proof.Machine

/-! ## Decoding what the encoder writes -/

/-- Every instruction's encoding has its opcode's length and carries its opcode (R140, R145). -/
theorem encodedLength : ∀ i : Instr, Laws.EncodedLength.Statement i
  | .start => Laws.EncodedLength.start
  | .stop => Laws.EncodedLength.stop
  | .close => Laws.EncodedLength.close
  | .setWaveform id => Laws.EncodedLength.setWaveform id
  | .setFilterCutoff c hz => Laws.EncodedLength.setFilterCutoff c hz
  | .setEnvelope c atk dec sus rel => Laws.EncodedLength.setEnvelope c atk dec sus rel
  | .loadWavetable addr len => Laws.EncodedLength.loadWavetable addr len
  | .registerSample root lo hi addr len naddr nlen =>
      Laws.EncodedLength.registerSample root lo hi addr len naddr nlen
  | .unregisterSample index => Laws.EncodedLength.unregisterSample index
  | .listSampleNames => Laws.EncodedLength.listSampleNames
  | .noteOff c note => Laws.EncodedLength.noteOff c note
  | .noteOn c note vel => Laws.EncodedLength.noteOn c note vel
  | .controlChange c cc value => Laws.EncodedLength.controlChange c cc value
  | .channelPressure c value => Laws.EncodedLength.channelPressure c value
  | .pitchBend c value => Laws.EncodedLength.pitchBend c value

/-- A word whose opcode byte is an opcode's code names that opcode (R145). -/
theorem opcodeOf_of_fieldOP {w : Word} {o : Opcode} (h : fieldOP w = o.code) : opcodeOf w = some o := by
  rw [opcodeOf, h, ofCode_code]

/-- A command word with exactly its argument words is decoded whole, and the words after it are left (R140, R155). -/
theorem decode_append {w : Word} {op : Opcode} {args : List Word} (rest : List Word) (h : opcodeOf w = some op)
    (hlen : args.length = op.nargs) : decode (w :: args ++ rest) = .ok (assemble op (w :: args), rest) := by
  rw [List.cons_append, decode_assigned _ h, ← hlen, if_neg (by simp), List.take_left, List.drop_left]

/-- The fields of the encoder's words are the operands it was given (R141 to R144). -/
theorem assemble_encode {i : Instr} (h : i.wellFormed = true) : assemble i.opcode (encode i) = i := by
  have hop := opcode_code_lt i.opcode
  have zero : 0 < 256 := by decide
  cases i <;>
    simp only [Instr.wellFormed, fits8, fits16, fits32, Bool.and_eq_true, decide_eq_true_eq] at h <;>
    simp only [Instr.opcode] at hop <;>
    simp only [Instr.opcode, encode, assemble, argWord, List.getD_cons_zero, List.getD_cons_succ]
  case setWaveform => rw [word0_fieldB hop zero zero h]
  case setFilterCutoff | setEnvelope => rw [word0_fieldCH hop h zero zero]
  case loadWavetable => rw [u32Word_toNat h.1, u32Word_toNat h.2]
  case registerSample =>
    obtain ⟨⟨⟨⟨⟨⟨hroot, hlo⟩, hhi⟩, haddr⟩, hlen⟩, hnaddr⟩, hnlen⟩ := h
    rw [word0_fieldCH hop hroot hlo hhi, word0_fieldA hop hroot hlo hhi, word0_fieldB hop hroot hlo hhi,
      u32Word_toNat haddr, u32Word_toNat hlen, u32Word_toNat hnaddr, u32Word_toNat hnlen]
  case unregisterSample => rw [word0_fieldD16 hop zero h]
  case noteOff => rw [word0_fieldCH hop h.1 h.2 zero, word0_fieldA hop h.1 h.2 zero]
  case noteOn | controlChange =>
    obtain ⟨⟨hc, ha⟩, hb⟩ := h
    rw [word0_fieldCH hop hc ha hb, word0_fieldA hop hc ha hb, word0_fieldB hop hc ha hb]
  case channelPressure => rw [word0_fieldCH hop h.1 zero h.2, word0_fieldB hop h.1 zero h.2]
  case pitchBend => rw [word0_fieldCH_d16 hop h.1 h.2, word0_fieldD16 hop h.1 h.2]

/-- Settles O1: the encoding carries its opcode and its opcode's number of words, and its fields are the operands. -/
theorem decodeOfEncodeIsTheInstruction : Obligations.DecodeOfEncodeIsTheInstruction := by
  unfold Obligations.DecodeOfEncodeIsTheInstruction
  intro i rest h
  obtain ⟨hlen, hop⟩ := encodedLength i
  have hasm := assemble_encode h
  cases he : encode i with
  | nil => rw [he, List.length_nil] at hlen; omega
  | cons w args =>
    rw [he] at hlen hop hasm
    have hw : opcodeOf w = some i.opcode := opcodeOf_of_fieldOP (hop h)
    rw [decode_append rest hw (by simpa [Nat.add_comm] using hlen), hasm]

/-! ## What the decoder reads -/

theorem fieldOP_lt (w : Word) : fieldOP w < 256 := Nat.div_lt_of_lt_mul w.isLt
theorem fieldCH_lt (w : Word) : fieldCH w < 256 := Nat.mod_lt _ (by decide)
theorem fieldA_lt (w : Word) : fieldA w < 256 := Nat.mod_lt _ (by decide)
theorem fieldB_lt (w : Word) : fieldB w < 256 := Nat.mod_lt _ (by decide)
theorem fieldD16_lt (w : Word) : fieldD16 w < 65536 := Nat.mod_lt _ (by decide)

/-- A field's value fits the field (R141 to R144). -/
theorem assemble_wellFormed (op : Opcode) (ws : List Word) : (assemble op ws).wellFormed = true := by
  have arg : ∀ k, (argWord ws k).toNat < 4294967296 := fun k => (argWord ws k).isLt
  cases op <;>
    simp [assemble, Instr.wellFormed, fits8, fits16, fits32, fieldCH_lt, fieldA_lt, fieldB_lt, fieldD16_lt, arg]

theorem assemble_opcode (op : Opcode) (ws : List Word) : (assemble op ws).opcode = op := by
  cases op <;> rfl

/-- Settles O2: every field's value fits its field, so the encoder's words give it back, and the opcode gives the
length. -/
theorem decodedCommandsAreWellFormedAndReencode : Obligations.DecodedCommandsAreWellFormedAndReencode := by
  unfold Obligations.DecodedCommandsAreWellFormedAndReencode
  intro ws rest i h
  obtain ⟨w, args, op, rfl, -, hn, rfl, rfl⟩ := decode_ok h
  have hwf := assemble_wellFormed op (w :: args.take op.nargs)
  have hlen := (encodedLength (assemble op (w :: args.take op.nargs))).1
  rw [assemble_opcode] at hlen
  refine ⟨hwf, ?_, by rw [hlen, assemble_opcode], by rw [hlen, Nat.add_comm, List.drop_succ_cons], ?_⟩
  · simpa using decodeOfEncodeIsTheInstruction _ [] hwf
  · rw [hlen, List.length_cons, List.length_drop]; omega

/-! ## The opcode map -/

/-- The assigned opcode bytes (R145). -/
def assignedCodes : List Nat :=
  [0x10, 0x11, 0x12, 0x20, 0x21, 0x22, 0x30, 0x31, 0x32, 0x33, 0x80, 0x90, 0xB0, 0xD0, 0xE0]

theorem code_mem_assignedCodes (o : Opcode) : o.code ∈ assignedCodes := by cases o <;> decide

/-- The map assigns exactly the 15 codes (R145, R147). -/
theorem ofCode_eq_none_iff (n : Nat) : Opcode.ofCode n = none ↔ n ∉ assignedCodes := by
  have assigned : ∀ k ∈ assignedCodes, Opcode.ofCode k ≠ none := by decide
  refine ⟨fun h hn => assigned n hn h, fun h => ?_⟩
  cases ho : Opcode.ofCode n with
  | none => rfl
  | some o => exact absurd (code_of_ofCode ho ▸ code_mem_assignedCodes o) h

/-- The decoder rejects a word list as unassigned exactly where word 0 names no opcode (R147). -/
theorem decode_eq_unassigned_iff (w : Word) (args : List Word) :
    decode (w :: args) = .error (.unassigned (fieldOP w)) ↔ opcodeOf w = none := by
  refine ⟨fun h => ?_, decode_unassigned args⟩
  cases ho : opcodeOf w with
  | none => rfl
  | some op => rw [decode_assigned args ho] at h; split at h <;> simp at h

/-- Settles O3: the map is exact, and the count is over the 256 bytes. -/
theorem exactlyTheMappedOpcodesAreAssigned : Obligations.ExactlyTheMappedOpcodesAreAssigned := by
  unfold Obligations.ExactlyTheMappedOpcodesAreAssigned
  exact ⟨fun w args => (decode_eq_unassigned_iff w args).trans (ofCode_eq_none_iff _), by decide +kernel⟩

/-! ## Ignored bits -/

theorem fieldOP_and (w m : Word) : fieldOP (w &&& m) = fieldOP w &&& fieldOP m := by
  simp only [fieldOP, BitVec.toNat_and]
  exact Nat.and_div_two_pow (n := 24)

theorem fieldCH_and (w m : Word) : fieldCH (w &&& m) = fieldCH w &&& fieldCH m := by
  simp only [fieldCH, BitVec.toNat_and]
  rw [Nat.and_div_two_pow (n := 16)]
  exact Nat.and_mod_two_pow (n := 8)

theorem fieldA_and (w m : Word) : fieldA (w &&& m) = fieldA w &&& fieldA m := by
  simp only [fieldA, BitVec.toNat_and]
  rw [Nat.and_div_two_pow (n := 8)]
  exact Nat.and_mod_two_pow (n := 8)

theorem fieldB_and (w m : Word) : fieldB (w &&& m) = fieldB w &&& fieldB m := by
  simp only [fieldB, BitVec.toNat_and]
  exact Nat.and_mod_two_pow (n := 8)

theorem fieldD16_and (w m : Word) : fieldD16 (w &&& m) = fieldD16 w &&& fieldD16 m := by
  simp only [fieldD16, BitVec.toNat_and]
  exact Nat.and_mod_two_pow (n := 16)

/-- A mask that has every bit of a field leaves the field as it is. -/
theorem fieldOP_mask (w : Word) {m : Word} (h : fieldOP m = 255) : fieldOP (w &&& m) = fieldOP w := by
  rw [fieldOP_and, h]
  exact Nat.and_two_pow_sub_one_of_lt_two_pow (n := 8) (fieldOP_lt w)

theorem fieldCH_mask (w : Word) {m : Word} (h : fieldCH m = 255) : fieldCH (w &&& m) = fieldCH w := by
  rw [fieldCH_and, h]
  exact Nat.and_two_pow_sub_one_of_lt_two_pow (n := 8) (fieldCH_lt w)

theorem fieldA_mask (w : Word) {m : Word} (h : fieldA m = 255) : fieldA (w &&& m) = fieldA w := by
  rw [fieldA_and, h]
  exact Nat.and_two_pow_sub_one_of_lt_two_pow (n := 8) (fieldA_lt w)

theorem fieldB_mask (w : Word) {m : Word} (h : fieldB m = 255) : fieldB (w &&& m) = fieldB w := by
  rw [fieldB_and, h]
  exact Nat.and_two_pow_sub_one_of_lt_two_pow (n := 8) (fieldB_lt w)

theorem fieldD16_mask (w : Word) {m : Word} (h : fieldD16 m = 65535) : fieldD16 (w &&& m) = fieldD16 w := by
  rw [fieldD16_and, h]
  exact Nat.and_two_pow_sub_one_of_lt_two_pow (n := 16) (fieldD16_lt w)

/-- Every format uses the opcode byte (R141). -/
theorem opcodeOf_usedBits (w : Word) (op : Opcode) : opcodeOf (w &&& op.usedBits) = opcodeOf w := by
  rw [opcodeOf, fieldOP_mask w (by cases op <;> rfl), opcodeOf]

/-- The fields an opcode reads lie in the bits its format uses (R142, R149). -/
theorem assemble_usedBits (op : Opcode) (w : Word) (args : List Word) :
    assemble op ((w &&& op.usedBits) :: args) = assemble op (w :: args) := by
  cases op <;>
    simp only [assemble, argWord, Opcode.usedBits, List.getD_cons_zero, List.getD_cons_succ]
  case setWaveform => rw [fieldB_mask w rfl]
  case setFilterCutoff | setEnvelope => rw [fieldCH_mask w rfl]
  case registerSample | noteOn | controlChange => rw [fieldCH_mask w rfl, fieldA_mask w rfl, fieldB_mask w rfl]
  case unregisterSample => rw [fieldD16_mask w rfl]
  case noteOff => rw [fieldCH_mask w rfl, fieldA_mask w rfl]
  case channelPressure => rw [fieldCH_mask w rfl, fieldB_mask w rfl]
  case pitchBend => rw [fieldCH_mask w rfl, fieldD16_mask w rfl]

/-- A word is its four bytes (R141). -/
theorem toNat_eq_fields (w : Word) :
    w.toNat = fieldOP w * 16777216 + fieldCH w * 65536 + fieldA w * 256 + fieldB w := by
  unfold fieldOP fieldCH fieldA fieldB; omega

/-- A mask without the opcode byte shares no bit with a word where every other byte is 0 in one of the two. -/
theorem and_eq_zero_of_fields {w m : Word} (hop : fieldOP m = 0) (hch : fieldCH w = 0 ∨ fieldCH m = 0)
    (ha : fieldA w = 0 ∨ fieldA m = 0) (hb : fieldB w = 0 ∨ fieldB m = 0) : w &&& m = 0#32 := by
  have zero : ∀ {x y : Nat}, x = 0 ∨ y = 0 → x &&& y = 0 := by rintro x y (rfl | rfl) <;> simp
  apply BitVec.eq_of_toNat_eq
  rw [toNat_eq_fields, fieldOP_and, fieldCH_and, fieldA_and, fieldB_and, hop, Nat.and_zero, zero hch, zero ha, zero hb]
  rfl

/-- Every byte the encoder leaves out of word 0 is 0 (R142, R149). -/
theorem encode_ignoredBits {i : Instr} (h : i.wellFormed = true) :
    argWord (encode i) 0 &&& ~~~ i.opcode.usedBits = 0#32 := by
  have hop := opcode_code_lt i.opcode
  have zero : 0 < 256 := by decide
  cases i <;>
    simp only [Instr.wellFormed, fits8, fits16, Bool.and_eq_true, decide_eq_true_eq] at h <;>
    simp only [encode, argWord, List.getD_cons_zero, Instr.opcode, Opcode.usedBits] at hop ⊢
  case setWaveform =>
    exact and_eq_zero_of_fields (by decide) (.inl (word0_fieldCH hop zero zero h))
      (.inl (word0_fieldA hop zero zero h)) (.inr (by decide))
  case setFilterCutoff | setEnvelope =>
    exact and_eq_zero_of_fields (by decide) (.inr (by decide)) (.inl (word0_fieldA hop h zero zero))
      (.inl (word0_fieldB hop h zero zero))
  case unregisterSample =>
    exact and_eq_zero_of_fields (by decide) (.inl (word0_fieldCH_d16 hop zero h)) (.inr (by decide))
      (.inr (by decide))
  case noteOff =>
    exact and_eq_zero_of_fields (by decide) (.inr (by decide)) (.inr (by decide))
      (.inl (word0_fieldB hop h.1 h.2 zero))
  case channelPressure =>
    exact and_eq_zero_of_fields (by decide) (.inr (by decide)) (.inl (word0_fieldA hop h.1 zero h.2))
      (.inr (by decide))
  case registerSample | noteOn | controlChange | pitchBend => exact BitVec.and_zero
  case start | stop | close | loadWavetable | listSampleNames => decide

/-- Settles O4: every format uses the opcode byte and the fields its opcode reads, and the encoder writes no other. -/
theorem ignoredBitsMakeNoDifference : Obligations.IgnoredBitsMakeNoDifference := by
  unfold Obligations.IgnoredBitsMakeNoDifference
  refine ⟨fun w args op h => ?_, fun i => encode_ignoredBits, fun _ _ _ _ => rfl⟩
  rw [decode_assigned args h, decode_assigned args ((opcodeOf_usedBits w op).trans h), assemble_usedBits]

/-! ## Words the spec writes out -/

/-- Settles O5: the decoder is run on each of the eleven. -/
theorem wordsDecodeAsTheSpecWritesThem : Obligations.WordsDecodeAsTheSpecWritesThem := by
  unfold Obligations.WordsDecodeAsTheSpecWritesThem
  exact ⟨rfl, rfl, rfl, rfl, rfl, rfl, rfl, rfl, rfl, rfl, rfl⟩

end Sys2Proof.Machine
end

section
/-! Framing (R154): what the command processor does with the word at the head of CMDQ. -/

namespace Sys2Proof.Machine

/-! ## Accepting a word -/

/-- A word with an unassigned opcode is consumed alone (R147). -/
theorem acceptWord_unassigned {w : Word} (h : opcodeOf w = none) : acceptWord .idle w = (.idle, none) := by
  simp only [acceptWord, h]

/-- A one-word command is complete at once. -/
theorem acceptWord_single {w : Word} {op : Opcode} (h : opcodeOf w = some op) (hn : op.nargs = 0) :
    acceptWord .idle w = (.idle, some (assemble op [w])) := by
  simp only [acceptWord, h, if_pos hn]

/-- Word 0 of a longer command is collected. -/
theorem acceptWord_first {w : Word} {op : Opcode} (h : opcodeOf w = some op) (hn : op.nargs ≠ 0) :
    acceptWord .idle w = (.collecting op [w], none) := by
  simp only [acceptWord, h, if_neg hn]

/-- An argument word but the last is collected, whatever its bits (R148). -/
theorem acceptWord_middle {op : Opcode} {ws : List Word} (w : Word) (h : ws.length < op.nargs) :
    acceptWord (.collecting op ws) w = (.collecting op (ws ++ [w]), none) := by
  have hl : (ws ++ [w]).length ≠ 1 + op.nargs := by rw [List.length_append, List.length_singleton]; omega
  simp only [acceptWord, if_neg hl]

/-- The last argument word completes its command. -/
theorem acceptWord_last {op : Opcode} {ws : List Word} (w : Word) (h : ws.length = op.nargs) :
    acceptWord (.collecting op ws) w = (.collecting op (ws ++ [w]), some (assemble op (ws ++ [w]))) := by
  have hl : (ws ++ [w]).length = 1 + op.nargs := by rw [List.length_append, List.length_singleton, h, Nat.add_comm]
  simp only [acceptWord, if_pos hl]

/-! ## The step that takes a word -/

section
variable {s : State} {w : Word} {q : List Word} {d : Dec}

/-- A word that completes no command only moves G.DEC. -/
theorem step_of_accept_none (hp : processorMoves s) (hw : s.work = []) (hq : s.cmdq = w :: q)
    (ha : acceptWord s.dec w = (d, none)) : step s = .next { s with turns := s.turns.tail, cmdq := q, dec := d } := by
  simp only [step_processor hp, processorStep, hw, hq, ha]

/-- A word that completes a command runs it (R154). -/
theorem step_of_accept_some {i : Instr} (hp : processorMoves s) (hw : s.work = []) (hq : s.cmdq = w :: q)
    (ha : acceptWord s.dec w = (d, some i)) :
    step s = retireNext (exec i { s with turns := s.turns.tail, cmdq := q, dec := d }) := by
  simp only [step_processor hp, processorStep, hw, hq, ha]

end

/-- The words of one whole command are those of its opcode, all of them (R140, R155). -/
theorem decode_whole {ws : List Word} {i : Instr} {op : Opcode} (hop : opcodeOf (argWord ws 0) = some op)
    (h : decode ws = .ok (i, [])) : ws.length = 1 + op.nargs ∧ i = assemble op ws := by
  obtain ⟨w, args, op', rfl, hop', hn, rfl, hrest⟩ := decode_ok h
  obtain rfl : op = op' := Option.some.inj (hop.symm.trans hop')
  have hle : args.length ≤ op.nargs := List.drop_eq_nil_iff.1 hrest.symm
  exact ⟨by rw [List.length_cons]; omega, by rw [List.take_of_length_le hle]⟩

/-- Settles O6: a word that decodes alone is complete at once, and one that completes the collected words is the last. -/
theorem stepRunsTheDecodedCommand : Obligations.StepRunsTheDecodedCommand := by
  unfold Obligations.StepRunsTheDecodedCommand
  intro s w q i hp hw hq
  refine ⟨fun hd h => ?_, fun op ws hd hne hop h => ?_⟩
  · obtain ⟨_, _, op, hws, hop, -⟩ := decode_ok h
    obtain ⟨rfl, rfl⟩ := List.cons.inj hws
    obtain ⟨hlen, rfl⟩ := decode_whole (ws := [w]) hop h
    exact step_of_accept_some hp hw hq (hd ▸ acceptWord_single hop (by simpa using hlen))
  · have hop' : opcodeOf (argWord (ws ++ [w]) 0) = some op := by
      rwa [argWord, List.getD_append _ _ _ _ (List.length_pos_of_ne_nil hne)]
    obtain ⟨hlen, rfl⟩ := decode_whole hop' h
    exact step_of_accept_some hp hw hq (hd ▸ acceptWord_last w (by simpa [Nat.add_comm] using hlen))

/-- Settles O7: with no word there is nothing to do, and the three other cases are those of a word that completes no
command. -/
theorem decoderCollectsAndConsumesWords : Obligations.DecoderCollectsAndConsumesWords := by
  unfold Obligations.DecoderCollectsAndConsumesWords
  intro s hp hw
  refine ⟨fun hq => ?_, fun w q hq => ⟨fun hd h => ?_, fun op hd h hn => ?_, fun op ws hd h => ?_⟩⟩
  · simp only [step_processor hp, processorStep, hw, hq]
  · exact step_of_accept_none hp hw hq (hd ▸ acceptWord_unassigned h)
  · exact step_of_accept_none hp hw hq (hd ▸ acceptWord_first h hn)
  · exact step_of_accept_none hp hw hq (hd ▸ acceptWord_middle w h)

end Sys2Proof.Machine
end

section
/-! LIST_SAMPLE_NAMES (R340, R151, R396): the response word by word, its length, and the write points that push it. -/

namespace Sys2Proof.Machine

/-! ## The response -/

/-- A data word is its four bytes, the lowest one first (R151). -/
theorem nameWord_eq_append (nm : List Byte) (q : Nat) :
    nameWord nm q = nm.getD (4 * q + 3) 0#8 ++ nm.getD (4 * q + 2) 0#8 ++ nm.getD (4 * q + 1) 0#8 ++
      nm.getD (4 * q) 0#8 := by
  apply BitVec.eq_of_toNat_eq
  simp only [nameWord, nameByte, BitVec.toNat_append, BitVec.toNat_ofNat]
  generalize nm.getD (4 * q) 0#8 = b0
  generalize nm.getD (4 * q + 1) 0#8 = b1
  generalize nm.getD (4 * q + 2) 0#8 = b2
  generalize nm.getD (4 * q + 3) 0#8 = b3
  have h0 := b0.isLt; have h1 := b1.isLt; have h2 := b2.isLt; have h3 := b3.isLt
  rw [← Nat.shiftLeft_add_eq_or_of_lt h2, ← Nat.shiftLeft_add_eq_or_of_lt h1, ← Nat.shiftLeft_add_eq_or_of_lt h0]
  simp only [Nat.shiftLeft_eq]
  omega

/-- The records are those of the list's elements at their indices, one after another. -/
theorem nameRecords_eq_flatten (L : Lib) (P : Params) : ∀ (rs : List Region) (i : Nat),
    nameRecords L P i rs = ((rs.zipIdx i).map fun p => nameRecord (reportedName L P p.2 p.1)).flatten
  | [], _ => rfl
  | r :: rs, i => by
    rw [nameRecords, nameRecords_eq_flatten L P rs (i + 1), List.zipIdx_cons, List.map_cons, List.flatten_cons]

/-- No reported name is empty (R151). -/
theorem reportedName_nonempty (P : Params) (i : Nat) (r : Region) : 1 ≤ (reportedName lib P i r).length := by
  unfold reportedName
  split
  · next h => exact h
  · exact (placeholderName_length P.nameMax i).1

/-- A reported name takes at most `ceil(NAME_MAX / 4)` data words (R396). -/
theorem nameRecord_length_le {P : Params} (hP : 1 ≤ P.nameMax) (i : Nat) {r : Region}
    (hr : r.name.length ≤ P.nameMax) :
    (nameRecord (reportedName lib P i r)).length ≤ 1 + (P.nameMax + 3) / 4 := by
  have hname : (reportedName lib P i r).length ≤ 4 * ((P.nameMax + 3) / 4) := by
    unfold reportedName
    split
    · omega
    · exact (placeholderName_length P.nameMax i).2 hP
  rw [nameRecord_length]; omega

/-- The records of a list take at most that for each of its elements. -/
theorem nameRecords_length_le {P : Params} (hP : 1 ≤ P.nameMax) : ∀ (rs : List Region) (i : Nat),
    (∀ r ∈ rs, r.name.length ≤ P.nameMax) → (nameRecords lib P i rs).length ≤ rs.length * (1 + (P.nameMax + 3) / 4)
  | [], _, _ => Nat.zero_le _
  | r :: rs, i, h => by
    have hhead := nameRecord_length_le hP i (h r List.mem_cons_self)
    have htail := nameRecords_length_le hP rs (i + 1) fun x hx => h x (List.mem_cons_of_mem _ hx)
    rw [nameRecords, List.length_append, List.length_cons, Nat.succ_mul]
    omega

/-- The bound of R396 on the whole response. -/
theorem namesResponse_length_le {P : Params} {rs : List Region} (hP : 1 ≤ P.nameMax) (hrs : rs.length ≤ P.rMax)
    (h : ∀ r ∈ rs, r.name.length ≤ P.nameMax) :
    (namesResponse lib P rs).length ≤ 1 + P.rMax * (1 + (P.nameMax + 3) / 4) := by
  have hrecords := (nameRecords_length_le hP rs 0 h).trans (Nat.mul_le_mul_right _ hrs)
  rw [namesResponse, List.length_cons]
  omega

/-! ## The write points -/

/-- Responds with room for all of them push their words in order (R150). -/
theorem runWork_responds (L : Lib) : ∀ (ws : List Word) {s : State}, s.work = ws.map WriteOp.respond →
    s.respq.length + ws.length ≤ s.cfg.respDepth →
    runWork L ws.length s = { s with work := [], respq := s.respq ++ ws }
  | [], s, hw, _ => by
    rw [List.append_nil, ← show s.work = [] from hw]; rfl
  | w :: ws, s, hw, hroom => by
    rw [List.length_cons] at hroom
    rw [List.length_cons, runWork_succ, workStep_respond hw (by omega), runWork_responds L ws rfl]
    · simp
    · change (s.respq ++ [w]).length + ws.length ≤ s.cfg.respDepth
      rw [List.length_append, List.length_singleton]; omega

/-- Settles O37: the response is the model's own, said byte by byte; it is pushed by responds, and its length is
bounded record by record. -/
theorem listSampleNamesReportsTheList : Obligations.ListSampleNamesReportsTheList := by
  unfold Obligations.ListSampleNamesReportsTheList
  refine ⟨fun w args h => ?_, fun s hw => ?_⟩
  · rw [decode_assigned args (opcodeOf_of_fieldOP (o := .listSampleNames) h)]
    simp [Opcode.nargs, assemble]
  · intro nameOf dataWord record response
    have hrecord : ∀ nm, record nm = nameRecord nm := fun nm => by
      have hdata : dataWord nm = nameWord nm := funext fun q => (nameWord_eq_append nm q).symm
      simp only [record, hdata]; rfl
    have hresponse : response = namesResponse lib s.cfg s.regions := by
      simp only [response, hrecord, namesResponse, nameRecords_eq_flatten]; rfl
    rw [hresponse]
    refine ⟨fun hroom => ⟨_, rfl, ?_⟩, fun r i => reportedName_nonempty s.cfg i r, namesResponse_length_le⟩
    rw [runWork_responds lib (namesResponse lib s.cfg s.regions) (s := listSampleNames lib s) rfl hroom, hw]
    rfl

end Sys2Proof.Machine
end

section
/-! The harmonic limit (R181): the integer search finds the exact real floor. -/

namespace Sys2Proof.Machine

/-- `f(n)` in exact real arithmetic (R181). -/
noncomputable def fundamental (n : ℕ) : ℝ := 440 * 2 ^ (((n : ℝ) - 69) / 12)

theorem fundamental_pos (n : ℕ) : 0 < fundamental n := by unfold fundamental; positivity

/-- The twelfth power of a fundamental is rational: what the integer comparison of `harmonicFits` rests on. -/
theorem fundamental_pow_twelve (n : ℕ) : fundamental n ^ 12 * 2 ^ 69 = 440 ^ 12 * 2 ^ n := by
  have hroot : ((2 : ℝ) ^ (((n : ℝ) - 69) / 12)) ^ 12 * 2 ^ 69 = 2 ^ n := by
    rw [← Real.rpow_natCast, ← Real.rpow_mul (by norm_num), ← Real.rpow_natCast 2 69, ← Real.rpow_add (by norm_num),
      ← Real.rpow_natCast 2 n]
    congr 1
    push_cast
    ring
  rw [fundamental, mul_pow, mul_assoc, hroot]

/-- No fundamental is below 8 Hz. -/
theorem eight_le_fundamental (n : ℕ) : 8 ≤ fundamental n := by
  refine le_of_pow_le_pow_left₀ (n := 12) (by norm_num) (fundamental_pos n).le ?_
  have htwo : (1 : ℝ) ≤ 2 ^ n := one_le_pow₀ (by norm_num)
  have hpow := fundamental_pow_twelve n
  norm_num at hpow ⊢
  linarith

/-- A rate above 0.0 is its pattern's units over 2^149. -/
theorem rateUnits_eq {sr : F32} (hsr : 0 < toRat sr) : (rateUnits sr : ℝ) = (toRat sr : ℝ) * (unitsPerOne : ℝ) := by
  have hunits := toRat_mul_units (x := sr)
  rw [valUnits, isNeg_of_toRat_pos hsr] at hunits
  exact_mod_cast hunits.symm

/-- The integer comparison is the real one: harmonic h of the fundamental is at most the Nyquist frequency (R181). -/
theorem harmonicFits_iff {sr : F32} (hsr : 0 < toRat sr) (n h : ℕ) :
    harmonicFits n sr h = true ↔ (h : ℝ) ≤ (toRat sr : ℝ) / 2 / fundamental n := by
  have hrate : (0 : ℝ) < toRat sr := Rat.cast_pos.2 hsr
  have hf := fundamental_pos n
  have hunits : (0 : ℝ) < (unitsPerOne : ℝ) := by norm_num
  have hnat : harmonicFits n sr h = true ↔
      ((880 * h * unitsPerOne : ℝ)) ^ 12 * 2 ^ n ≤ (rateUnits sr : ℝ) ^ 12 * 2 ^ 69 := by
    rw [harmonicFits, decide_eq_true_eq]; exact_mod_cast Iff.rfl
  have hpow : ((880 * h * unitsPerOne : ℝ)) ^ 12 * 2 ^ n = (2 * h * fundamental n * unitsPerOne) ^ 12 * 2 ^ 69 := by
    calc ((880 * h * unitsPerOne : ℝ)) ^ 12 * 2 ^ n = (2 * h * unitsPerOne) ^ 12 * (440 ^ 12 * 2 ^ n) := by ring
      _ = (2 * h * fundamental n * unitsPerOne) ^ 12 * 2 ^ 69 := by rw [← fundamental_pow_twelve]; ring
  rw [hnat, hpow, rateUnits_eq hsr, mul_le_mul_iff_left₀ (by positivity),
    pow_le_pow_iff_left₀ (by positivity) (by positivity) (by norm_num), mul_le_mul_iff_left₀ hunits, le_div_iff₀ hf]
  constructor <;> intro hle <;> linarith

/-- Bit by bit the search reaches the greatest harmonic that fits. -/
theorem harmonicSearch_eq {n : ℕ} {sr : F32} {top : ℕ} (hfits : ∀ h, harmonicFits n sr h = true ↔ h ≤ top) :
    ∀ (k base : ℕ), base ≤ top → top < base + 2 ^ k → harmonicSearch n sr k base = top
  | 0, base, hlow, hhigh => by rw [harmonicSearch]; omega
  | k + 1, base, hlow, hhigh => by
    rw [Nat.pow_succ] at hhigh
    rw [harmonicSearch]
    split
    · next h => exact harmonicSearch_eq hfits k _ ((hfits _).1 h) (by omega)
    · next h => exact harmonicSearch_eq hfits k _ hlow (Nat.lt_of_not_le fun hle => h ((hfits _).2 hle))

/-- Settles O58: the comparison in integers is the one in reals, and the floor is below the 2^125 that the search spans. -/
theorem harmonicLimitIsTheExactFloor : Obligations.HarmonicLimitIsTheExactFloor := by
  unfold Obligations.HarmonicLimitIsTheExactFloor
  intro n sr _ hpos
  obtain ⟨hfin, hsr⟩ := positiveFinite_iff.1 hpos
  change maxH n sr = max 1 ⌊(toRat sr : ℝ) / 2 / fundamental n⌋₊
  have hrate : (0 : ℝ) < toRat sr := Rat.cast_pos.2 hsr
  have hquot : 0 ≤ (toRat sr : ℝ) / 2 / fundamental n := div_nonneg (by positivity) (fundamental_pos n).le
  have hmax : (toRat sr : ℝ) < 2 ^ 128 := by
    have : toRat sr < 2 ^ 128 := (le_abs_self _).trans_lt ((abs_toRat_le_max hfin).trans_lt (by norm_num))
    exact_mod_cast this
  have hspan : (toRat sr : ℝ) / 2 / fundamental n < ((0 + 2 ^ 125 : ℕ) : ℝ) := by
    rw [div_lt_iff₀ (fundamental_pos n)]
    have := eight_le_fundamental n
    push_cast
    linarith
  rw [maxH, harmonicSearch_eq (fun h => (harmonicFits_iff hsr n h).trans (Nat.le_floor_iff hquot).symm) 125 0
    (Nat.zero_le _) ((Nat.floor_lt hquot).2 hspan)]

end Sys2Proof.Machine
end

section
/-! The ideal tables as sums of partials (R182 to R186), and the stored bank that rounds them (R187). -/

namespace Sys2Proof.Machine

/-! ## Partials -/

/-- The amplitude of harmonic h in the ideal table of a kind, where the harmonic limit lets it sound (R182 to R185). -/
noncomputable def partialAmp (k : Kind) (h : ℕ) : ℝ :=
  match k with
  | .sine => if h = 1 then 1 else 0
  | .saw => 1 / h
  | .square => if h % 2 = 1 then 1 / h else 0
  | .triangle => if h % 2 = 1 then (-1) ^ (h / 2) / (h : ℝ) ^ 2 else 0

theorem one_le_maxH (n : ℕ) (sr : F32) : 1 ≤ maxH n sr := le_max_left _ _

/-- The odd numbers up to H, one by one. -/
theorem sum_odd_eq (f : ℕ → ℝ) (H : ℕ) :
    ∑ h ∈ Finset.Icc 1 H, (if h % 2 = 1 then f h else 0) = ∑ m ∈ Finset.range ((H + 1) / 2), f (2 * m + 1) := by
  rw [← Finset.sum_filter]
  refine Finset.sum_nbij' (· / 2) (2 * · + 1) ?_ ?_ ?_ ?_ ?_ <;>
    simp only [Finset.mem_filter, Finset.mem_Icc, Finset.mem_range]
  · intro h hh; omega
  · intro m hm; omega
  · intro h hh; omega
  · intro m hm; omega
  · intro h hh; congr 1; omega

/-- The reduction mod 2048 of R183 to R185 changes no sine: it takes off whole turns. -/
theorem sineOf_eq (h i : ℕ) : sineOf h i = Real.sin (2 * Real.pi * (h * i : ℕ) / 2048) := by
  have hsplit : ((h * i : ℕ) : ℝ) = (h * i % 2048 : ℕ) + 2048 * (h * i / 2048 : ℕ) := by
    exact_mod_cast (Nat.mod_add_div (h * i) 2048).symm
  rw [sineOf, hsplit, ← Real.sin_add_nat_mul_two_pi _ (h * i / 2048)]
  congr 1
  ring

/-- Every ideal table is the sum of its partials up to the harmonic limit. -/
theorem idealReal_eq_sum (k : Kind) (n : ℕ) (sr : F32) (i : ℕ) :
    idealReal k n sr i = ∑ h ∈ Finset.Icc 1 (maxH n sr), partialAmp k h * sineOf h i := by
  cases k with
  | sine =>
    simp only [idealReal, partialAmp, ite_mul, zero_mul, Finset.sum_ite_eq', Finset.mem_Icc, le_refl, one_le_maxH, and_self,
      if_true, sineOf_eq, one_mul]
  | saw => rfl
  | square => simp only [idealReal, partialAmp, Finset.sum_filter, ite_mul, zero_mul]
  | triangle =>
    simp only [idealReal, partialAmp, ite_mul, zero_mul]
    rw [sum_odd_eq fun h => (-1) ^ (h / 2) / (h : ℝ) ^ 2 * sineOf h i]
    refine Finset.sum_congr rfl fun m _ => ?_
    rw [show (2 * m + 1) / 2 = m by omega]

/-- A table whose only partial within the limit is the first one, at amplitude 1, is the sine. -/
theorem idealReal_eq_sine {k : Kind} {n : ℕ} {sr : F32} (hone : partialAmp k 1 = 1)
    (hrest : ∀ h, 1 < h → h ≤ maxH n sr → partialAmp k h = 0) : idealReal k n sr = idealReal .sine n sr := by
  funext i
  rw [idealReal_eq_sum, idealReal_eq_sum]
  refine Finset.sum_congr rfl fun h hh => ?_
  obtain ⟨hlow, hhigh⟩ := Finset.mem_Icc.1 hh
  congr 1
  rcases hlow.eq_or_lt with rfl | hlt
  · rw [hone]; rfl
  · rw [hrest h hlt hhigh]; exact (if_neg hlt.ne').symm

theorem partialAmp_one (k : Kind) : partialAmp k 1 = 1 := by
  cases k <;> norm_num [partialAmp]

/-- Where the limit is 1 every kind is the sine (R183 to R185). -/
theorem idealReal_of_maxH_one {n : ℕ} {sr : F32} (hH : maxH n sr = 1) (k : Kind) : idealReal k n sr = idealReal .sine n sr :=
  idealReal_eq_sine (partialAmp_one k) fun h h1 hle => by omega

/-- Where it is 2, the kinds of odd harmonics are. -/
theorem idealReal_of_maxH_two {n : ℕ} {sr : F32} (hH : maxH n sr = 2) {k : Kind} (heven : partialAmp k 2 = 0) :
    idealReal k n sr = idealReal .sine n sr :=
  idealReal_eq_sine (partialAmp_one k) fun h h1 hle => by
    obtain rfl : h = 2 := by omega
    exact heven

/-! ## Normalisation (R186) -/

theorem tablePeak_isPeakOf (x : ℕ → ℝ) : IsPeakOf x (tablePeak x) :=
  ⟨exists_tablePeak x, fun _ hi => abs_le_tablePeak x hi⟩

/-- A table has one peak. -/
theorem IsPeakOf.eq {x : ℕ → ℝ} {p q : ℝ} (hp : IsPeakOf x p) (hq : IsPeakOf x q) : p = q := by
  obtain ⟨⟨i, hi, rfl⟩, hpmax⟩ := hp
  obtain ⟨⟨j, hj, rfl⟩, hqmax⟩ := hq
  exact le_antisymm (hqmax i hi) (hpmax j hj)

theorem peakFloor_le_half {P : Params} (hP : paramsOk P = true) : (toRat P.peakFloor : ℝ) ≤ 1 / 2 := by
  have hle : fle P.peakFloor fHalf = true := by
    simp only [paramsOk, Bool.and_eq_true] at hP
    simp only [hP]
  have hhalf : toRat fHalf = 1 / 2 := by rw [toRat_of_units (v := 2 ^ 148) (by decide)]; norm_num
  rw [fle_iff (positiveFinite_iff.1 (paramsInRange hP).peakFloor).1 (by decide), hhalf] at hle
  simpa using (Rat.cast_le (K := ℝ)).2 hle

/-- Two tables of one ideal have one normalised ideal. -/
theorem idealValue_congr (P : Params) {sr sr' : F32} {k k' : Kind} {n n' : Key}
    (h : idealReal k n.toNat sr = idealReal k' n'.toNat sr') : idealValue P sr k n = idealValue P sr' k' n' := by
  funext i; rw [idealValue, idealValue, h]

/-- The sine's peak is 1, at the first quarter of the cycle. -/
theorem tablePeak_sine (n : ℕ) (sr : F32) : tablePeak (idealReal .sine n sr) = 1 := by
  refine (tablePeak_isPeakOf _).eq ⟨⟨512, by norm_num, ?_⟩, fun i _ => Real.abs_sin_le_one _⟩
  rw [idealReal, show 2 * Real.pi * ((512 : ℕ) : ℝ) / 2048 = Real.pi / 2 by push_cast; ring, Real.sin_pi_div_two, abs_one]

/-- Normalising leaves the sine as it is. -/
theorem idealValue_sine {P : Params} (hP : paramsOk P = true) (sr : F32) (n : Key) (i : ℕ) :
    idealValue P sr .sine n i = Real.sin (2 * Real.pi * (i : ℝ) / 2048) := by
  have := peakFloor_le_half hP
  rw [idealValue, tablePeak_sine, max_eq_left (by linarith), div_one, idealReal]

/-! ## The stored bank (R187) -/

/-- Admissible parameters leave room for a genRound, so the machine's bank is one that R187 admits. -/
theorem lib_bank_isStoredBank {P : Params} (hP : paramsOk P = true) : IsStoredBank P (lib.bank P) := by
  have hlow : toRat 0x33800000#32 = 1 / 2 ^ 24 := by rw [toRat_of_units (v := 2 ^ 125) (by decide)]; norm_num
  obtain ⟨-, htol, -⟩ := (between_iff (a := 0x33800000#32) (b := 0x38D1B717#32) (by decide) (by decide)).1
    ⟨(paramsInRange hP).genTol_ge, (paramsInRange hP).genTol_le⟩
  exact storedBank_isStoredBank (hlow ▸ htol)

theorem table_ext {t u : Table} (h : ∀ i, i < 2048 → tableAt t i = tableAt u i) : t = u := by
  refine Vector.ext fun i hi => ?_
  simpa [tableAt, hi] using h i hi

/-- Tables of one normalised ideal are stored alike. -/
theorem IsStoredBank.table_eq {P : Params} {bank : F32 → Kind → Key → Table} (hbank : IsStoredBank P bank) {sr sr' : F32}
    {k k' : Kind} {n n' : Key} (h : idealValue P sr k n = idealValue P sr' k' n') : bank sr k n = bank sr' k' n' := by
  obtain ⟨genRound, -, hval⟩ := hbank
  exact table_ext fun i hi => by rw [hval sr k n i hi, hval sr' k' n' i hi, h]

/-- A stored value lies within GEN_TOL of its ideal one. -/
theorem IsStoredBank.abs_sub_le {P : Params} {bank : F32 → Kind → Key → Table} (hbank : IsStoredBank P bank) (sr : F32)
    (k : Kind) (n : Key) {i : ℕ} (hi : i < 2048) :
    |(toRat (tableAt (bank sr k n) i) : ℝ) - idealValue P sr k n i| ≤ (toRat P.genTol : ℝ) := by
  obtain ⟨genRound, hround, hval⟩ := hbank
  rw [hval sr k n i hi]
  exact (hround sr k n i hi).2

/-- Settles O59: the bank's own genRound is the one that is asked for, the sine keeps its values, and tables with one ideal are
stored alike. -/
theorem storedBankRoundsTheIdealTables : Obligations.StoredBankRoundsTheIdealTables := by
  unfold Obligations.StoredBankRoundsTheIdealTables
  intro P hP
  have hbank := lib_bank_isStoredBank hP
  have hsine : ∀ (sr sr' : F32) (n n' : Key), idealValue P sr .sine n = idealValue P sr' .sine n' := fun sr sr' n n' => by
    funext i; rw [idealValue_sine hP, idealValue_sine hP]
  refine ⟨?_, fun sr => ⟨fun n i hi => ?_, fun n n' sr' => hbank.table_eq (hsine ..), fun n hH k => ?_,
    fun n hH => ⟨?_, ?_⟩⟩⟩
  · obtain ⟨genRound, hround, hval⟩ := hbank
    refine ⟨genRound, fun sr k n p hp i hi => ?_⟩
    have hpeak := hp.eq (tablePeak_isPeakOf _)
    intro y
    have hy : y = idealValue P sr k n i := by rw [idealValue, ← hpeak]
    rw [hy]
    exact ⟨hval sr k n i hi, hround sr k n i hi⟩
  · rw [← idealValue_sine hP sr n i]
    exact hbank.abs_sub_le sr .sine n hi
  · exact hbank.table_eq (idealValue_congr P (idealReal_of_maxH_one hH k))
  · exact hbank.table_eq (idealValue_congr P (idealReal_of_maxH_two hH (by simp [partialAmp])))
  · exact hbank.table_eq (idealValue_congr P (idealReal_of_maxH_two hH (by simp [partialAmp])))

end Sys2Proof.Machine
end

section
/-! The spectrum of a stored table and its peak (R189): sampled sines of different harmonics are orthogonal, and no ideal
table is near zero. -/

namespace Sys2Proof.Machine

/-! ## Orthogonality of the sampled harmonics -/

/-- The powers of a 2048th root of unity other than 1 add up to zero. -/
theorem sum_exp_harmonic {k : ℕ} (h0 : 0 < k) (hk : k < 2048) :
    ∑ i ∈ Finset.range 2048, Complex.exp ((2 * Real.pi * (k * i : ℕ) / 2048 : ℝ) * Complex.I) = 0 := by
  have hroot := Complex.isPrimitiveRoot_exp 2048 (by norm_num)
  have hne : Complex.exp (2 * Real.pi * Complex.I / (2048 : ℕ)) ^ k ≠ 1 := hroot.pow_ne_one_of_pos_of_lt h0.ne' hk
  have hterm : ∀ i : ℕ, Complex.exp ((2 * Real.pi * (k * i : ℕ) / 2048 : ℝ) * Complex.I) =
      (Complex.exp (2 * Real.pi * Complex.I / (2048 : ℕ)) ^ k) ^ i := fun i => by
    rw [← pow_mul, ← Complex.exp_nat_mul]
    congr 1
    push_cast
    ring
  rw [Finset.sum_congr rfl fun i _ => hterm i, geom_sum_eq hne, ← pow_mul, mul_comm k, pow_mul, hroot.pow_eq_one, one_pow,
    sub_self, zero_div]

theorem sum_cos_harmonic {k : ℕ} (h0 : 0 < k) (hk : k < 2048) :
    ∑ i ∈ Finset.range 2048, Real.cos (2 * Real.pi * (k * i : ℕ) / 2048) = 0 := by
  have h := congrArg Complex.re (sum_exp_harmonic h0 hk)
  simpa only [Complex.re_sum, Complex.exp_ofReal_mul_I_re, Complex.zero_re] using h

theorem sum_sin_harmonic {k : ℕ} (h0 : 0 < k) (hk : k < 2048) :
    ∑ i ∈ Finset.range 2048, Real.sin (2 * Real.pi * (k * i : ℕ) / 2048) = 0 := by
  have h := congrArg Complex.im (sum_exp_harmonic h0 hk)
  simpa only [Complex.im_sum, Complex.exp_ofReal_mul_I_im, Complex.zero_im] using h

section
variable {h m : ℕ}

theorem harmonicAngle_sub (hlt : h < m) (i : ℕ) : 2 * Real.pi * ((m - h) * i : ℕ) / 2048 =
    2 * Real.pi * (m * i : ℕ) / 2048 - 2 * Real.pi * (h * i : ℕ) / 2048 := by
  push_cast [Nat.cast_sub hlt.le]; ring

theorem harmonicAngle_add (i : ℕ) : 2 * Real.pi * ((m + h) * i : ℕ) / 2048 =
    2 * Real.pi * (m * i : ℕ) / 2048 + 2 * Real.pi * (h * i : ℕ) / 2048 := by
  push_cast; ring

/-- A product of two harmonics is a mean of their difference and their sum. -/
theorem sineOf_mul_sin (hlt : h < m) (i : ℕ) : sineOf h i * Real.sin (2 * Real.pi * (m * i : ℕ) / 2048) =
    1 / 2 * (Real.cos (2 * Real.pi * ((m - h) * i : ℕ) / 2048) - Real.cos (2 * Real.pi * ((m + h) * i : ℕ) / 2048)) := by
  rw [sineOf_eq, harmonicAngle_sub hlt, harmonicAngle_add, Real.cos_sub, Real.cos_add]
  ring

theorem sineOf_mul_cos (hlt : h < m) (i : ℕ) : sineOf h i * Real.cos (2 * Real.pi * (m * i : ℕ) / 2048) =
    1 / 2 * (Real.sin (2 * Real.pi * ((m + h) * i : ℕ) / 2048) - Real.sin (2 * Real.pi * ((m - h) * i : ℕ) / 2048)) := by
  rw [sineOf_eq, harmonicAngle_sub hlt, harmonicAngle_add, Real.sin_sub, Real.sin_add]
  ring

/-- A partial has no sine and no cosine component at a higher harmonic of the 1024 that 2048 samples can tell apart. -/
theorem sum_sineOf_mul_sin (hlt : h < m) (hm : m ≤ 1024) :
    ∑ i ∈ Finset.range 2048, sineOf h i * Real.sin (2 * Real.pi * (m * i : ℕ) / 2048) = 0 := by
  rw [Finset.sum_congr rfl fun i _ => sineOf_mul_sin hlt i, ← Finset.mul_sum, Finset.sum_sub_distrib,
    sum_cos_harmonic (by omega) (by omega), sum_cos_harmonic (by omega) (by omega), sub_self, mul_zero]

theorem sum_sineOf_mul_cos (hlt : h < m) (hm : m ≤ 1024) :
    ∑ i ∈ Finset.range 2048, sineOf h i * Real.cos (2 * Real.pi * (m * i : ℕ) / 2048) = 0 := by
  rw [Finset.sum_congr rfl fun i _ => sineOf_mul_cos hlt i, ← Finset.mul_sum, Finset.sum_sub_distrib,
    sum_sin_harmonic (by omega) (by omega), sum_sin_harmonic (by omega) (by omega), sub_self, mul_zero]

end

/-- What is orthogonal to every partial of a table is orthogonal to the table. -/
theorem sum_idealValue_mul_eq_zero (P : Params) {sr : F32} {k : Kind} {n : Key} {w : ℕ → ℝ}
    (h : ∀ j ≤ maxH n.toNat sr, ∑ i ∈ Finset.range 2048, sineOf j i * w i = 0) :
    ∑ i ∈ Finset.range 2048, idealValue P sr k n i * w i = 0 := by
  have hreal : ∑ i ∈ Finset.range 2048, idealReal k n.toNat sr i * w i = 0 := by
    simp only [idealReal_eq_sum, Finset.sum_mul, mul_assoc]
    rw [Finset.sum_comm]
    refine Finset.sum_eq_zero fun j hj => ?_
    rw [← Finset.mul_sum, h j (Finset.mem_Icc.1 hj).2, mul_zero]
  simp only [idealValue, div_mul_eq_mul_div, ← Finset.sum_div, hreal, zero_div]

/-- Values within a tolerance of a table that is orthogonal to `w` add up, weighted by `w`, to no more than their errors. -/
theorem abs_sum_mul_le {x y w : ℕ → ℝ} {tol : ℝ} {N : ℕ} (hxy : ∀ i < N, |x i - y i| ≤ tol) (hw : ∀ i, |w i| ≤ 1)
    (hy : ∑ i ∈ Finset.range N, y i * w i = 0) : |∑ i ∈ Finset.range N, x i * w i| ≤ N * tol := by
  have herr : ∑ i ∈ Finset.range N, x i * w i = ∑ i ∈ Finset.range N, (x i - y i) * w i := by
    simp only [sub_mul, Finset.sum_sub_distrib, hy, sub_zero]
  have hterm : ∀ i ∈ Finset.range N, |(x i - y i) * w i| ≤ tol := fun i hi => by
    rw [abs_mul]
    exact (mul_le_of_le_one_right (abs_nonneg _) (hw i)).trans (hxy i (Finset.mem_range.1 hi))
  calc |∑ i ∈ Finset.range N, x i * w i| ≤ ∑ i ∈ Finset.range N, |(x i - y i) * w i| := herr ▸ Finset.abs_sum_le_sum_abs _ _
    _ ≤ N * tol := by simpa using Finset.sum_le_card_nsmul _ _ _ hterm

/-! ## The peak of an ideal table -/

theorem alternatingSum_succ (f : ℕ → ℝ) (n : ℕ) : ∑ i ∈ Finset.range (n + 1), (-1) ^ i * f i =
    f 0 - ∑ i ∈ Finset.range n, (-1) ^ i * f (i + 1) := by
  simp only [Finset.sum_range_succ', pow_succ, mul_neg_one, neg_mul, Finset.sum_neg_distrib, pow_zero, one_mul]
  ring

/-- An alternating sum of falling magnitudes lies between 0 and its first term. -/
theorem alternatingSum_between {f : ℕ → ℝ} (hf : Antitone f) (h0 : ∀ i, 0 ≤ f i) (n : ℕ) :
    0 ≤ ∑ i ∈ Finset.range n, (-1) ^ i * f i ∧ ∑ i ∈ Finset.range n, (-1) ^ i * f i ≤ f 0 := by
  induction n generalizing f with
  | zero => simpa using h0 0
  | succ n ih =>
    obtain ⟨hlow, hhigh⟩ := ih (f := fun i => f (i + 1)) (fun a b hab => hf (by omega)) fun i => h0 _
    have hstep : f 1 ≤ f 0 := hf (by omega)
    rw [alternatingSum_succ]
    constructor <;> linarith

theorem sub_le_alternatingSum {f : ℕ → ℝ} (hf : Antitone f) (h0 : ∀ i, 0 ≤ f i) (n : ℕ) :
    f 0 - f 1 ≤ ∑ i ∈ Finset.range (n + 1), (-1) ^ i * f i := by
  rw [alternatingSum_succ]
  exact sub_le_sub_left (alternatingSum_between (f := fun i => f (i + 1)) (fun a b hab => hf (by omega)) (fun i => h0 _) n).2 _

/-- A quarter of the way round, an even harmonic is at zero. -/
theorem sineOf_quarter_even (m : ℕ) : sineOf (2 * m) 512 = 0 := by
  rw [sineOf_eq, show 2 * Real.pi * ((2 * m * 512 : ℕ) : ℝ) / 2048 = m * Real.pi by push_cast; ring, Real.sin_nat_mul_pi]

/-- A quarter of the way round, the odd harmonics are at 1 and -1 in turn. -/
theorem sineOf_quarter_odd (m : ℕ) : sineOf (2 * m + 1) 512 = (-1) ^ m := by
  rw [sineOf_eq, show 2 * Real.pi * (((2 * m + 1) * 512 : ℕ) : ℝ) / 2048 = Real.pi / 2 + m * Real.pi by push_cast; ring,
    Real.sin_add_nat_mul_pi, Real.sin_pi_div_two, mul_one]

/-- A quarter of the way round only the odd harmonics are left. -/
theorem idealReal_quarter (k : Kind) (n : ℕ) (sr : F32) : idealReal k n sr 512 =
    ∑ m ∈ Finset.range ((maxH n sr + 1) / 2), partialAmp k (2 * m + 1) * (-1) ^ m := by
  have hodd : ∀ h, partialAmp k h * sineOf h 512 = if h % 2 = 1 then partialAmp k h * sineOf h 512 else 0 := fun h => by
    split
    · rfl
    · rw [show h = 2 * (h / 2) by omega, sineOf_quarter_even, mul_zero]
  rw [idealReal_eq_sum, Finset.sum_congr rfl fun h _ => hodd h, sum_odd_eq fun h => partialAmp k h * sineOf h 512]
  simp only [sineOf_quarter_odd]

/-- The saw and the square have there an alternating sum, `1 - 1/3 + 1/5 - ...`. -/
theorem half_le_quarter_of_alternating {k : Kind} (hk : ∀ m : ℕ, partialAmp k (2 * m + 1) = 1 / (2 * m + 1 : ℕ)) (n : ℕ)
    (sr : F32) : 1 / 2 ≤ idealReal k n sr 512 := by
  have hcount : (maxH n sr + 1) / 2 = (maxH n sr - 1) / 2 + 1 := by have := one_le_maxH n sr; omega
  have hfalls : Antitone fun m : ℕ => (1 : ℝ) / (2 * m + 1 : ℕ) := fun a b hab => by
    refine one_div_le_one_div_of_le (by positivity) ?_
    exact_mod_cast (by omega : 2 * a + 1 ≤ 2 * b + 1)
  have hsum := sub_le_alternatingSum hfalls (fun m => by positivity) ((maxH n sr - 1) / 2)
  simp only [idealReal_quarter, hk, hcount, mul_comm _ ((-1 : ℝ) ^ _)]
  norm_num at hsum ⊢
  linarith

/-- The triangle's odd partials there are all positive, and the first one is 1. -/
theorem half_le_quarter_triangle (n : ℕ) (sr : F32) : 1 / 2 ≤ idealReal .triangle n sr 512 := by
  have hterm : ∀ m : ℕ, partialAmp .triangle (2 * m + 1) * (-1) ^ m = 1 / ((2 * m + 1 : ℕ) : ℝ) ^ 2 := fun m => by
    rw [partialAmp, if_pos (by omega), show (2 * m + 1) / 2 = m by omega, div_mul_eq_mul_div, ← mul_pow, neg_one_mul, neg_neg,
      one_pow]
  have hfirst := Finset.single_le_sum (f := fun m : ℕ => (1 : ℝ) / ((2 * m + 1 : ℕ) : ℝ) ^ 2) (fun m _ => by positivity)
    (Finset.mem_range.2 (by have := one_le_maxH n sr; omega : 0 < (maxH n sr + 1) / 2))
  simp only [idealReal_quarter, hterm]
  norm_num at hfirst ⊢
  linarith

/-- No ideal table is near zero (R186): a quarter of the way round each is at least a half. -/
theorem half_le_tablePeak (k : Kind) (n : ℕ) (sr : F32) : 1 / 2 ≤ tablePeak (idealReal k n sr) := by
  have hquarter : ∀ k', 1 / 2 ≤ idealReal k' n sr 512 → 1 / 2 ≤ tablePeak (idealReal k' n sr) := fun k' h =>
    (h.trans (le_abs_self _)).trans (abs_le_tablePeak _ (by norm_num))
  cases k with
  | sine => rw [tablePeak_sine]; norm_num
  | saw => exact hquarter _ (half_le_quarter_of_alternating (fun m => rfl) n sr)
  | square => exact hquarter _ (half_le_quarter_of_alternating (fun m => by rw [partialAmp, if_pos (by omega)]) n sr)
  | triangle => exact hquarter _ (half_le_quarter_triangle n sr)

/-- So PEAK_FLOOR changes no ideal value, and the normalised peak is 1 (R186). -/
theorem exists_idealValue_abs_eq_one {P : Params} (hP : paramsOk P = true) (sr : F32) (k : Kind) (n : Key) :
    ∃ i, i < 2048 ∧ |idealValue P sr k n i| = 1 := by
  obtain ⟨i, hi, hpeak⟩ := exists_tablePeak (idealReal k n.toNat sr)
  have hhalf := half_le_tablePeak k n.toNat sr
  refine ⟨i, hi, ?_⟩
  rw [idealValue, max_eq_left ((peakFloor_le_half hP).trans hhalf), abs_div, hpeak, abs_of_pos (by linarith),
    div_self (by linarith)]

/-- Settles O60: the ideal table has peak 1 and is orthogonal to the harmonics above its limit, and each stored value is within
GEN_TOL of it. -/
theorem generatedTablesHaveUnitPeakAndNoHighHarmonics : Obligations.GeneratedTablesHaveUnitPeakAndNoHighHarmonics := by
  unfold Obligations.GeneratedTablesHaveUnitPeakAndNoHighHarmonics
  intro P sr k n hP T
  have hnear : ∀ i < 2048, |T i - idealValue P sr k n i| ≤ (toRat P.genTol : ℝ) := fun i hi =>
    (lib_bank_isStoredBank hP).abs_sub_le sr k n hi
  refine ⟨fun i hi => ?_, ?_, fun _ m hlow hhigh => ⟨?_, ?_⟩⟩
  · have herr := (abs_sub_abs_le_abs_sub _ _).trans (hnear i hi)
    have hideal := idealValue_abs_le P sr k n hi
    linarith
  · obtain ⟨i, hi, hone⟩ := exists_idealValue_abs_eq_one hP sr k n
    have herr := (abs_sub_abs_le_abs_sub _ _).trans ((abs_sub_comm _ _).trans_le (hnear i hi))
    exact ⟨i, hi, by linarith⟩
  · exact_mod_cast abs_sum_mul_le hnear (fun i => Real.abs_sin_le_one _)
      (sum_idealValue_mul_eq_zero P fun j hj => sum_sineOf_mul_sin (hj.trans_lt hlow) hhigh)
  · exact_mod_cast abs_sum_mul_le hnear (fun i => Real.abs_cos_le_one _)
      (sum_idealValue_mul_eq_zero P fun j hj => sum_sineOf_mul_cos (hj.trans_lt hlow) hhigh)

end Sys2Proof.Machine
end

section
/-! Sample regions (R201, R204, R205): the region of a note, the band of a frequency, and the recurrences of a band. -/

namespace Sys2Proof.Machine

/-! ## Region match (R204) -/

theorem covers_iff (r : Region) (note : Key) :
    covers r note = true ↔ r.lo.toNat ≤ note.toNat ∧ note.toNat ≤ r.hi.toNat := by
  simp [covers]

theorem covers_eq_false_of_hi_lt_lo {r : Region} (h : r.hi.toNat < r.lo.toNat) (note : Key) : covers r note = false :=
  Bool.eq_false_iff.2 fun hc => by
    obtain ⟨hlo, hhi⟩ := (covers_iff r note).1 hc
    omega

theorem firstRegion_eq_some_iff {rs : List Region} {note : Key} {r : Region} :
    firstRegion rs note = some r ↔
      ∃ j, rs[j]? = some r ∧ covers r note = true ∧
        ∀ (i : Nat) (r' : Region), i < j → rs[i]? = some r' → ¬covers r' note = true := by
  rw [firstRegion, List.find?_eq_some_iff_getElem]
  constructor
  · rintro ⟨hr, j, hj, rfl, hmin⟩
    refine ⟨j, List.getElem?_eq_getElem hj, hr, fun i r' hi hr' hc => ?_⟩
    obtain ⟨_, rfl⟩ := List.getElem?_eq_some_iff.1 hr'
    simpa [hc] using hmin i hi
  · rintro ⟨j, hj, hr, hmin⟩
    obtain ⟨hjlt, hjr⟩ := List.getElem?_eq_some_iff.1 hj
    refine ⟨hr, j, hjlt, hjr, fun i hi => ?_⟩
    simpa using hmin i _ hi (List.getElem?_eq_getElem (hi.trans hjlt))

theorem firstRegion_eq_none_iff {rs : List Region} {note : Key} :
    firstRegion rs note = none ↔ ∀ r ∈ rs, ¬covers r note = true :=
  List.find?_eq_none

/-- Settles O51: `find?` stops at the least index, and no note is between LO and HI where LO is above HI. -/
theorem firstCoveringRegionWins : Obligations.FirstCoveringRegionWins := by
  unfold Obligations.FirstCoveringRegionWins
  intro rs note
  refine ⟨fun r => ?_, ?_, fun r h => covers_eq_false_of_hi_lt_lo h note⟩
  · simp only [firstRegion_eq_some_iff, covers_iff, and_assoc]
  · simp only [firstRegion_eq_none_iff, covers_iff]

/-! ## Band selection (R205) -/

/-- The band before its clamp: the nearest octave, centred at 5. -/
theorem bandIndex_cast (L : Lib) (freq rootFreq : F32) :
    ((bandIndex L freq rootFreq : ℕ) : ℤ) =
      min (max (ffloor (fadd (L.flog2 (fdiv freq rootFreq)) fHalf) + 5) 0) 10 :=
  Int.toNat_of_nonneg (le_min (le_max_right _ _) (by decide))

/-- Settles O52: the index is the clamped octave, below, above and inside the clamp's range. -/
theorem bandIndexIsTheClampedNearestOctave : Obligations.BandIndexIsTheClampedNearestOctave := by
  unfold Obligations.BandIndexIsTheClampedNearestOctave
  intro L freq rootFreq b
  have hclamp : (bandIndex L freq rootFreq : ℤ) = min (max b 0) 10 := bandIndex_cast L freq rootFreq
  refine ⟨bandIndex_le L freq rootFreq, fun hlow => ?_, fun hhigh => ?_, fun hlow hhigh => ?_⟩ <;> omega

/-! ## Band construction (R201) -/

theorem onePole_getD_zero (alpha st : F32) {xs : List F32} (h : 0 < xs.length) :
    (onePole alpha st xs).getD 0 f0 = fadd st (fmul alpha (fsub (xs.getD 0 f0) st)) := by
  cases xs with
  | nil => cases h
  | cons => rfl

/-- Each value after the first is a step from the value before it. -/
theorem onePole_getD_succ (alpha : F32) : ∀ (xs : List F32) (st : F32) (i : ℕ), i + 1 < xs.length →
    (onePole alpha st xs).getD (i + 1) f0 =
      fadd ((onePole alpha st xs).getD i f0)
        (fmul alpha (fsub (xs.getD (i + 1) f0) ((onePole alpha st xs).getD i f0)))
  | x :: _, st, 0, h => onePole_getD_zero alpha (fadd st (fmul alpha (fsub x st))) (Nat.lt_of_succ_lt_succ h)
  | x :: xs, st, i + 1, h =>
    onePole_getD_succ alpha xs (fadd st (fmul alpha (fsub x st))) i (Nat.lt_of_succ_lt_succ h)

/-- The reversed pass read at an index: the pass over the reversed input, read from its other end. -/
theorem twoPass_getD (alpha : F32) (xs : List F32) {i : ℕ} (h : i < xs.length) :
    (twoPass alpha xs).getD i f0 =
      (onePole alpha f0 (onePole alpha f0 xs).reverse).getD (xs.length - 1 - i) f0 := by
  rw [twoPass, List.getD_reverse _ (by simpa [onePole_length] using h)]
  simp only [onePole_length, List.length_reverse]

theorem twoPass_getD_last (alpha : F32) {xs : List F32} {n : ℕ} (hn : xs.length = n + 1) :
    (twoPass alpha xs).getD n f0 = fadd f0 (fmul alpha (fsub ((onePole alpha f0 xs).getD n f0) f0)) := by
  have hlen : (onePole alpha f0 xs).length = n + 1 := (onePole_length alpha xs f0).trans hn
  rw [twoPass_getD alpha xs (by omega), show xs.length - 1 - n = 0 by omega,
    onePole_getD_zero _ _ (by simp [hlen]), List.getD_reverse _ (by omega), hlen]
  rfl

/-- Each value before the last is a step from the value after it. -/
theorem twoPass_getD_of_succ_lt (alpha : F32) {xs : List F32} {i : ℕ} (h : i + 1 < xs.length) :
    (twoPass alpha xs).getD i f0 =
      fadd ((twoPass alpha xs).getD (i + 1) f0)
        (fmul alpha (fsub ((onePole alpha f0 xs).getD i f0) ((twoPass alpha xs).getD (i + 1) f0))) := by
  have hlen : (onePole alpha f0 xs).length = xs.length := onePole_length alpha xs f0
  have hrev : (onePole alpha f0 xs).reverse.getD (xs.length - 1 - (i + 1) + 1) f0 = (onePole alpha f0 xs).getD i f0 := by
    rw [List.getD_reverse _ (by omega), hlen]
    congr 1
    omega
  rw [twoPass_getD alpha xs h, twoPass_getD alpha xs (by omega),
    show xs.length - 1 - i = xs.length - 1 - (i + 1) + 1 by omega,
    onePole_getD_succ _ _ _ _ (by rw [List.length_reverse, hlen]; omega), hrev]

theorem buildBands_getD (L : Lib) (P : Params) (x : Table) (root : ℕ) (sr : F32) {b : ℕ} (hb : b ≤ 10) :
    (buildBands L P x root sr).toArray.toList.getD b zeroTable = buildBand L P x root sr b := by
  interval_cases b <;> rfl

theorem tableAt_buildBand (L : Lib) (P : Params) (x : Table) (root : ℕ) (sr : F32) (b i : ℕ) :
    tableAt (buildBand L P x root sr b) i =
      (twoPass (onePoleCoef L (bandCutoff L P root b sr) sr) x.toArray.toList).getD i f0 := rfl

/-- Settles O53: Y is the forward pass and Z the band itself, and each pass is its recurrence, value by value. -/
theorem bandsAreTwoOnePolePasses : Obligations.BandsAreTwoOnePolePasses := by
  unfold Obligations.BandsAreTwoOnePolePasses
  intro L P X root sr b hb nyq rootFreq centerFreq cutoff alpha
  have hlen : X.toArray.toList.length = 2047 + 1 := by simp
  refine ⟨fun i => (onePole alpha f0 X.toArray.toList).getD i f0, fun i => (twoPass alpha X.toArray.toList).getD i f0,
    onePole_getD_zero alpha f0 (by omega), fun i hi => onePole_getD_succ alpha _ f0 i (by omega),
    twoPass_getD_last alpha hlen, fun i hi => twoPass_getD_of_succ_lt alpha (by omega), fun i _ => ?_⟩
  rw [buildBands_getD L P X root sr hb]
  exact tableAt_buildBand L P X root sr b i

end Sys2Proof.Machine
end

section
/-! Samples and the normalised table (R226, R229): a 16-bit sample is exact, and division by the peak gives unit peak. -/

namespace Sys2Proof.Machine

/-! ## 16-bit samples (R226) -/

theorem isFinite_f32768 : isFinite f32768 = true := by decide

theorem toRat_f32768 : toRat f32768 = 32768 := by
  rw [toRat_of_units (v := 32768 * 2 ^ 149) (by decide)]; norm_num

theorem signed16_natAbs_le {v : ℕ} (h : v < 65536) : (signed16 v).natAbs ≤ 32768 := by
  rw [signed16]; split <;> omega

/-- `signed16` is the two's complement value of the 16 bits. -/
theorem signed16_eq_toInt {v : ℕ} (h : v < 65536) : signed16 v = (BitVec.ofNat 16 v).toInt := by
  rw [signed16, BitVec.toInt_eq_toNat_cond, BitVec.toNat_ofNat, Nat.mod_eq_of_lt h]
  split <;> split <;> omega

/-- Dividing an integer of at most 16 bits by 32768 is exact. -/
theorem fdiv_f32768_exact {k : ℤ} (hk : k.natAbs ≤ 32768) :
    isFinite (fdiv (ofInt k) f32768) = true ∧ toRat (fdiv (ofInt k) f32768) = (k : ℚ) / 32768 := by
  obtain ⟨hf, hv⟩ := ofInt_exact k (by omega)
  have hround := roundOf_fdiv hf isFinite_f32768 (by rw [toRat_f32768]; norm_num)
  rw [hv, toRat_f32768] at hround
  have hk' : |(k : ℚ)| ≤ 32768 := by
    rw [← Int.cast_abs, Int.abs_eq_natAbs]; exact_mod_cast hk
  refine hround.exact_of_exists (exists_toRat_eq (k := k) (e := 134) (by omega) (by norm_num; ring) ?_)
  rw [abs_div]
  norm_num
  linarith

/-- Settles O56: the integer converts exactly and dividing it by 2^15 loses no bit. -/
theorem pcmSamplesAreExact : Obligations.PcmSamplesAreExact := by
  unfold Obligations.PcmSamplesAreExact
  intro B p
  have hlt : leBytes B p 2 < 65536 := leBytes_lt B 2 p
  rw [← signed16_eq_toInt hlt]
  exact fdiv_f32768_exact (signed16_natAbs_le hlt)

/-! ## Unit peak (R229) -/

theorem toList_eq_map_tableAt (t : Table) : t.toArray.toList = (List.range 2048).map (tableAt t) :=
  List.ext_getElem (by simp) fun i h _ => by
    have hi : i < 2048 := by simpa using h
    simp [tableAt_eq t hi]

/-- The peak of a table, index by index. -/
theorem peakOf_table (t : Table) :
    peakOf t.toArray.toList = (List.range 2048).foldl (fun p j => fmax p (fabs (tableAt t j))) f0 := by
  rw [toList_eq_map_tableAt, peakOf, List.foldl_map]

/-- The greatest magnitude is the starting value or one of the magnitudes. -/
theorem foldl_fmax_eq : ∀ (xs : List F32) (p : F32), isNaN p = false → (∀ x ∈ xs, isNaN x = false) →
    xs.foldl (fun p x => fmax p (fabs x)) p = p ∨ ∃ x ∈ xs, xs.foldl (fun p x => fmax p (fabs x)) p = fabs x
  | [], _, _, _ => .inl rfl
  | x :: xs, p, hp, hxs => by
    obtain ⟨hx, hxs'⟩ := List.forall_mem_cons.1 hxs
    obtain ⟨hmax, hle, -⟩ := fmax_cases hp ((isNaN_fabs x).trans hx)
    rcases foldl_fmax_eq xs (fmax p (fabs x)) (not_nan_of_fle hle).2 hxs' with h | ⟨y, hy, h⟩
    · rcases hmax with e | e
      · exact .inl (h.trans e)
      · exact .inr ⟨x, List.mem_cons_self, h.trans e⟩
    · exact .inr ⟨y, List.mem_cons_of_mem x hy, h⟩

/-- A magnitude is determined by its exact value. -/
theorem fabs_eq_of_abs_toRat {x y : F32} (h : |toRat x| = |toRat y|) : fabs x = fabs y := by
  rw [← toRat_fabs, ← toRat_fabs] at h
  have hkey := le_antisymm ((toRat_le_iff _ _).1 h.le) ((toRat_le_iff _ _).1 h.ge)
  rw [orderKey_eq, orderKey_eq, isNeg_fabs, isNeg_fabs, magBits_fabs, magBits_fabs] at hkey
  exact BitVec.eq_of_toNat_eq (by simpa [fabs_toNat] using hkey)

/-- A value divided by its own magnitude has magnitude 1.0. -/
theorem fabs_fdiv_self {x d : F32} (hx : isFinite x = true) (hd : isFinite d = true) (h0 : 0 < toRat d)
    (h : |toRat x| = toRat d) : fabs (fdiv x d) = f1 := by
  have hone : ∃ y : F32, isFinite y = true ∧ toRat y = toRat x / toRat d := by
    rcases abs_eq h0.le |>.1 h with e | e
    · exact ⟨f1, isFinite_f1, by rw [e, toRat_f1, div_self h0.ne']⟩
    · exact ⟨fneg f1, by decide, by rw [e, toRat_fneg, toRat_f1, neg_div, div_self h0.ne']⟩
  obtain ⟨-, hv⟩ := (roundOf_fdiv hx hd h0.ne').exact_of_exists hone
  exact fabs_eq_of_abs_toRat (y := f1) (by
    rw [hv, abs_div, h, abs_of_pos h0, div_self h0.ne', toRat_f1, abs_one])

/-- Where the peak is at least a positive floor, some value's magnitude is the divisor. -/
theorem exists_abs_eq_normDivisor {P : Params} {r : Table} (hfloor : positiveFinite P.peakFloor = true)
    (hr : ∀ i, i < 2048 → isFinite (tableAt r i) = true) (hpeak : fle P.peakFloor (peakOf r.toArray.toList) = true) :
    ∃ i, i < 2048 ∧ |toRat (tableAt r i)| = toRat (normDivisor P r) := by
  obtain ⟨hff, hf0⟩ := positiveFinite_iff.1 hfloor
  have hfin := (forall_mem_table_iff (p := fun x => isFinite x = true)).2 hr
  have hnan := fun x hx => isNaN_of_finite (hfin x hx)
  have hpf := (foldl_fmax_facts r.toArray.toList f0 (by decide) hnan).2.2 isFinite_f0 hfin
  have hle : toRat P.peakFloor ≤ toRat (peakOf r.toArray.toList) := (fle_iff hff hpf).1 hpeak
  have hd : toRat (normDivisor P r) = toRat (peakOf r.toArray.toList) :=
    (fmax_finite hpf hff).2.trans (max_eq_left hle)
  rcases foldl_fmax_eq r.toArray.toList f0 (by decide) hnan with e | ⟨x, hx, e⟩
  · rw [peakOf, e, toRat_f0] at hle
    exact absurd hf0 hle.not_gt
  · rw [toList_eq_map_tableAt] at hx
    obtain ⟨i, hi, rfl⟩ := List.mem_map.1 hx
    exact ⟨i, List.mem_range.1 hi, by rw [hd, peakOf, e, toRat_fabs]⟩

/-- Settles O57: the magnitudes are at most the divisor, which is the peak's own magnitude where the floor does not exceed
it, and zeros divide to zeros. -/
theorem normalisedTableHasUnitPeak : Obligations.NormalisedTableHasUnitPeak := by
  unfold Obligations.NormalisedTableHasUnitPeak
  intro P r peak
  have hpeak : peak = peakOf r.toArray.toList := (peakOf_table r).symm
  rw [hpeak]
  refine ⟨fun j hj => tableAt_normalise P r hj, fun hfloor hr => ?_⟩
  obtain ⟨hdf, hd0⟩ := normDivisor_positive hfloor hr
  refine ⟨fun j hj => ?_, fun hle => ?_, fun hzero j hj => ?_⟩
  · rw [within_iff isFinite_f1, toRat_f1]
    exact normalise_within hfloor hr hj
  · obtain ⟨j, hj, habs⟩ := exists_abs_eq_normDivisor hfloor hr hle
    exact ⟨j, hj, by rw [tableAt_normalise P r hj, fabs_fdiv_self (hr j hj) hdf hd0 habs]⟩
  · have hx : toRat (tableAt r j) = 0 := by
      rw [(feq_iff (hr j hj) isFinite_f0).1 (hzero j hj), toRat_f0]
    obtain ⟨hf, hv⟩ := (roundOf_fdiv (hr j hj) hdf hd0.ne').exact_of_exists
      ⟨f0, isFinite_f0, by rw [hx, zero_div, toRat_f0]⟩
    rw [tableAt_normalise P r hj, feq_iff hf isFinite_f0, hv, hx, zero_div, toRat_f0]

end Sys2Proof.Machine
end

section
/-! What a buffer parses to (R222 to R226): the conditions of R231, said once for the chunks the walk finds. -/

namespace Sys2Proof.Machine

/-! ## The parts of the parse -/

theorem headerOk_iff (B : Nat → Byte) (len : Nat) :
    headerOk B len = true ↔ 12 ≤ len ∧ leBytes B 0 4 = 0x46464952 ∧ leBytes B 8 4 = 0x45564157 := by
  simp [headerOk, tagAt, tagRiff, tagWave, and_assoc]

/-- The walk's "fmt " chunk ends inside the buffer, like the one it started with. -/
theorem chunkWalk_fmt_inside (B : Nat → Byte) (len : Nat) : ∀ (fuel pos : Nat) (fmt data : Option Chunk),
    (∀ c, fmt = some c → c.body + c.size ≤ len) →
      ∀ c, (chunkWalk B len fuel pos fmt data).1 = some c → c.body + c.size ≤ len
  | 0, _, _, _, h => h
  | fuel + 1, pos, fmt, data, h => by
    unfold chunkWalk
    split
    · dsimp only
      split
      · exact h
      · next hend =>
        refine chunkWalk_fmt_inside B len fuel _ _ _ fun c hc => ?_
        split at hc
        · cases hc; exact not_lt.1 hend
        · exact h c hc
    · exact h

theorem codecOf_eq_some_iff {tag bits : Nat} {codec : Codec} :
    codecOf tag bits = some codec ↔
      (tag = 1 ∧ bits = 16 ∧ codec = .pcm16) ∨ (tag = 3 ∧ bits = 32 ∧ codec = .float32) := by
  unfold codecOf
  split
  · next h => simp [h, eq_comm]
  · next h =>
    split
    · next h' => simp [h', eq_comm]
    · next h' => simp [← and_assoc, h, h']

/-- A format chunk inside the buffer is read whole (R221), so its size, its codec and its channel count decide (R224). -/
theorem parseFmt_eq_some_iff {B : Nat → Byte} {len : Nat} {f : Chunk} {codec : Codec} {channels : Nat}
    (hin : f.body + f.size ≤ len) :
    parseFmt B len f = some (codec, channels) ↔
      16 ≤ f.size ∧ codecOf (leBytes B f.body 2) (leBytes B (f.body + 14) 2) = some codec ∧
        leBytes B (f.body + 2) 2 = channels ∧ channels ≠ 0 := by
  unfold parseFmt
  split
  · next hshort => simp [hshort]
  · next hlong =>
    have hread : ∀ p, p ≤ f.body + 14 → readU16 B len p = some (leBytes B p 2) := fun p hp => if_pos (by omega)
    rw [hread _ (by omega), hread _ (by omega), hread _ (by omega)]
    dsimp only
    cases codecOf (leBytes B f.body 2) (leBytes B (f.body + 14) 2) with
    | none => simp
    | some codec' => split <;> grind

/-- The samples from byte p on are finite exactly when each is (R226). -/
theorem allFinite_iff (B : Nat → Byte) : ∀ (n p : Nat),
    allFinite B n p = true ↔ ∀ k, k < n → isFinite (BitVec.ofNat 32 (leBytes B (p + 4 * k) 4)) = true
  | 0, p => by simp [allFinite]
  | n + 1, p => by
    rw [allFinite, Bool.and_eq_true, allFinite_iff B n (p + 4), Nat.forall_lt_succ_left]
    simp only [Nat.mul_add, Nat.add_assoc, Nat.add_comm 4]
    rfl

/-- A frame stands in the data exactly where the data is as long as one (R225). -/
theorem frameCount_ne_zero_iff {size channels bytes : Nat} (hc : channels ≠ 0) (hb : bytes ≠ 0) :
    size / (channels * bytes) ≠ 0 ↔ bytes * channels ≤ size := by
  rw [Nat.div_ne_zero_iff, Nat.mul_comm]
  exact and_iff_right (Nat.mul_ne_zero hb hc)

/-! ## The frames of two chunks -/

/-- The frames that a format chunk f and a data chunk d describe in a codec (R225). -/
def framesOf (B : Nat → Byte) (f d : Chunk) (codec : Codec) : Frames :=
  { codec := codec, channels := leBytes B (f.body + 2) 2,
    count := d.size / (leBytes B (f.body + 2) 2 * codec.bytes), body := d.body }

/-- What R224 to R226 ask of the two chunks, by codec: a whole format chunk, at least one channel, at least one whole frame,
and finite float samples. -/
inductive ChunksHold (B : Nat → Byte) (f d : Chunk) : Frames → Prop
  | pcm16 (hsize : 16 ≤ f.size) (hchannels : leBytes B (f.body + 2) 2 ≠ 0)
      (htag : leBytes B f.body 2 = 1) (hbits : leBytes B (f.body + 14) 2 = 16)
      (hframe : 2 * leBytes B (f.body + 2) 2 ≤ d.size) : ChunksHold B f d (framesOf B f d .pcm16)
  | float32 (hsize : 16 ≤ f.size) (hchannels : leBytes B (f.body + 2) 2 ≠ 0)
      (htag : leBytes B f.body 2 = 3) (hbits : leBytes B (f.body + 14) 2 = 32)
      (hframe : 4 * leBytes B (f.body + 2) 2 ≤ d.size)
      (hfinite : ∀ k, k < d.size / (leBytes B (f.body + 2) 2 * 4) * leBytes B (f.body + 2) 2 →
        isFinite (BitVec.ofNat 32 (leBytes B (d.body + 4 * k) 4)) = true) :
      ChunksHold B f d (framesOf B f d .float32)

/-- The two codecs' conditions are the parse's checks. -/
theorem chunksHold_iff {B : Nat → Byte} {f d : Chunk} {fr : Frames} :
    ChunksHold B f d fr ↔
      16 ≤ f.size ∧ leBytes B (f.body + 2) 2 ≠ 0 ∧
        ∃ codec, codecOf (leBytes B f.body 2) (leBytes B (f.body + 14) 2) = some codec ∧
          (framesOf B f d codec).count ≠ 0 ∧ samplesFinite B (framesOf B f d codec) = true ∧ fr = framesOf B f d codec := by
  constructor
  · intro h
    cases h with
    | pcm16 hsize hc htag hbits hframe =>
      exact ⟨hsize, hc, .pcm16, codecOf_eq_some_iff.2 (.inl ⟨htag, hbits, rfl⟩),
        (frameCount_ne_zero_iff hc (by decide)).2 hframe, rfl, rfl⟩
    | float32 hsize hc htag hbits hframe hfinite =>
      exact ⟨hsize, hc, .float32, codecOf_eq_some_iff.2 (.inr ⟨htag, hbits, rfl⟩),
        (frameCount_ne_zero_iff hc (by decide)).2 hframe, (allFinite_iff B _ _).2 hfinite, rfl⟩
  · rintro ⟨hsize, hc, codec, hcodec, hcount, hfinite, rfl⟩
    rcases codecOf_eq_some_iff.1 hcodec with ⟨htag, hbits, rfl⟩ | ⟨htag, hbits, rfl⟩
    · exact .pcm16 hsize hc htag hbits ((frameCount_ne_zero_iff hc (by decide)).1 hcount)
    · exact .float32 hsize hc htag hbits ((frameCount_ne_zero_iff hc (by decide)).1 hcount)
        ((allFinite_iff B _ _).1 hfinite)

section
variable {B : Nat → Byte} {f d : Chunk} {fr : Frames} (h : ChunksHold B f d fr)
include h

theorem ChunksHold.fmt_size : 16 ≤ f.size := (chunksHold_iff.1 h).1

theorem ChunksHold.channels_ne_zero : leBytes B (f.body + 2) 2 ≠ 0 := (chunksHold_iff.1 h).2.1

theorem ChunksHold.codec :
    (leBytes B f.body 2 = 1 ∧ leBytes B (f.body + 14) 2 = 16) ∨
      (leBytes B f.body 2 = 3 ∧ leBytes B (f.body + 14) 2 = 32) := by
  cases h with
  | pcm16 _ _ htag hbits => exact .inl ⟨htag, hbits⟩
  | float32 _ _ htag hbits => exact .inr ⟨htag, hbits⟩

theorem ChunksHold.pcm16_frame (htag : leBytes B f.body 2 = 1) : 2 * leBytes B (f.body + 2) 2 ≤ d.size := by
  cases h with
  | pcm16 _ _ _ _ hframe => exact hframe
  | float32 _ _ htag' => omega

theorem ChunksHold.float32_samples (htag : leBytes B f.body 2 = 3) :
    4 * leBytes B (f.body + 2) 2 ≤ d.size ∧
      ∀ k, k < d.size / (leBytes B (f.body + 2) 2 * 4) * leBytes B (f.body + 2) 2 →
        isFinite (BitVec.ofNat 32 (leBytes B (d.body + 4 * k) 4)) = true := by
  cases h with
  | pcm16 _ _ htag' => omega
  | float32 _ _ _ _ hframe hfinite => exact ⟨hframe, hfinite⟩

end

/-! ## The parse -/

/-- With both chunks found, the parse gives exactly the frames they hold, under a good header. -/
theorem parseWave_eq_some_iff {B : Nat → Byte} {len : Nat} {f d : Chunk} {fr : Frames}
    (hwalk : chunkWalk B len len 12 none none = (some f, some d)) :
    parseWave B len = some fr ↔ headerOk B len = true ∧ ChunksHold B f d fr := by
  have hin : f.body + f.size ≤ len :=
    chunkWalk_fmt_inside B len len 12 none none (fun c h => by cases h) f (by rw [hwalk])
  rw [chunksHold_iff]
  unfold parseWave
  rw [hwalk]
  constructor
  · intro h
    split at h
    · next hheader =>
      dsimp only at h
      split at h
      · next codec channels hfmt =>
        obtain ⟨hsize, hcodec, rfl, hc⟩ := (parseFmt_eq_some_iff hin).1 hfmt
        split at h
        · cases h
        · next hcount =>
          split at h
          · next hfinite => exact ⟨hheader, hsize, hc, codec, hcodec, hcount, hfinite, (Option.some.inj h).symm⟩
          · cases h
      · cases h
    · cases h
  · rintro ⟨hheader, hsize, hc, codec, hcodec, hcount, hfinite, rfl⟩
    rw [if_pos hheader]
    dsimp only
    rw [(parseFmt_eq_some_iff hin).2 ⟨hsize, hcodec, rfl, hc⟩]
    exact (if_neg hcount).trans (if_pos hfinite)

/-- A missing chunk fails the parse (R223). -/
theorem parseWave_eq_none_of_walk {B : Nat → Byte} {len : Nat}
    (h : (chunkWalk B len len 12 none none).1 = none ∨ (chunkWalk B len len 12 none none).2 = none) :
    parseWave B len = none := by
  unfold parseWave
  split
  · split
    · next fmt data hwalk => simp [hwalk] at h
    · rfl
  · rfl

/-- A bad header fails the parse (R222). -/
theorem parseWave_eq_none_of_header {B : Nat → Byte} {len : Nat} (h : ¬headerOk B len = true) : parseWave B len = none :=
  if_neg h

/-- Chunks that hold no frames fail the parse (R224 to R226). -/
theorem parseWave_eq_none_of_chunks {B : Nat → Byte} {len : Nat} {f d : Chunk}
    (hwalk : chunkWalk B len len 12 none none = (some f, some d)) (h : ∀ fr, ¬ChunksHold B f d fr) :
    parseWave B len = none :=
  Option.eq_none_iff_forall_ne_some.2 fun fr hfr => h fr ((parseWave_eq_some_iff hwalk).1 hfr).2

/-! ## The plain layout -/

/-- The walk stops where both chunks are found. -/
theorem chunkWalk_of_both (B : Nat → Byte) (len : Nat) (f d : Chunk) : ∀ fuel pos : Nat,
    chunkWalk B len fuel pos (some f) (some d) = (some f, some d)
  | 0, _ => rfl
  | _ + 1, _ => by simp [chunkWalk]

/-- The walk over a 16-byte "fmt " chunk and then a "data" chunk finds them both. -/
theorem chunkWalk_plain {B : Nat → Byte} {len : Nat} (hfmt : leBytes B 12 4 = 0x20746D66) (hfmtSize : leBytes B 16 4 = 16)
    (hdata : leBytes B 36 4 = 0x61746164) (hend : 44 + leBytes B 40 4 ≤ len) :
    chunkWalk B len len 12 none none = (some ⟨20, 16⟩, some ⟨44, leBytes B 40 4⟩) := by
  obtain ⟨fuel, hfuel⟩ : ∃ fuel, len = fuel + 2 := ⟨len - 2, by omega⟩
  have hfirst : ∀ n, chunkWalk B len (n + 1) 12 none none = chunkWalk B len n 36 (some ⟨20, 16⟩) none := fun n => by
    simp [chunkWalk, hfmt, hfmtSize, tagAt, tagFmt, tagData, show 20 ≤ len by omega, show ¬len < 36 by omega]
  have hsecond : ∀ n, chunkWalk B len (n + 1) 36 (some ⟨20, 16⟩) none =
      chunkWalk B len n (44 + leBytes B 40 4 + leBytes B 40 4 % 2) (some ⟨20, 16⟩) (some ⟨44, leBytes B 40 4⟩) := fun n => by
    simp [chunkWalk, hdata, tagAt, tagFmt, tagData, show 44 ≤ len by omega, show ¬len < 44 + leBytes B 40 4 by omega]
  calc chunkWalk B len len 12 none none = chunkWalk B len (fuel + 1 + 1) 12 none none := by rw [hfuel]
    _ = (some ⟨20, 16⟩, some ⟨44, leBytes B 40 4⟩) := by rw [hfirst, hsecond, chunkWalk_of_both]

/-- Settles O55: the walk finds the two chunks, and the parse gives the frames they hold, or none where they hold none. -/
theorem plainWaveBufferParses : Obligations.PlainWaveBufferParses := by
  unfold Obligations.PlainWaveBufferParses
  rintro B len tag C bits size hriff hwave hfmt hfmtSize rfl rfl rfl hdata rfl hend
  have hwalk := chunkWalk_plain hfmt hfmtSize hdata hend
  have hheader := (headerOk_iff B len).2 ⟨by omega, hriff, hwave⟩
  have hnone := parseWave_eq_none_of_chunks hwalk
  refine ⟨fun htag hbits hC hframe => ?_, fun htag hbits hC hframe hfinite => ?_, fun htag _ _ _ ⟨k, hk, hbad⟩ => ?_,
    fun hpcm hfloat => ?_, fun hC => ?_, fun htag _ hshort => ?_, fun htag _ hshort => ?_⟩
  · exact (parseWave_eq_some_iff hwalk).2 ⟨hheader, .pcm16 le_rfl (Nat.ne_of_gt hC) htag hbits hframe⟩
  · exact (parseWave_eq_some_iff hwalk).2 ⟨hheader, .float32 le_rfl (Nat.ne_of_gt hC) htag hbits hframe hfinite⟩
  · exact hnone fun fr hold => Bool.noConfusion (hbad.symm.trans ((hold.float32_samples htag).2 k hk))
  · exact hnone fun fr hold => hold.codec.elim hpcm hfloat
  · exact hnone fun fr hold => hold.channels_ne_zero hC
  · exact hnone fun fr hold => (hold.pcm16_frame htag).not_gt hshort
  · exact hnone fun fr hold => (hold.float32_samples htag).1.not_gt hshort

end Sys2Proof.Machine
end

section
/-! The loader (R220 to R231): failure's grounds, and the table of the frames a buffer parses to. -/

namespace Sys2Proof.Machine

/-! ## The answer (R220, R221, R231) -/

theorem load_eq_fallback {P : Params} {view : Nat → Byte} {addr len : Nat}
    (h : P.payloadBytes < addr + len ∨ parseWave (fun p => view (addr + p)) len = none) :
    load P view addr len = (fallback, false) := by
  unfold load
  split
  · rfl
  · next hrange => rw [h.resolve_left hrange]

theorem load_eq_table {P : Params} {view : Nat → Byte} {addr len : Nat} {fr : Frames}
    (hrange : addr + len ≤ P.payloadBytes) (hfr : parseWave (fun p => view (addr + p)) len = some fr) :
    load P view addr len = (tableOfFrames P (fun p => view (addr + p)) fr, true) := by
  rw [load, if_neg (not_lt.2 hrange), hfr]

/-- Within payload memory the status is success exactly where the buffer parses. -/
theorem load_success_iff {P : Params} {view : Nat → Byte} {addr len : Nat} (hrange : addr + len ≤ P.payloadBytes) :
    (load P view addr len).2 = true ↔ ∃ fr, parseWave (fun p => view (addr + p)) len = some fr := by
  cases hparse : parseWave (fun p => view (addr + p)) len with
  | none => simp [load_eq_fallback (.inr hparse)]
  | some fr => simp [load_eq_table hrange hparse]

/-- A failure's table is FALLBACK. -/
theorem load_fst_of_failure {P : Params} {view : Nat → Byte} {addr len : Nat} (h : (load P view addr len).2 = false) :
    (load P view addr len).1 = fallback := by
  rcases load_cases P view addr len with ⟨-, e⟩ | ⟨hrange, fr, hfr, -⟩
  · exact e
  · rw [load_eq_table hrange hfr] at h
    cases h

/-! ## The table (R227 to R229) -/

theorem sumChannels_eq_foldl (x : Nat → F32) : ∀ (n c : Nat) (acc : F32),
    sumChannels x n c acc = (List.range n).foldl (fun acc k => fadd acc (x (k + c))) acc
  | 0, _, _ => rfl
  | n + 1, c, acc => by
    rw [sumChannels, sumChannels_eq_foldl x n (c + 1), List.range_succ_eq_map, List.foldl_cons, List.foldl_map]
    simp only [Nat.zero_add, Nat.add_right_comm, Nat.succ_eq_add_one, Nat.add_assoc]

theorem monoAt_eq (B : Nat → Byte) (fr : Frames) (f : Nat) :
    monoAt B fr f =
      fdiv ((List.range (fr.channels - 1)).foldl (fun acc c => fadd acc (frameSample B fr f (c + 1))) (frameSample B fr f 0))
        (ofInt fr.channels) := by
  rw [monoAt, sumChannels_eq_foldl]

/-- The divisor of a tabulated table, index by index. -/
theorem normDivisor_tabulate (P : Params) (x : Nat → F32) :
    normDivisor P (tabulate x) = fmax ((List.range 2048).foldl (fun p j => fmax p (fabs (x j))) f0) P.peakFloor := by
  rw [normDivisor, tabulate, peakOf, List.foldl_map]

theorem tableAt_tableOfFrames (P : Params) (B : Nat → Byte) (fr : Frames) {j : Nat} (hj : j < 2048) :
    tableAt (tableOfFrames P B fr) j =
      fdiv (resampleAt (monoAt B fr) fr.count j)
        (fmax ((List.range 2048).foldl (fun p j => fmax p (fabs (resampleAt (monoAt B fr) fr.count j))) f0) P.peakFloor) := by
  rw [tableOfFrames, tableAt_normalise P _ hj, tableAt_tabulate _ hj, normDivisor_tabulate]

/-- Settles O54: each ground of R231 leaves the parse nothing, with none of them the chunks hold frames, and the table of
parsed frames is written out operation by operation. -/
theorem loaderAnswersItsTableOrTheFallback : Obligations.LoaderAnswersItsTableOrTheFallback := by
  unfold Obligations.LoaderAnswersItsTableOrTheFallback
  intro P view addr len B walk fails nonFiniteAt
  have hfails : parseWave B len = none → fails := fun h => load_eq_fallback (.inr h)
  have hheader : ¬(12 ≤ len ∧ leBytes B 0 4 = 0x46464952 ∧ leBytes B 8 4 = 0x45564157) → fails := fun h =>
    hfails (parseWave_eq_none_of_header (mt (headerOk_iff B len).1 h))
  refine ⟨load_fst_of_failure, fun h => load_eq_fallback (.inl h), fun h => hheader fun ⟨hlen, _, _⟩ => hlen.not_gt h,
    fun h => hheader fun ⟨_, hriff, _⟩ => h hriff, fun h => hheader fun ⟨_, _, hwave⟩ => h hwave,
    fun h => hfails (parseWave_eq_none_of_walk h), fun f d hwalk => ?_, fun hrange => ⟨load_success_iff hrange, ?_⟩⟩
  · have hnone : (∀ fr, ¬ChunksHold B f d fr) → fails := fun h => hfails (parseWave_eq_none_of_chunks hwalk h)
    intro tag C bits
    refine ⟨fun hshort => hnone fun fr hold => hold.fmt_size.not_gt hshort,
      fun hpcm hfloat => hnone fun fr hold => hold.codec.elim hpcm hfloat,
      fun hC => hnone fun fr hold => hold.channels_ne_zero hC,
      fun htag _ hshort => hnone fun fr hold => (hold.pcm16_frame htag).not_gt hshort,
      fun htag _ hshort => hnone fun fr hold => (hold.float32_samples htag).1.not_gt hshort,
      fun htag _ ⟨k, hk, hbad⟩ => hnone fun fr hold =>
        Bool.noConfusion (hbad.symm.trans ((hold.float32_samples htag).2 k hk)),
      fun hrange hlen hriff hwave hsize hC hdata => (load_success_iff hrange).2 ?_⟩
    have hheld : ∃ fr, ChunksHold B f d fr := by
      rcases hdata with ⟨htag, hbits, hframe⟩ | ⟨htag, hbits, hframe, hfinite⟩
      · exact ⟨_, .pcm16 hsize (Nat.ne_of_gt hC) htag hbits hframe⟩
      · exact ⟨_, .float32 hsize (Nat.ne_of_gt hC) htag hbits hframe fun k hk => Bool.not_eq_false _ ▸ hfinite k hk⟩
    obtain ⟨fr, hold⟩ := hheld
    exact ⟨fr, (parseWave_eq_some_iff hwalk).2 ⟨(headerOk_iff B len).2 ⟨hlen, hriff, hwave⟩, hold⟩⟩
  · intro fr hfr x m r peak j hj
    have hm : m = monoAt B fr := funext fun f => (monoAt_eq B fr f).symm
    rw [load_eq_table hrange hfr, tableAt_tableOfFrames P _ fr hj, ← hm]
    rfl

end Sys2Proof.Machine
end

section
/-! The voice step branch by branch (R243 to R256): what it gives where check A retires the voice, where check B does, and
where neither does; the envelope's laws (R251) and the source table's priority (R244, R245). -/

namespace Sys2Proof.Machine

/-! ## The three ends of a voice step -/

section
variable (L : Lib) (P : Params) (g : Snapshot) (c : Channel) (v : Voice)

/-- The voice after steps 1 and 3 (R243, R247), which check A reads. -/
def followedVoice : Voice := { v with phase := advancePhase g.sr c v, amp := followAmp L P g.sr v }

/-- The voice after step 5 (R251), which check B reads. -/
def envelopedVoice : Voice := stepEnvelope L P g.sr c (followedVoice L P g c v)

/-- The input of the filter (R246, R254). -/
def filterInput : F32 :=
  gained c (envelopedVoice L P g c v) (lerp (tableAt (sourceTable L P g v.note (bentFreq c v))) (advancePhase g.sr c v))

/-- The voice after step 8 (R255). -/
def filteredVoice : Voice := stepFilter L P g.sr c (filterInput L P g c v) (envelopedVoice L P g c v)

variable {L P g c v}

/-- Check A retires the voice (R249). -/
theorem voiceStep_of_extinguishA (hA : extinguishA P (followedVoice L P g c v) = true) :
    voiceStep L P g c v = (retireA (followedVoice L P g c v), none) :=
  if_pos hA

/-- Check B retires a voice that check A did not (R252, R253). -/
theorem voiceStep_of_extinguishB (hA : extinguishA P (followedVoice L P g c v) = false)
    (hB : extinguishB P (envelopedVoice L P g c v) = true) :
    voiceStep L P g c v = (retireB (envelopedVoice L P g c v), none) :=
  (if_neg (Bool.eq_false_iff.1 hA)).trans (if_pos hB)

/-- A voice that no check retires contributes its integrator (R256). -/
theorem voiceStep_of_sounding (hA : extinguishA P (followedVoice L P g c v) = false)
    (hB : extinguishB P (envelopedVoice L P g c v) = false) :
    voiceStep L P g c v = (filteredVoice L P g c v, some (filteredVoice L P g c v).fstate) :=
  (if_neg (Bool.eq_false_iff.1 hA)).trans (if_neg (Bool.eq_false_iff.1 hB))

/-- AMP after a voice step: zeroed by check A, else the follower's (R247, R249). -/
theorem voiceStep_amp :
    (voiceStep L P g c v).1.amp =
      if extinguishA P (followedVoice L P g c v) then f0 else followAmp L P g.sr v := by
  cases hA : extinguishA P (followedVoice L P g c v) with
  | true => rw [voiceStep_of_extinguishA hA]; rfl
  | false =>
    cases hB : extinguishB P (envelopedVoice L P g c v) with
    | true => rw [voiceStep_of_extinguishB hA hB]; rfl
    | false => rw [voiceStep_of_sounding hA hB]; rfl

end

/-- Settles O41: every end of the voice step keeps the phase of step 1, and check A alone zeroes AMP. -/
theorem voiceAdvancesPhaseAndFollowsAmplitude : Obligations.VoiceAdvancesPhaseAndFollowsAmplitude := by
  unfold Obligations.VoiceAdvancesPhaseAndFollowsAmplitude
  exact fun L P g c v => ⟨(voiceStep_stepped L P g c v).phase, voiceStep_amp⟩

/-! ## The envelope (R251) -/

/-- The envelope enters no Release and leaves none (R251). -/
theorem nextStage_release_iff (P : Params) (stage : Stage) (level sus : F32) :
    nextStage P stage level sus = .release ↔ stage = .release := by
  cases stage with
  | attack | decay => simp only [nextStage]; split <;> simp
  | sustain | release | idle => simp [nextStage]

/-- Check B after the envelope, by the stage before it (R252). -/
theorem extinguishB_envelopedVoice (L : Lib) (P : Params) (g : Snapshot) (c : Channel) (v : Voice) :
    extinguishB P (envelopedVoice L P g c v) = true ↔
      v.stage = .release ∧ fle (envelopedVoice L P g c v).level P.releaseEps = true := by
  rw [extinguishB, Bool.and_eq_true, decide_eq_true_eq]
  exact and_congr_left' (nextStage_release_iff P v.stage _ c.sus)

/-- Release's step (R251). -/
theorem stepEnvelope_release (L : Lib) (P : Params) (sr : F32) (c : Channel) {v : Voice} (h : v.stage = .release) :
    stepEnvelope L P sr c v =
      { v with level := fclamp (fadd v.level (fmul (tcoef L P c.rel sr) (fsub f0 v.level))) f0 f1 } := by
  rw [stepEnvelope, rawLevel, h]; rfl

/-- Settles O43: each stage picks its own level law and its own transition. -/
theorem envelopeStagesFollowTheirLaws : Obligations.EnvelopeStagesFollowTheirLaws := by
  unfold Obligations.EnvelopeStagesFollowTheirLaws
  intro L P sr c v up
  refine ⟨fun h => ?attack, fun h => ?decay, fun h => ?sustain, stepEnvelope_release L P sr c, fun h => ?idle⟩ <;>
    rw [stepEnvelope, rawLevel, h] <;> rfl

/-! ## Checks A and B (R249, R252, R253) -/

/-- Settles O42: check A ends the step after step 3, and check B after step 5, where the stage is still Release. -/
theorem extinguishChecksRetireTheVoice : Obligations.ExtinguishChecksRetireTheVoice := by
  unfold Obligations.ExtinguishChecksRetireTheVoice
  intro L P g c v silenced
  refine ⟨voiceStep_of_extinguishA, fun hA hstage hlevel => ?_⟩
  have henv : envelopedVoice L P g c v = _ := stepEnvelope_release L P g.sr c hstage
  have hB : extinguishB P (envelopedVoice L P g c v) = true :=
    (extinguishB_envelopedVoice L P g c v).2 ⟨hstage, henv ▸ hlevel⟩
  rw [voiceStep_of_extinguishB hA hB, henv]
  rfl

/-- Settles O44: with both checks false the step ends with step 8, whose fields are read off. -/
theorem soundingVoiceFiltersItsSample : Obligations.SoundingVoiceFiltersItsSample := by
  unfold Obligations.SoundingVoiceFiltersItsSample
  intro L P g c v v3 e hA hrelease
  have hB : extinguishB P (envelopedVoice L P g c v) = false :=
    Bool.eq_false_iff.2 (mt (extinguishB_envelopedVoice L P g c v).1 hrelease)
  exact ⟨_, _, voiceStep_of_sounding hA hB, rfl, rfl, rfl, rfl, rfl, rfl, rfl, rfl, rfl, rfl, rfl⟩

/-! ## The source table (R244, R245) -/

section
variable {L : Lib} {P : Params} {g : Snapshot} {note : Key} {freq : F32}

theorem customActive_iff (g : Snapshot) : customActive g = true ↔ g.sel = .custom ∧ g.cust.valid = true := by
  rw [customActive, Bool.and_eq_true, decide_eq_true_eq]

theorem sourceTable_of_custom (h : customActive g = true) : sourceTable L P g note freq = g.cust.table :=
  if_pos h

theorem sourceTable_of_region (h : customActive g = false) {r : Region} (hr : firstRegion g.regs note = some r) :
    sourceTable L P g note freq = bandTable r (bandIndex L freq r.rootFreq) := by
  rw [sourceTable, if_neg (Bool.eq_false_iff.1 h), hr]

theorem sourceTable_of_bank (h : customActive g = false) (hr : firstRegion g.regs note = none) :
    sourceTable L P g note freq = L.bank P g.bankSr g.sel.kind note := by
  rw [sourceTable, if_neg (Bool.eq_false_iff.1 h), hr]

end

/-- Settles O45: the custom table first, then the covering region's band, then BANK at the selector's kind. -/
theorem sourceTableFollowsThePriority : Obligations.SourceTableFollowsThePriority := by
  unfold Obligations.SourceTableFollowsThePriority
  intro L P g note freq
  refine ⟨fun hsel hvalid => sourceTable_of_custom ((customActive_iff g).2 ⟨hsel, hvalid⟩), fun hinactive => ?_⟩
  have hcustom : customActive g = false := by
    rw [Bool.eq_false_iff, Ne, customActive_iff, not_and_or, Bool.not_eq_true]; exact hinactive
  refine ⟨fun r => sourceTable_of_region hcustom, fun hnone => ?_⟩
  have hbank {k : Kind} (hk : g.sel.kind = k) : sourceTable L P g note freq = L.bank P g.bankSr k note :=
    hk ▸ sourceTable_of_bank hcustom hnone
  exact ⟨fun hsel => hbank (by rcases hsel with h | h <;> rw [h] <;> rfl), fun h => hbank (by rw [h]; rfl),
    fun h => hbank (by rw [h]; rfl), fun h => hbank (by rw [h]; rfl)⟩

end Sys2Proof.Machine
end

section
/-! The tick's frame (R240, R242, R379), the phase's wrap (R243), and the first tick of a velocity-0 note (R294). -/

namespace Sys2Proof.Machine

/-! ## The tick's frame -/

theorem step_tick {s : State} {d : Bool} {ts : List Turn} (h : s.turns = .tick d :: ts) :
    step s = .next (tick d { s with turns := ts }) := by
  simp only [step, h, agentStep]

/-- A tick that does not render delivers +0.0 and changes nothing else (R240). -/
theorem tickWith_of_not_renders {L : Lib} {d : Bool} {s : State} (h : renders s d = false) :
    tickWith L d s = { s with outs := s.outs ++ [f0] } := by
  rw [tickWith, tickResult, if_neg (Bool.eq_false_iff.1 h)]

/-- Settles O38: with PLAYING 0 or no playback the tick does not render. -/
theorem stoppedTickIsSilentAndChangesNothing : Obligations.StoppedTickIsSilentAndChangesNothing := by
  unfold Obligations.StoppedTickIsSilentAndChangesNothing
  intro s d ts hturn hstopped
  have hr : renders { s with turns := ts } d = false := Bool.and_eq_false_iff.2 hstopped
  rw [step_tick hturn, tick, tickWith_of_not_renders hr]

/-- A lane index beyond the lanes reads the empty lane, before and after a tick. -/
theorem tickWith_lane_of_ge (L : Lib) (d : Bool) {s : State} {c : Nat} (h : s.numLanes ≤ c) :
    (tickWith L d s).lane c = s.lane c := by
  have hl : s.lanes.length ≤ c := h
  simp [State.lane, List.getD, hl]

theorem tickWith_chan (L : Lib) (d : Bool) (s : State) (c : Nat) : (tickWith L d s).chan c = s.chan c := by
  unfold State.chan
  rcases Nat.lt_or_ge c s.numLanes with hc | hc
  · rcases tickWith_lane L d hc with e | ⟨-, e⟩ <;> rw [e]
  · rw [tickWith_lane_of_ge L d hc]

theorem tickWith_voice_of_inactive (L : Lib) (d : Bool) {s : State} {c : Nat} (h : (s.voice c).active = false) :
    (tickWith L d s).voice c = s.voice c := by
  unfold State.voice at h ⊢
  rcases Nat.lt_or_ge c s.numLanes with hc | hc
  · rcases tickWith_lane L d hc with e | ⟨hactive, -⟩
    · rw [e]
    · exact absurd hactive (Bool.eq_false_iff.1 h)
  · rw [tickWith_lane_of_ge L d hc]

/-- Settles O39: a tick writes lanes and outputs alone, and of the lanes the voices that are active. -/
theorem tickTouchesOnlyActiveVoices : Obligations.TickTouchesOnlyActiveVoices := by
  unfold Obligations.TickTouchesOnlyActiveVoices
  intro s d ts hturn
  exact ⟨_, step_tick hturn, rfl, tickResult_lanes_length lib { s with turns := ts } d, by simp [tick],
    tickWith_chan lib d { s with turns := ts }, fun v => tickWith_voice_of_inactive lib d (s := { s with turns := ts }),
    fun a => rfl⟩

/-! ## The phase's wrap -/

/-- Settles O49: the whole part comes off exactly, and what is left is the fractional part. -/
theorem phaseWrapIsExactAndInRange : Obligations.PhaseWrapIsExactAndInRange := by
  unfold Obligations.PhaseWrapIsExactAndInRange
  intro p hp h0
  rw [fle_iff isFinite_f0 hp, toRat_f0] at h0
  obtain ⟨hwf, hw⟩ := wrapPhase_exact hp h0
  rw [fle_iff isFinite_f0 hwf, flt_iff hwf isFinite_f1, toRat_f0, toRat_f1, hw]
  exact ⟨hwf, rfl, Int.fract_nonneg _, Int.fract_lt_one _⟩

/-! ## A velocity-0 note (R294) -/

/-- NOTE_ON with operands in range writes its group (R292). -/
theorem noteOn_of_ok (L : Lib) {c note vel : Nat} {s : State} (hc : c < s.numLanes) (hn : note ≤ 127) (hv : vel ≤ 127) :
    noteOn L c note vel s =
      s.setVoice c (startVoice L (keyOf note) (targetOf s.cfg vel) (s.chan c).cutoff (s.voice c)) := by
  simp [noteOn, channelOk, upTo127, hc, hn, hv]

/-- Velocity 0 gives a TARGET of zero. -/
theorem targetOf_zero {P : Params} (hP : paramsOk P = true) :
    isFinite (targetOf P 0) = true ∧ toRat (targetOf P 0) = 0 := by
  have hunit : unit127 0 = f0 := by decide
  have hround := roundOf_fmul isFinite_f0 (headroom_facts hP).1
  rw [toRat_f0, zero_mul, ← toRat_f0] at hround
  rw [targetOf, hunit, ← toRat_f0]
  exact hround.exact isFinite_f0

theorem ampEps_finite {P : Params} (hP : paramsOk P = true) : isFinite P.ampEps = true := by
  simp only [paramsOk, Bool.and_eq_true] at hP
  simp only [hP]

/-- With AMP and TARGET zero the follower stays at zero (R247). -/
theorem followAmp_of_silent {L : Lib} {P : Params} {sr : F32} {v : Voice} (hL : ExpInUnit L) (hP : paramsOk P = true)
    (hsr : rateOk P sr = true) (haf : isFinite v.amp = true) (ha : toRat v.amp = 0) (htf : isFinite v.target = true)
    (ht : toRat v.target = 0) : isFinite (followAmp L P sr v) = true ∧ toRat (followAmp L P sr v) = 0 := by
  have hparams := paramsInRange hP
  have htau : isFinite (if flt v.amp v.target then P.ampTauRiseMs else P.ampTauFallMs) = true := by
    split
    · exact (positiveFinite_iff.1 hparams.ampTauRiseMs).1
    · exact (positiveFinite_iff.1 hparams.ampTauFallMs).1
  have hk := tcoef_inUnit hL hparams.envMinMs (rate_positive hP hsr) htau
  obtain ⟨hf, hlow, hhigh⟩ := follow_fall haf htf hk ht.ge (ht.trans ha.symm).le
  exact ⟨hf, le_antisymm (hhigh.trans ha.le) hlow⟩

/-- Settles O22: AMP and TARGET are zero, so the followed AMP is zero, and check A retires the voice. -/
theorem velocityZeroNoteIsRetiredByItsFirstTick : Obligations.VelocityZeroNoteIsRetiredByItsFirstTick := by
  unfold Obligations.VelocityZeroNoteIsRetiredByItsFirstTick
  intro s c note g hc hnote hamp hP heps hsr
  refine ⟨_, rfl, ?_⟩
  rw [noteOn_of_ok lib hc hnote (Nat.zero_le _), voice_setVoice_same _ hc, chan_setVoice _ hc]
  set v := startVoice lib (keyOf note) (targetOf s.cfg 0) (s.chan c).cutoff (s.voice c)
  obtain ⟨htf, ht⟩ : isFinite v.target = true ∧ toRat v.target = 0 := targetOf_zero hP
  have hv : v.amp = f0 := hamp
  obtain ⟨haf, ha⟩ := followAmp_of_silent (v := v) lib_expInUnit hP hsr (hv ▸ isFinite_f0) (hv ▸ toRat_f0) htf ht
  have hA : extinguishA s.cfg (followedVoice lib s.cfg g (s.chan c) v) = true := by
    refine Bool.and_eq_true_iff.2 ⟨(feq_iff htf isFinite_f0).2 (ht.trans toRat_f0.symm), ?_⟩
    rw [flt_iff isFinite_f0 (ampEps_finite hP), toRat_f0, ← ha] at heps
    exact (flt_iff haf (ampEps_finite hP)).2 heps
  rw [voiceStep_of_extinguishA hA]
  exact ⟨rfl, rfl⟩

end Sys2Proof.Machine
end

section
/-! SUPPORT. The channel commands (44_channel_commands.md): how their words decode, what an admitted command answers, and that
a failed check drops it (R290). -/

namespace Sys2Proof.Machine

/-! ## Words -/

/-- A word with an opcode's code and as many argument words as that opcode needs are its command (R140, R145). -/
theorem decode_of_fieldOP {w : Word} {op : Opcode} {args : List Word} (rest : List Word) (h : fieldOP w = op.code)
    (hlen : args.length = op.nargs) : decode (w :: args ++ rest) = .ok (assemble op (w :: args), rest) :=
  decode_append rest (opcodeOf_of_fieldOP h) hlen

/-! ## Checks (R290) -/

@[simp] theorem channelOk_iff (s : State) (c : Nat) : channelOk s c = true ↔ c < s.numLanes := decide_eq_true_iff

@[simp] theorem upTo127_iff (n : Nat) : upTo127 n = true ↔ n ≤ 127 := decide_eq_true_iff

@[simp] theorem bendOk_iff (n : Nat) : bendOk n = true ↔ n ≤ 16383 := decide_eq_true_iff

/-! ## Dropped commands -/

section
variable {s : State} {c : Nat}

theorem exec_noteOn_of_drop {note vel : Nat} (h : s.numLanes ≤ c ∨ 127 < note ∨ 127 < vel) :
    exec (.noteOn c note vel) s = .next s := by
  have hcheck : ¬(channelOk s c && upTo127 note && upTo127 vel) = true := by
    simpa only [Bool.and_eq_true, channelOk_iff, upTo127_iff, not_and_or, not_lt, not_le, or_assoc] using h
  exact congrArg Host.Outcome.next (if_neg hcheck)

/-- NOTE_OFF is dropped on an inactive voice too (R297). -/
theorem exec_noteOff_of_drop (note : Nat) (h : s.numLanes ≤ c ∨ (s.voice c).active = false) :
    exec (.noteOff c note) s = .next s := by
  have hdrop : noteOff c s = s := by
    rcases noteOff_cases c s with ⟨hc, hactive, -⟩ | hdrop
    · exact absurd hc (by simpa [hactive] using h)
    · exact hdrop
  exact congrArg Host.Outcome.next hdrop

theorem exec_pitchBend_of_drop {value : Nat} (h : s.numLanes ≤ c ∨ 16383 < value) :
    exec (.pitchBend c value) s = .next s := by
  have hcheck : ¬(channelOk s c && bendOk value) = true := by
    simpa only [Bool.and_eq_true, channelOk_iff, bendOk_iff, not_and_or, not_lt, not_le] using h
  exact congrArg Host.Outcome.next (if_neg hcheck)

theorem exec_channelPressure_of_drop {value : Nat} (h : s.numLanes ≤ c ∨ 127 < value) :
    exec (.channelPressure c value) s = .next s := by
  have hcheck : ¬(channelOk s c && upTo127 value) = true := by
    simpa only [Bool.and_eq_true, channelOk_iff, upTo127_iff, not_and_or, not_lt, not_le] using h
  exact congrArg Host.Outcome.next (if_neg hcheck)

theorem exec_controlChange_of_drop {cc value : Nat} (h : s.numLanes ≤ c ∨ 127 < cc ∨ 127 < value) :
    exec (.controlChange c cc value) s = .next s := by
  have hcheck : ¬(channelOk s c && upTo127 cc && upTo127 value) = true := by
    simpa only [Bool.and_eq_true, channelOk_iff, upTo127_iff, not_and_or, not_lt, not_le, or_assoc] using h
  exact congrArg Host.Outcome.next (if_neg hcheck)

theorem exec_setFilterCutoff_of_drop {hz : F32}
    (h : s.numLanes ≤ c ∨ isFinite hz = false ∨ fle (fabs hz) s.cfg.cutoffAbsMax = false) :
    exec (.setFilterCutoff c hz) s = .next s := by
  have hcheck : ¬(channelOk s c && cutoffOk s.cfg hz) = true := by
    simpa only [cutoffOk, Bool.and_eq_true, channelOk_iff, not_and_or, not_lt, Bool.not_eq_true] using h
  exact congrArg Host.Outcome.next (if_neg hcheck)

theorem exec_setEnvelope_of_drop {atk dec sus rel : F32}
    (h : s.numLanes ≤ c ∨ isFinite atk = false ∨ isFinite dec = false ∨ isFinite sus = false ∨ isFinite rel = false) :
    exec (.setEnvelope c atk dec sus rel) s = .next s := by
  have hcheck : ¬(channelOk s c && envelopeOk atk dec sus rel) = true := by
    simpa only [envelopeOk, Bool.and_eq_true, channelOk_iff, not_and_or, not_lt, Bool.not_eq_true, or_assoc] using h
  exact congrArg Host.Outcome.next (if_neg hcheck)

/-- An id above 4 names no selector (R308). -/
theorem waveOf_eq_none {id : Nat} (h : 4 < id) : waveOf id = none := by
  unfold waveOf
  repeat rw [if_neg (by omega)]

theorem exec_setWaveform_of_drop {id : Nat} (h : 4 < id) : exec (.setWaveform id) s = .next s := by
  have hdrop : setWaveform id s = s := by rw [setWaveform, waveOf_eq_none h, drop]
  exact congrArg Host.Outcome.next hdrop

end

/-- Settles O30: each of the eight commands is dropped where one of its checks fails. -/
theorem outOfRangeChannelCommandsAreDropped : Obligations.OutOfRangeChannelCommandsAreDropped := by
  unfold Obligations.OutOfRangeChannelCommandsAreDropped
  exact fun s c => ⟨fun _ _ => exec_noteOn_of_drop, fun note h => exec_noteOff_of_drop note (.inl h),
    fun _ => exec_pitchBend_of_drop, fun _ => exec_channelPressure_of_drop, fun _ _ => exec_controlChange_of_drop,
    fun _ => exec_setFilterCutoff_of_drop, fun _ _ _ _ => exec_setEnvelope_of_drop, fun _ => exec_setWaveform_of_drop⟩

end Sys2Proof.Machine
end

section
/-! The note commands (R292 to R297) and the controller and parameter commands of one write (R300 to R305, R308). -/

namespace Sys2Proof.Machine

/-! ## One write to a lane -/

/-- A command that answers a write to a voice changes that voice and nothing else. -/
theorem exec_onlyVoice {i : Instr} {s : State} {c : Nat} {v : Voice} (hc : c < s.numLanes)
    (h : exec i s = .next (s.setVoice c v)) : ∃ t, exec i s = .next t ∧ OnlyVoice c s t ∧ t.voice c = v :=
  ⟨_, h, setVoice_onlyVoice v hc, voice_setVoice_same v hc⟩

/-- A command that answers a write to a channel register set changes that set and nothing else. -/
theorem exec_onlyChannel {i : Instr} {s : State} {c : Nat} {x : Channel} (hc : c < s.numLanes)
    (h : exec i s = .next (s.setChan c x)) : ∃ t, exec i s = .next t ∧ OnlyChannel c s t ∧ t.chan c = x :=
  ⟨_, h, setChan_onlyChannel x hc, chan_setChan_same x hc⟩

/-! ## Admitted commands -/

section
variable {s : State} {c : Nat} (hc : c < s.numLanes)
include hc

theorem exec_noteOn_of_ok {note vel : Nat} (hn : note ≤ 127) (hv : vel ≤ 127) :
    exec (.noteOn c note vel) s =
      .next (s.setVoice c (startVoice lib (keyOf note) (targetOf s.cfg vel) (s.chan c).cutoff (s.voice c))) :=
  congrArg Host.Outcome.next (noteOn_of_ok lib hc hn hv)

theorem exec_noteOff_of_active (note : Nat) (h : (s.voice c).active = true) :
    exec (.noteOff c note) s = .next (s.setVoice c (releaseVoice (s.voice c))) := by
  have hwrite : noteOff c s = s.setVoice c (releaseVoice (s.voice c)) := by simp [noteOff, hc, h]
  exact congrArg Host.Outcome.next hwrite

theorem exec_pitchBend_of_ok {value : Nat} (h : value ≤ 16383) :
    exec (.pitchBend c value) s = .next (s.setChan c { s.chan c with bend := bendRatio lib value }) := by
  have hwrite : pitchBend lib c value s = s.setChan c { s.chan c with bend := bendRatio lib value } := by
    simp [pitchBend, hc, h]
  exact congrArg Host.Outcome.next hwrite

theorem exec_channelPressure_of_ok {value : Nat} (h : value ≤ 127) :
    exec (.channelPressure c value) s = .next (s.setChan c { s.chan c with at_ := unit127 value }) := by
  have hwrite : channelPressure c value s = s.setChan c { s.chan c with at_ := unit127 value } := by
    simp [channelPressure, hc, h]
  exact congrArg Host.Outcome.next hwrite

theorem exec_controlChange_brightness {value : Nat} (h : value ≤ 127) :
    exec (.controlChange c 74 value) s = .next (s.setChan c { s.chan c with bright := unit127 value }) := by
  have hwrite : controlChange c 74 value s = s.setChan c { s.chan c with bright := unit127 value } := by
    simp [controlChange, hc, h]
  exact congrArg Host.Outcome.next hwrite

theorem exec_setFilterCutoff_of_ok {hz : F32} (hfin : isFinite hz = true)
    (hmax : fle (fabs hz) s.cfg.cutoffAbsMax = true) :
    exec (.setFilterCutoff c hz) s = .next (s.setChan c { s.chan c with cutoff := hz }) := by
  have hwrite : setFilterCutoff c hz s = s.setChan c { s.chan c with cutoff := hz } := by
    simp [setFilterCutoff, cutoffOk, hc, hfin, hmax]
  exact congrArg Host.Outcome.next hwrite

end

/-- A cc other than 74 has no effect, in range or out of it (R304). -/
theorem exec_controlChange_other (s : State) (c : Nat) {cc : Nat} (value : Nat) (h : cc ≠ 74) :
    exec (.controlChange c cc value) s = .next s := by
  have hkeep : controlChange c cc value s = s := by
    rw [controlChange, if_neg h, drop, ite_self]
  exact congrArg Host.Outcome.next hkeep

/-! ## The statements -/

theorem keyOf_toNat {n : Nat} (h : n ≤ 127) : (keyOf n).toNat = n := by
  rw [keyOf, BitVec.toNat_ofNat, Nat.mod_eq_of_lt (by omega)]

/-- Settles O20: an admitted NOTE_ON writes `startVoice`, whose fields are those of R292. -/
theorem noteOnResetsItsVoice : Obligations.NoteOnResetsItsVoice := by
  unfold Obligations.NoteOnResetsItsVoice
  refine ⟨fun w args h => decode_of_fieldOP (op := .noteOn) (args := []) args h rfl, fun s c note vel =>
    ⟨fun hc hn hv => ?_, exec_noteOn_of_drop⟩⟩
  obtain ⟨t, ht, honly, hvoice⟩ := exec_onlyVoice hc (exec_noteOn_of_ok hc hn hv)
  have hkey := keyOf_toNat hn
  refine ⟨t, ht, honly, ?_⟩
  rw [hvoice]
  exact ⟨hkey, congrArg (fun n : Nat => midiToHz lib n) hkey, rfl, rfl, rfl, rfl, rfl, rfl, rfl, rfl⟩

/-- Settles O21: NOTE_OFF writes `releaseVoice` to an active voice and is dropped otherwise. -/
theorem noteOffReleasesAnActiveVoice : Obligations.NoteOffReleasesAnActiveVoice := by
  unfold Obligations.NoteOffReleasesAnActiveVoice
  exact ⟨fun w args h => decode_of_fieldOP (op := .noteOff) (args := []) args h rfl, fun s c note =>
    ⟨fun hc hactive => exec_onlyVoice hc (exec_noteOff_of_active hc note hactive), exec_noteOff_of_drop note⟩⟩

/-- The centre value bends by nothing (R300, R13). -/
theorem bendRatio_center : bendRatio lib 8192 = f1 := by
  have hexponent : bendExponent 8192 = f0 := by decide
  rw [bendRatio, hexponent, fexp2_zero]

/-- Settles O23: the ratio is written as R300 computes it, and at the centre it is `fexp2(0.0)`. -/
theorem pitchBendWritesTheRatio : Obligations.PitchBendWritesTheRatio := by
  unfold Obligations.PitchBendWritesTheRatio
  refine ⟨fun w args h => decode_of_fieldOP (op := .pitchBend) (args := []) args h rfl,
    fun s c value => exec_pitchBend_of_drop,
    fun s c value hc hv => exec_onlyChannel hc (exec_pitchBend_of_ok hc hv), fun s c hc => ?_⟩
  obtain ⟨t, ht, -, hchan⟩ := exec_onlyChannel hc (exec_pitchBend_of_ok hc (value := 8192) (by decide))
  exact ⟨t, ht, by rw [hchan, bendRatio_center]⟩

/-- Settles O24: an admitted CHANNEL_PRESSURE is one channel write. -/
theorem channelPressureWritesAftertouch : Obligations.ChannelPressureWritesAftertouch := by
  unfold Obligations.ChannelPressureWritesAftertouch
  exact ⟨fun w args h => decode_of_fieldOP (op := .channelPressure) (args := []) args h rfl, fun s c value =>
    ⟨fun hc hv => exec_onlyChannel hc (exec_channelPressure_of_ok hc hv), exec_channelPressure_of_drop⟩⟩

/-- Settles O25: cc 74 is one channel write; without effect are a failed check and every other cc. -/
theorem controlChangeWritesBrightnessOnly : Obligations.ControlChangeWritesBrightnessOnly := by
  unfold Obligations.ControlChangeWritesBrightnessOnly
  refine ⟨fun w args h => decode_of_fieldOP (op := .controlChange) (args := []) args h rfl, fun s c cc value =>
    ⟨fun hc hv hcc => ?_, fun h => ?_⟩⟩
  · subst hcc
    exact exec_onlyChannel hc (exec_controlChange_brightness hc hv)
  · by_cases hcc : cc = 74
    · exact exec_controlChange_of_drop (by simpa [hcc] using h)
    · exact exec_controlChange_other s c value hcc

/-- Settles O27: an admitted SET_FILTER_CUTOFF is one channel write of its argument. -/
theorem setFilterCutoffStoresItsArgument : Obligations.SetFilterCutoffStoresItsArgument := by
  unfold Obligations.SetFilterCutoffStoresItsArgument
  exact ⟨fun w a1 args h => decode_of_fieldOP (op := .setFilterCutoff) (args := [a1]) args h rfl, fun s c hz =>
    ⟨fun hc hfin hmax => exec_onlyChannel hc (exec_setFilterCutoff_of_ok hc hfin hmax), exec_setFilterCutoff_of_drop⟩⟩

/-- Settles O29: each of the five ids selects by evaluation, and an id above 4 is dropped. -/
theorem setWaveformWritesTheSelector : Obligations.SetWaveformWritesTheSelector := by
  unfold Obligations.SetWaveformWritesTheSelector
  exact ⟨fun w args h => decode_of_fieldOP (op := .setWaveform) (args := []) args h rfl, fun s =>
    ⟨rfl, rfl, rfl, rfl, rfl, fun _ => exec_setWaveform_of_drop⟩⟩

end Sys2Proof.Machine
end

section
/-! SET_ENVELOPE (R306, R105): its four write points as writes to the fields of one channel register set, and the state after
the first k of them. -/

namespace Sys2Proof.Machine

/-! ## Write points to a channel register set -/

/-- The write points of SET_ENVELOPE for channel c. -/
def WriteOp.writesChan (c : Nat) : WriteOp → Bool
  | .writeAtk d _ | .writeDec d _ | .writeSus d _ | .writeRel d _ => d == c
  | _ => false

/-- The registers after a write point of SET_ENVELOPE. -/
def WriteOp.writeField (x : Channel) : WriteOp → Channel
  | .writeAtk _ v => { x with atk := v }
  | .writeDec _ v => { x with dec := v }
  | .writeSus _ v => { x with sus := clampSustain v }
  | .writeRel _ v => { x with rel := v }
  | _ => x

theorem applyOp_of_writesChan (L : Lib) {op : WriteOp} {c : Nat} (s : State) (h : op.writesChan c = true) :
    applyOp L op s = s.setChan c (op.writeField (s.chan c)) := by
  cases op <;> simp only [WriteOp.writesChan, beq_iff_eq, Bool.false_eq_true] at h <;> subst h <;> rfl

/-- The state with `CH[c]` overwritten by x and the write points `ops` left. -/
def State.withChanAndWork (s : State) (c : Nat) (x : Channel) (ops : List WriteOp) : State :=
  { s.setChan c x with work := ops }

theorem setChan_chan {s : State} {c : Nat} (hc : c < s.numLanes) : s.setChan c (s.chan c) = s := by
  have hset : s.lanes.set c (s.lane c) = s.lanes := by
    rw [lane_of_lt hc]
    exact List.set_getElem_self hc
  simp only [State.setChan, State.chan, hset]

theorem setChan_setChan {s : State} {c : Nat} (x y : Channel) (hc : c < s.numLanes) :
    (s.setChan c x).setChan c y = s.setChan c y := by
  rw [State.setChan, lane_setChan_same x hc, setChan_lanes, List.set_set]
  rfl

theorem chan_withChanAndWork {s : State} {c : Nat} (x : Channel) (ops : List WriteOp) (hc : c < s.numLanes) :
    (s.withChanAndWork c x ops).chan c = x :=
  chan_setChan_same x hc

/-- Beside `CH[c]` and the write points left, nothing differs from s. -/
theorem withChanAndWork_work {s : State} {saved : List WriteOp} (c : Nat) (x : Channel) (ops : List WriteOp)
    (hw : s.work = saved) : { s.withChanAndWork c x ops with work := saved } = s.setChan c x := by
  subst hw
  rfl

theorem workStep_withChanAndWork (L : Lib) {s : State} {c : Nat} {op : WriteOp} (x : Channel) (rest : List WriteOp)
    (hc : c < s.numLanes) (hop : op.writesChan c = true) :
    workStep L (s.withChanAndWork c x (op :: rest)) = s.withChanAndWork c (op.writeField x) rest := by
  have hrespond : ∀ w, op ≠ .respond w := by rintro w rfl; cases hop
  rw [workStep_write rfl hrespond, applyOp_of_writesChan L _ hop]
  change (s.withChanAndWork c x rest).setChan c (op.writeField ((s.withChanAndWork c x rest).chan c)) = _
  rw [chan_withChanAndWork x rest hc]
  exact congrArg (fun t : State => { t with work := rest }) (setChan_setChan x _ hc)

/-- After k write points the first k fields are written, and the others are left. -/
theorem runWork_withChanAndWork (L : Lib) {s : State} {c : Nat} (hc : c < s.numLanes) :
    ∀ (ops : List WriteOp) (k : Nat) (x : Channel), (∀ op ∈ ops, op.writesChan c = true) → k ≤ ops.length →
      runWork L k (s.withChanAndWork c x ops) =
        s.withChanAndWork c ((ops.take k).foldl WriteOp.writeField x) (ops.drop k)
  | _, 0, _, _, _ => rfl
  | op :: rest, k + 1, x, hops, hk => by
    rw [runWork_succ, workStep_withChanAndWork L x rest hc (hops op List.mem_cons_self),
      runWork_withChanAndWork L hc rest k _ (fun o ho => hops o (List.mem_cons_of_mem op ho)) (Nat.le_of_succ_le_succ hk)]
    rfl

/-! ## SET_ENVELOPE -/

/-- The write points of SET_ENVELOPE, in R306's order. -/
def envelopeOps (c : Nat) (atk dec sus rel : F32) : List WriteOp :=
  [.writeAtk c atk, .writeDec c dec, .writeSus c sus, .writeRel c rel]

theorem envelopeOps_writesChan (c : Nat) (atk dec sus rel : F32) :
    ∀ op ∈ envelopeOps c atk dec sus rel, op.writesChan c = true := by
  simp [envelopeOps, WriteOp.writesChan]

/-- The registers after k of the four writes. -/
theorem envelopeOps_writeField (c : Nat) (atk dec sus rel : F32) (x : Channel) {k : Nat} (hk : k ≤ 4) :
    ((envelopeOps c atk dec sus rel).take k).foldl WriteOp.writeField x =
      { x with
        atk := if 1 ≤ k then atk else x.atk
        dec := if 2 ≤ k then dec else x.dec
        sus := if 3 ≤ k then fmin (fmax sus f0) f1 else x.sus
        rel := if 4 ≤ k then rel else x.rel } := by
  interval_cases k <;> rfl

theorem exec_setEnvelope_of_ok {s : State} {c : Nat} {atk dec sus rel : F32} (hc : c < s.numLanes)
    (hok : envelopeOk atk dec sus rel = true) :
    exec (.setEnvelope c atk dec sus rel) s =
      .next (s.withChanAndWork c (s.chan c) (envelopeOps c atk dec sus rel)) := by
  have hissue : setEnvelope c atk dec sus rel s = issue (envelopeOps c atk dec sus rel) s := by
    simp [setEnvelope, envelopeOps, hc, hok]
  rw [State.withChanAndWork, setChan_chan hc]
  exact congrArg Host.Outcome.next hissue

/-- Settles O28: after k write points `CH[c]` holds the first k fields and the other write points are left. -/
theorem setEnvelopeWritesFourFieldsInOrder : Obligations.SetEnvelopeWritesFourFieldsInOrder := by
  unfold Obligations.SetEnvelopeWritesFourFieldsInOrder
  refine ⟨fun w a1 a2 a3 a4 args h =>
    decode_of_fieldOP (op := .setEnvelope) (args := [a1, a2, a3, a4]) args h rfl,
    fun s c atk dec sus rel => exec_setEnvelope_of_drop, fun s c atk dec sus rel hw hc hatk hdec hsus hrel => ?_⟩
  have hrun := fun k hk => runWork_withChanAndWork lib hc (envelopeOps c atk dec sus rel) k (s.chan c)
    (envelopeOps_writesChan c atk dec sus rel) hk
  refine ⟨_, exec_setEnvelope_of_ok hc (by simp [envelopeOk, hatk, hdec, hsus, hrel]), rfl, ?_, fun k hk => ?_⟩
  · rw [hrun 4 le_rfl]
    rfl
  · rw [hrun k hk, envelopeOps_writeField c atk dec sus rel _ hk]
    exact ⟨withChanAndWork_work c _ _ hw ▸ setChan_onlyChannel _ hc, chan_withChanAndWork _ _ hc⟩

end Sys2Proof.Machine
end

section
/-! SUPPORT. Issued write points performed one after another (R105, R154): one lemma per kind of write point, and what is left
when the last one is an answer. -/

namespace Sys2Proof.Machine

/-! ## Performing the first write point of a list -/

section
variable {L : Lib} {s : State} {rest : List WriteOp} {n : Nat}

/-- Where no write point was left before, having none left is the state itself. -/
theorem issue_nil (hw : s.work = []) : issue [] s = s := by
  rw [issue, ← hw]

/-- With no write point left nothing more happens. -/
theorem runWork_of_work_nil (L : Lib) (hw : s.work = []) : ∀ n : Nat, runWork L n s = s
  | 0 => rfl
  | n + 1 => by
    have hidle : workStep L s = s := by simp only [workStep, hw]
    rw [runWork_succ, hidle, runWork_of_work_nil L hw n]

theorem runWork_issue_of_not_holds {op : WriteOp} (hh : holds op s = false) :
    runWork L (n + 1) (issue (op :: rest) s) = runWork L n (applyOp L op (issue rest s)) := by
  have hh' : holds op (issue (op :: rest) s) = false := by rw [← hh]; cases op <;> rfl
  rw [runWork_succ, workStep_of_not_holds rfl hh']
  rfl

theorem runWork_issue_generateBank (rate : F32) :
    runWork L (n + 1) (issue (.generateBank rate :: rest) s) = runWork L n (issue rest (generate rate s)) :=
  runWork_issue_of_not_holds rfl

theorem runWork_issue_writeSr (rate : F32) :
    runWork L (n + 1) (issue (.writeSr rate :: rest) s) = runWork L n (issue rest { s with sr := rate }) :=
  runWork_issue_of_not_holds rfl

theorem runWork_issue_startStream : runWork L (n + 1) (issue (.startStream :: rest) s) =
    runWork L n (issue rest { s with stream := { opened := true, playing := true } }) :=
  runWork_issue_of_not_holds rfl

theorem runWork_issue_selectCustom :
    runWork L (n + 1) (issue (.selectCustom :: rest) s) = runWork L n (issue rest { s with wave := .custom }) :=
  runWork_issue_of_not_holds rfl

theorem runWork_issue_respond (w : Word) (room : s.respq.length < s.cfg.respDepth) :
    runWork L (n + 1) (issue (.respond w :: rest) s) = runWork L n (issue rest (pushResp s w)) :=
  runWork_issue_of_not_holds (by simpa [holds, respRoom] using room)

/-- A respond to a full RESPQ stays the first write point (R150). -/
theorem runWork_issue_respond_full (w : Word) (full : s.cfg.respDepth ≤ s.respq.length) :
    runWork L (n + 1) (issue (.respond w :: rest) s) = runWork L n (issue (.respond w :: rest) s) :=
  congrArg (runWork L n) (workStep_respond_full rfl full)

/-- An answer as the last write point: the word is pushed, and no write point is left. -/
theorem runWork_issue_answer (w : Word) (hw : s.work = []) (room : s.respq.length < s.cfg.respDepth) :
    runWork L (n + 1) (issue [.respond w] s) = { s with respq := s.respq ++ [w] } := by
  rw [runWork_issue_respond w room, runWork_of_work_nil L rfl]
  exact issue_nil (s := pushResp s w) hw

end

end Sys2Proof.Machine
end

section
/-! The stream commands (R331 to R333): where each way of a START ends, and that a START lets the stream play only once the rate
and the bank agree. -/

namespace Sys2Proof.Machine

/-! ## START's answers (R331) -/

theorem openOk_iff {P : Params} {d : Draw} :
    openOk P d = true ↔ d.ok = true ∧ fle P.srMin d.sr = true ∧ fle d.sr P.srMax = true := by
  simp only [openOk, Bool.and_eq_true, and_assoc]

/-- A rate START accepts is no NaN, so it equals itself. -/
theorem feq_self_of_openOk {P : Params} {d : Draw} (h : openOk P d = true) : feq d.sr d.sr = true := by
  obtain ⟨-, hmin, -⟩ := openOk_iff.1 h
  simp [feq, (not_nan_of_fle hmin).2]

/-- The write points of a successful open that follow the bank's generation. -/
def startOps (rate : F32) : List WriteOp := [.writeSr rate, .startStream, .respond (statusWord .start false true)]

theorem openOps_of_feq {bankSr rate : F32} (h : feq rate bankSr = true) : openOps bankSr rate = startOps rate := by
  simp [openOps, startOps, h]

theorem openOps_of_not_feq {bankSr rate : F32} (h : ¬feq rate bankSr = true) :
    openOps bankSr rate = .generateBank rate :: startOps rate := by
  simp [openOps, startOps, h]

section
variable {L : Lib} {s : State} {n : Nat}

theorem runWork_startOps (rate : F32) (hw : s.work = []) (room : s.respq.length < s.cfg.respDepth) :
    runWork L (n + 3) (issue (startOps rate) s) =
      { s with
        sr := rate
        stream := { opened := true, playing := true }
        respq := s.respq ++ [0x10000001#32] } := by
  rw [startOps, runWork_issue_writeSr, runWork_issue_startStream]
  exact runWork_issue_answer _ hw room

theorem runWork_openOps (rate : F32) (hw : s.work = []) (room : s.respq.length < s.cfg.respDepth) :
    runWork L 4 (issue (openOps s.bankSr rate) s) =
      { s with
        sr := rate
        bankSr := if feq rate s.bankSr then s.bankSr else rate
        stream := { opened := true, playing := true }
        respq := s.respq ++ [0x10000001#32] } := by
  by_cases h : feq rate s.bankSr = true
  · rw [openOps_of_feq h, runWork_startOps rate hw room, if_pos h]
  · rw [openOps_of_not_feq h, runWork_issue_generateBank, if_neg h]
    exact runWork_startOps (n := 0) rate hw room

end

section
variable {s : State}

theorem start_of_openOk (hclosed : s.stream.opened = false) (hok : openOk s.cfg (nextDraw s) = true) :
    start s = issue (openOps s.bankSr (nextDraw s).sr) (driverOpen s) := by
  simp [start, hclosed, hok]

theorem start_of_not_openOk (hclosed : s.stream.opened = false) (hok : ¬openOk s.cfg (nextDraw s) = true) :
    start s = issue [.respond (statusWord .start false false)] (driverOpen s) := by
  simp [start, hclosed, hok]

theorem start_of_opened (hopen : s.stream.opened = true) :
    start s = issue [.startStream, .respond (statusWord .start false true)] s := if_pos hopen

end

/-- Settles O31: START issues the write points of its case, and performing them leaves the state of that case. -/
theorem startNegotiatesAndAnswers : Obligations.StartNegotiatesAndAnswers := by
  unfold Obligations.StartNegotiatesAndAnswers
  refine ⟨fun w args h => decode_of_fieldOP (op := .start) (args := []) args h rfl, fun s hw room =>
    ⟨fun hclosed hok hmin hmax => ⟨_, rfl, ?_⟩, fun hclosed hfail => ⟨_, rfl, ?_⟩, fun hopen => ⟨_, rfl, ?_⟩⟩⟩
  · rw [start_of_openOk hclosed (openOk_iff.2 ⟨hok, hmin, hmax⟩)]
    exact runWork_openOps (s := driverOpen s) _ hw room
  · have hfail' : ¬openOk s.cfg (nextDraw s) = true := by
      simpa only [openOk_iff, not_and_or, Bool.not_eq_true] using hfail
    rw [start_of_not_openOk hclosed hfail']
    exact runWork_issue_answer (s := driverOpen s) _ hw room
  · rw [start_of_opened hopen, runWork_issue_startStream]
    exact runWork_issue_answer _ hw room

/-! ## The stream is written last (R331, R188) -/

/-- The stream plays at most at this rate, and with a bank generated for it. -/
def PlaysOnlyAt (rate : F32) (t : State) : Prop :=
  t.stream.playing = true → t.sr = rate ∧ feq t.sr t.bankSr = true

theorem playsOnlyAt_of_stopped (rate : F32) {t : State} (h : t.stream.playing = false) : PlaysOnlyAt rate t :=
  fun hplay => absurd hplay (by simp [h])

section
variable {L : Lib} {rate : F32}

/-- An answer left to push, with room for it or without, changes neither the stream nor the rates. -/
theorem playsOnlyAt_runWork_respond (w : Word) {s : State} (h : PlaysOnlyAt rate s) :
    ∀ k, PlaysOnlyAt rate (runWork L k (issue [.respond w] s))
  | 0 => h
  | k + 1 => by
    by_cases room : s.respq.length < s.cfg.respDepth
    · rw [runWork_issue_respond w room, runWork_of_work_nil L rfl]
      exact h
    · rw [runWork_issue_respond_full w (Nat.le_of_not_lt room)]
      exact playsOnlyAt_runWork_respond w h k

/-- With the bank at the negotiated rate, G.SR is written before the stream plays. -/
theorem playsOnlyAt_runWork_startOps {s : State} (hstop : s.stream.playing = false)
    (hbank : feq rate s.bankSr = true) : ∀ k, PlaysOnlyAt rate (runWork L k (issue (startOps rate) s))
  | 0 => playsOnlyAt_of_stopped rate hstop
  | 1 => playsOnlyAt_of_stopped rate hstop
  | k + 2 => by
    rw [startOps, runWork_issue_writeSr, runWork_issue_startStream]
    exact playsOnlyAt_runWork_respond _ (fun _ => ⟨rfl, hbank⟩) k

/-- A bank at another rate is generated first. -/
theorem playsOnlyAt_runWork_openOps {s : State} (hstop : s.stream.playing = false) (hself : feq rate rate = true)
    (k : Nat) : PlaysOnlyAt rate (runWork L k (issue (openOps s.bankSr rate) s)) := by
  by_cases h : feq rate s.bankSr = true
  · rw [openOps_of_feq h]
    exact playsOnlyAt_runWork_startOps hstop h k
  · rw [openOps_of_not_feq h]
    cases k with
    | zero => exact playsOnlyAt_of_stopped rate hstop
    | succ k =>
      rw [runWork_issue_generateBank]
      exact playsOnlyAt_runWork_startOps (s := generate rate s) hstop hself k

end

/-- Settles O32: a successful open writes bank, rate and stream in that order, and a failed one leaves the stream stopped. -/
theorem startWritesTheStreamLast : Obligations.StartWritesTheStreamLast := by
  unfold Obligations.StartWritesTheStreamLast
  intro s k hclosed hstop _
  refine ⟨_, rfl, ?_⟩
  by_cases hok : openOk s.cfg (nextDraw s) = true
  · rw [start_of_openOk hclosed hok]
    exact playsOnlyAt_runWork_openOps (s := driverOpen s) hstop (feq_self_of_openOk hok) k
  · rw [start_of_not_openOk hclosed hok]
    exact playsOnlyAt_runWork_respond (s := driverOpen s) _ (playsOnlyAt_of_stopped _ hstop) k

/-! ## STOP and CLOSE (R332, R333) -/

/-- Settles O33: each is one write of G.STREAM, and CLOSE's call to the driver is recorded. -/
theorem stopAndCloseChangeTheStreamOnly : Obligations.StopAndCloseChangeTheStreamOnly := by
  unfold Obligations.StopAndCloseChangeTheStreamOnly
  exact ⟨fun w args h => decode_of_fieldOP (op := .stop) (args := []) args h rfl,
    fun w args h => decode_of_fieldOP (op := .close) (args := []) args h rfl, fun s => ⟨rfl, rfl⟩⟩

end Sys2Proof.Machine
end

section
/-! The wavetable and sample commands (R334 to R338): their publishes as writes to the state, and the states they end in. -/

namespace Sys2Proof.Machine

/-! ## Publishing -/

/-- With no byte taken early, a command reads the payload memory itself (R111). -/
theorem takenRead_nil (m : Memory) : takenRead [] m = memRead m := rfl

section
variable {L : Lib} {s : State} {n : Nat}

theorem runWork_issue_publishCustom (addr len : Nat) :
    runWork L (n + 1) (issue [.publishCustom addr len []] s) =
      runWork L n (issue
        [.selectCustom, .respond (statusWord .loadWavetable false (load s.cfg (memRead s.payload) addr len).2)]
        { s with custom := { valid := true, table := (load s.cfg (memRead s.payload) addr len).1 } }) := by
  rw [runWork_issue_of_not_holds rfl, ← takenRead_nil]
  rfl

theorem runWork_issue_publishRegion (root lo hi : Key) (addr len naddr nlen : Nat) :
    runWork L (n + 1) (issue [.publishRegion root lo hi addr len naddr nlen [] []] s) =
      runWork L n (issue
        [.respond (statusWord .registerSample true (load s.cfg (memRead s.payload) addr len).2)]
        { s with
          regions := s.regions ++
            [buildRegion L s.cfg s.sr root lo hi (load s.cfg (memRead s.payload) addr len).1 (memRead s.payload)
              naddr nlen] }) := by
  rw [runWork_issue_of_not_holds rfl, ← takenRead_nil]
  rfl

end

/-! ## LOAD_WAVETABLE (R334) -/

theorem statusWord_loadWavetable (ok : Bool) :
    statusWord .loadWavetable false ok = if ok then 0x30000001#32 else 0x30000000#32 := by
  cases ok <;> rfl

/-- Settles O34: after each write point the issued list is one shorter and one more write is made. -/
theorem loadWavetablePublishesThenSelects : Obligations.LoadWavetablePublishesThenSelects := by
  unfold Obligations.LoadWavetablePublishesThenSelects
  refine ⟨fun w a1 a2 args h => decode_of_fieldOP (op := .loadWavetable) (args := [a1, a2]) args h rfl,
    fun s addr len hw room => ?_⟩
  intro r
  refine ⟨issue [.publishCustom addr len []] s, rfl, issue_nil hw, ?_, ?_, ?_⟩ <;>
    rw [runWork_issue_publishCustom]
  · exact issue_nil (s := { s with custom := _ }) hw
  · rw [runWork_issue_selectCustom]
    exact issue_nil (s := { s with custom := _, wave := _ }) hw
  · rw [runWork_issue_selectCustom, statusWord_loadWavetable]
    exact runWork_issue_answer _ hw room

/-! ## REGISTER_SAMPLE (R336) -/

theorem statusWord_registerSample (ok : Bool) :
    statusWord .registerSample true ok = if ok then 0x31000003#32 else 0x31000002#32 := by
  cases ok <;> rfl

theorem registerOk_iff {root lo hi naddr nlen : Nat} {s : State} : registerOk root lo hi naddr nlen s = true ↔
    root ≤ 127 ∧ lo ≤ 127 ∧ hi ≤ 127 ∧ s.regions.length < s.cfg.rMax ∧ naddr + nlen ≤ s.cfg.payloadBytes := by
  simp only [registerOk, Bool.and_eq_true, upTo127_iff, decide_eq_true_eq, and_assoc]

/-- The region of a root key below 128, its operand not reduced. -/
theorem buildRegion_keyOf (L : Lib) (P : Params) (sr : F32) {root : Nat} (hroot : root ≤ 127) (lo hi : Key) (x : Table)
    (nameView : Nat → Byte) (naddr nlen : Nat) :
    buildRegion L P sr (keyOf root) lo hi x nameView naddr nlen =
      { root := keyOf root
        lo := lo
        hi := hi
        rootFreq := midiToHz L root
        name := (List.range (min nlen P.nameMax)).map fun p => nameView (naddr + p)
        band := buildBands L P x root sr } := by
  rw [buildRegion, keyOf_toNat hroot]

/-- Settles O35: with every check passed the publish and the answer are performed; otherwise only the refusal is. -/
theorem registerSampleAppendsOrRefuses : Obligations.RegisterSampleAppendsOrRefuses := by
  unfold Obligations.RegisterSampleAppendsOrRefuses
  refine ⟨fun w a1 a2 a3 a4 args h =>
    decode_of_fieldOP (op := .registerSample) (args := [a1, a2, a3, a4]) args h rfl,
    fun s root lo hi addr len naddr nlen hw room => ?_⟩
  intro r
  refine ⟨fun hroot hlo hhi hlist hname => ⟨_, rfl, ?_⟩, fun hfail => ⟨_, rfl, ?_⟩⟩
  · have hok := registerOk_iff.2 ⟨hroot, hlo, hhi, hlist, hname⟩
    rw [registerSample, if_pos hok, runWork_issue_publishRegion, statusWord_registerSample,
      buildRegion_keyOf lib s.cfg s.sr hroot]
    exact runWork_issue_answer _ hw room
  · have hno : ¬registerOk root lo hi naddr nlen s = true := by
      simpa only [registerOk_iff, not_and_or, not_le, not_lt] using hfail
    rw [registerSample, if_neg hno, runWork_issue_answer _ hw room]
    rfl

/-! ## UNREGISTER_SAMPLE (R338) -/

/-- Settles O36: the element is erased, and an index beyond the list is dropped. -/
theorem unregisterSampleRemovesOneElement : Obligations.UnregisterSampleRemovesOneElement := by
  unfold Obligations.UnregisterSampleRemovesOneElement
  refine ⟨fun w args h => decode_of_fieldOP (op := .unregisterSample) (args := []) args h rfl, fun s index =>
    ⟨fun hlt => ?_, fun hge => ?_⟩⟩
  · rw [← List.eraseIdx_eq_take_drop_succ]
    exact congrArg Host.Outcome.next (if_pos hlt)
  · exact congrArg Host.Outcome.next (if_neg (Nat.not_lt.2 hge))

end Sys2Proof.Machine
end

section
/-! No step stops the block (R370, R383): the command processor answers a next state on each of its branches, and the tick
and the host's step have no other answer. -/

namespace Sys2Proof.Machine

/-- The one branch that could pass on another outcome executes a meaning, and every meaning answers (`exec_next`, used in
`processorStep_cases`). -/
theorem processorStep_next (s : State) : ∃ t, processorStep s = .next t := by
  rcases processorStep_cases s with ⟨_, _, -, hwork⟩ | ⟨-, -, hwait⟩ | ⟨_, _, _, -, -, -, htake⟩ |
    ⟨_, _, _, _, _, -, -, -, -, hexec⟩
  · exact ⟨_, hwork⟩
  · exact ⟨_, hwait⟩
  · exact ⟨_, htake⟩
  · exact ⟨_, hexec⟩

/-- Settles O8: the agent whose turn it is answers a next state, whichever agent it is. -/
theorem everyStepAnswersANextState : Obligations.EveryStepAnswersANextState := by
  unfold Obligations.EveryStepAnswersANextState
  intro s
  rcases step_cases s with ⟨-, hstep⟩ | ⟨ts, -, hstep⟩ | ⟨_, _, -, htick⟩ | ⟨_, -, hhost⟩
  · exact hstep ▸ processorStep_next s
  · exact hstep ▸ processorStep_next { s with turns := ts }
  · exact ⟨_, htick⟩
  · exact ⟨_, hhost⟩

end Sys2Proof.Machine
end

section
/-! What each piece of the block's state holds after reset (R390): the sample tables and the register sets of every lane, for
any parameters; the rest are the literals of the table. -/

namespace Sys2Proof.Machine

/-- The custom table after reset is +0.0 throughout (R36). -/
@[simp] theorem tableAt_zeroTable {i : Nat} (h : i < 2048) : tableAt zeroTable i = 0#32 := by
  rw [tableAt_eq _ h]
  exact Vector.getElem_replicate h

/-- After reset every lane holds the reset channel and the reset voice (R41, R50). -/
@[simp] theorem lane_resetWith (P : Params) (c : Nat) :
    (State.resetWith P).lane c = { chan := Channel.reset P, voice := Voice.reset } :=
  List.getElem?_getD_replicate_default_eq ..

theorem numLanes_resetWith (P : Params) : (State.resetWith P).numLanes = P.numChannels := List.length_replicate

/-- Settles O17: the registers and queues are the literals of R390's table, and the custom table and the lanes are filled with
one value each. -/
theorem resetGivesEveryStateItsValue : Obligations.ResetGivesEveryStateItsValue := by
  unfold Obligations.ResetGivesEveryStateItsValue
  exact ⟨rfl, rfl, rfl, rfl, fun _ hi => tableAt_zeroTable hi, rfl, rfl, rfl, rfl, rfl,
    numLanes_resetWith Params.default,
    fun c _ => congrArg Lane.chan (lane_resetWith Params.default c),
    fun c _ => congrArg Lane.voice (lane_resetWith Params.default c)⟩

end Sys2Proof.Machine
end
